-- ==== Sys2Proof/Word.lean ====
section
/-! DEFINITION. The machine's words: bytes, addresses and the vector register's carrier (spec/00_scope.md rule R6). -/

namespace Sys2Proof

/-- One 8-bit byte (rule R32). -/
abbrev Byte := BitVec 8

/-- A 64-bit word: a general register, a linear address, one packed double (rules R27, R50, R110). -/
abbrev Word64 := BitVec 64

/-- The carrier of one vector register, bit 0 least significant (rule R20).
A machine with `MAXVL < 512` keeps its bits from `MAXVL` up at zero (notes/assumptions/3.md). -/
abbrev VWord := BitVec 512

end Sys2Proof
end

