-- ==== Sys2Proof/Config.lean ====
section
/-! DEFINITION. What an implementation fixes (spec/00_scope.md rule R5) and the free values of the model. -/

namespace Sys2Proof.Config

/-- The parameter `MODE` of rule R5: the operating mode. `prot32` is protected 32-bit and compatibility mode alike. -/
inductive Mode where
  | long64 | prot32 | prot16 | real | v86
deriving DecidableEq, Repr

/-- The parameter `FEAT` of rule R5: the CPUID feature flags reported (rule R31). -/
structure Features where
  sse2 : Bool
  avx : Bool
  avx512f : Bool
  avx512vl : Bool
  avx10_1 : Bool
deriving DecidableEq, Repr

/-- The parameter `MAXVL` of rule R5. -/
inductive MaxVl where
  | vl128 | vl256 | vl512
deriving DecidableEq, Repr

/-- The width in bits that a `MaxVl` names. -/
def MaxVl.bits : MaxVl → Nat
  | .vl128 => 128
  | .vl256 => 256
  | .vl512 => 512

/-- The implementation parameters of rule R5 that are plain values.
State holds one such record and no step changes it, so a statement about every state holds for every implementation
(notes/assumptions/2.md, DESIGN CHOICE). -/
structure Implementation where
  maxvl : MaxVl
  feat : Features
  /-- `DAZ_APPLIES` (rule R114). -/
  dazApplies : Bool
  /-- `EVEX_B_REG_IS_SAE512` (rule R87). -/
  evexBRegIsSae512 : Bool
deriving DecidableEq, Repr

/-- The recommended instance of decision D3, with the defaults of decisions D10 and D16. -/
def Implementation.recommended : Implementation where
  maxvl := .vl512
  feat := { sse2 := true, avx := true, avx512f := true, avx512vl := true, avx10_1 := true }
  dazApplies := true
  evexBRegIsSae512 := true

/-- "Constraints a sane configuration meets" (rule R5, row `FEAT`). -/
def Implementation.sane (c : Implementation) : Bool :=
  (!c.feat.avx || c.feat.sse2) && (!c.feat.avx512f || c.feat.avx) && (!c.feat.avx512vl || c.feat.avx512f) &&
    (decide (c.maxvl.bits < 512) || c.feat.avx512f || c.feat.avx10_1) &&
    (decide (c.maxvl.bits < 256) || c.feat.avx)

/-- FREE VALUE. The draw behind `XM_FLAGS` (rules R5, R117; decision D11): the `n`-th draw, for `INV`, `INX`, `MXCSR.IM`, `MXCSR.PM`.
The machine bounds it as rule R117 says (`Machine.xmFlags`; notes/assumptions/4.md). -/
opaque xmFlagsDraw (n : Nat) (inv inx im pm : Bool) : Bool × Bool

/-- FREE VALUE. Bit 4 (`I/D`) of the `#PF` error code of an instruction fetch; rule R170 gives the bit for the data read only
(notes/assumptions/18.md). -/
opaque fetchFaultInstructionBit : Bool

/-- The processor signature that rule R35 says RDX holds after reset; the spec gives no number.
PRESUMED: a family's value (notes/assumptions/11.md). -/
def processorSignature : Word64 := 0x000A06D1

end Sys2Proof.Config
end

