-- ==== Sys2Proof/Syntax.lean ====
section
/-! DEFINITION. The instruction set: one constructor per row of spec/opcode_table.json, with the operands that
spec/30_encoding.md rules R70 to R90 give it. -/

namespace Sys2Proof

/-- The six segment registers (rules R29, R72). -/
inductive SegName where
  | es | cs | ss | ds | fs | gs
deriving DecidableEq, Repr

/-- A byte before the opcode or the VEX/EVEX escape (rules R72, R73, R83). `rex` occurs in 64-bit mode only. -/
inductive LegacyPrefix where
  | opSize                    -- 66
  | addrSize                  -- 67
  | segment (name : SegName)  -- 26 2E 36 3E 64 65
  | lock                      -- F0
  | repne                     -- F2
  | rep                       -- F3
  | rex (wrxb : BitVec 4)     -- 40 to 4F
deriving DecidableEq, Repr

/-- A displacement as encoded (rule R77); a `d8` of an EVEX form is scaled when the address is formed (rule R89). -/
inductive Disp where
  | none
  | d8 (v : BitVec 8)
  | d16 (v : BitVec 16)
  | d32 (v : BitVec 32)
deriving DecidableEq, Repr

/-- A memory operand: one constructor per addressing form of rules R75, R76, R78 and R79.
Base and index are general register numbers 0 to 15; index 4 means no index. -/
inductive MemRef where
  | base (b : BitVec 4) (disp : Disp)                                          -- R75, no SIB byte
  | sib (scale : BitVec 2) (index : BitVec 4) (b : BitVec 4) (disp : Disp)     -- R79, with a base
  | sibNoBase (scale : BitVec 2) (index : BitVec 4) (disp : BitVec 32)         -- R79, mod = 00, base = 101
  | ripRel (disp : BitVec 32)                                                  -- R78
  | disp32 (disp : BitVec 32)                                                  -- R75, mod = 00, rm = 101 outside 64-bit mode
  | addr16 (rm : BitVec 3) (disp : Disp)                                       -- R76, with registers
  | disp16 (disp : BitVec 16)                                                  -- R76, mod = 00, rm = 110
deriving DecidableEq, Repr

/-- Operand 2 of the legacy and VEX forms (rule R96): a vector register, or memory of the form's full width. -/
inductive RmSource where
  | reg (n : BitVec 5)
  | mem (m : MemRef)
deriving DecidableEq, Repr

/-- Operand 2 of an EVEX form (rule R87). -/
inductive EvexSource where
  | plain (src : RmSource)    -- EVEX.b = 0
  | sae (n : BitVec 5)        -- EVEX.b = 1 with a register
  | broadcast (m : MemRef)    -- EVEX.b = 1 with memory: m64bcst
deriving DecidableEq, Repr

/-- The operands of form 1 (rules R70 to R73). `pre` are the bytes before the effective REX byte, in order; `rex` says whether that byte
is there. Its extension bits are in the register numbers. -/
structure LegacyOps where
  pre : List LegacyPrefix
  rex : Bool
  dst : BitVec 5
  src : RmSource
deriving DecidableEq, Repr

/-- The operands of forms 2 and 3 (rules R80 to R83). `vvvv` is the stored field. -/
structure VexOps where
  pre : List LegacyPrefix
  threeByte : Bool
  vvvv : BitVec 4
  dst : BitVec 5
  src : RmSource
deriving DecidableEq, Repr

/-- The operands of forms 4 to 6 (rules R84 to R88). `vvvv` and `vHigh` (V̄') are the stored fields. -/
structure EvexOps where
  pre : List LegacyPrefix
  vvvv : BitVec 4
  vHigh : Bool
  dst : BitVec 5
  aaa : BitVec 3
  zeroing : Bool
  src : EvexSource
deriving DecidableEq, Repr

/-- The six forms of rule R1, one per row of spec/opcode_table.json. -/
inductive Instr where
  | cvttpd2dq (o : LegacyOps)             -- CVTTPD2DQ            66 0F E6 /r
  | vcvttpd2dqVex128 (o : VexOps)         -- VCVTTPD2DQ_VEX128    VEX.128.66.0F.WIG E6 /r
  | vcvttpd2dqVex256 (o : VexOps)         -- VCVTTPD2DQ_VEX256    VEX.256.66.0F.WIG E6 /r
  | vcvttpd2dqEvex128 (o : EvexOps)       -- VCVTTPD2DQ_EVEX128   EVEX.128.66.0F.W1 E6 /r
  | vcvttpd2dqEvex256 (o : EvexOps)       -- VCVTTPD2DQ_EVEX256   EVEX.256.66.0F.W1 E6 /r
  | vcvttpd2dqEvex512 (o : EvexOps)       -- VCVTTPD2DQ_EVEX512   EVEX.512.66.0F.W1 E6 /r
deriving DecidableEq, Repr

/-- The address size `A` of rules R75 and R76. -/
inductive AddrSize where
  | a16 | a32 | a64
deriving DecidableEq, Repr

end Sys2Proof
end

