-- ==== Sys2Proof/Decode.lean ====
section
/-! DEFINITION. The decoder of spec/30_encoding.md (rules R70 to R92), total on every byte list, and after it the encoder. -/

namespace Sys2Proof

open Config (Mode)

/-- Is the prefix byte `p` among the prefixes? -/
def hasPrefix (p : LegacyPrefix) (pre : List LegacyPrefix) : Bool := pre.contains p

/-- Is there a REX byte among the prefixes? -/
def hasRex : List LegacyPrefix → Bool
  | [] => false
  | .rex _ :: _ => true
  | _ :: rest => hasRex rest

/-- The address size (rules R75, R76): 64 in 64-bit mode (32 with `67`), 32 in 32-bit modes (16 with `67`),
16 in 16-bit code (32 with `67`: DEDUCED, notes/assumptions/27.md). -/
def addrSizeOf (mode : Mode) (pre : List LegacyPrefix) : AddrSize :=
  let ovr := hasPrefix .addrSize pre
  match mode with
  | .long64 => if ovr then .a32 else .a64
  | .prot32 => if ovr then .a16 else .a32
  | .prot16 | .real | .v86 => if ovr then .a32 else .a16

/-! ## Decoding -/

/-- Why the decoder refuses some bytes: they are not one of the six forms. -/
inductive DecodeRefusal where
  /-- Another opcode, map or `pp`, or bytes that are LES, LDS or BOUND outside 64-bit mode (rules R72, R83, R84, R90). -/
  | otherInstruction
  /-- `0F E6` with `F2`, `F3` or without `66` (rule R72, decision D24). -/
  | wrongMandatoryPrefix
  /-- P0 bits 3:2 other than 00, or P1 bit 2 other than 1 (rules R84, R90). -/
  | evexReservedBits
  /-- `EVEX.W = 0` (rule R85, decision D23). -/
  | evexW0
  /-- A stored `R̄'`, `B̄` or `V̄'` of 0 in a 16- or 32-bit protected mode (rule R86, U6). -/
  | evexExtensionOutside64
  /-- `mod = 11`, `b = 1`, `L'L` other than 10 with `EVEX_B_REG_IS_SAE512` false (rule R87, decision D16). -/
  | saeLength
deriving DecidableEq, Repr

/-- What the decoder answers. `undefinedOpcode`: the bytes raise `#UD` and match no row (rule R90, `L'L = 11`).
`truncated`: the instruction goes on past the end of the list. -/
inductive Decoded where
  | instr (i : Instr) (rest : List Byte)
  | undefinedOpcode
  | refused (r : DecodeRefusal)
  | truncated
deriving DecidableEq, Repr

/-- What decoding depends on besides the bytes: the mode, and the parameter `EVEX_B_REG_IS_SAE512` of rule R87. -/
structure DecodeEnv where
  mode : Mode
  sae512 : Bool
deriving DecidableEq, Repr

/-- The prefix that a byte is (rules R72, R73); `40` to `4F` are REX in 64-bit mode only. -/
def prefixOf (mode : Mode) (b : Byte) : Option LegacyPrefix :=
  if b = 0x66 then some .opSize
  else if b = 0x67 then some .addrSize
  else if b = 0x26 then some (.segment .es)
  else if b = 0x2E then some (.segment .cs)
  else if b = 0x36 then some (.segment .ss)
  else if b = 0x3E then some (.segment .ds)
  else if b = 0x64 then some (.segment .fs)
  else if b = 0x65 then some (.segment .gs)
  else if b = 0xF0 then some .lock
  else if b = 0xF2 then some .repne
  else if b = 0xF3 then some .rep
  else if mode = .long64 && b.extractLsb' 4 4 == 4#4 then some (.rex (b.extractLsb' 0 4))
  else none

/-- The prefixes at the head of the bytes, and what follows them. -/
def splitPrefixes (mode : Mode) : List Byte → List LegacyPrefix × List Byte
  | [] => ([], [])
  | b :: bs =>
    match prefixOf mode b with
    | some p => (p :: (splitPrefixes mode bs).1, (splitPrefixes mode bs).2)
    | none => ([], b :: bs)

/-- The effective REX byte is the last prefix, if that is a REX byte (rule R73): the prefixes before it, and its bits. -/
def splitRex : List LegacyPrefix → List LegacyPrefix × Option (BitVec 4)
  | [] => ([], none)
  | [.rex w] => ([], some w)
  | p :: rest => (p :: (splitRex rest).1, (splitRex rest).2)

/-- A one-byte displacement (rule R77). -/
def takeD8 : List Byte → Option (Disp × List Byte)
  | b :: rest => some (.d8 b, rest)
  | _ => none

/-- A two-byte little-endian displacement (rule R77). -/
def takeD16 : List Byte → Option (BitVec 16 × List Byte)
  | b0 :: b1 :: rest => some (b1 ++ b0, rest)
  | _ => none

/-- A four-byte little-endian displacement (rule R77). -/
def takeD32 : List Byte → Option (BitVec 32 × List Byte)
  | b0 :: b1 :: b2 :: b3 :: rest => some (b3 ++ b2 ++ b1 ++ b0, rest)
  | _ => none

/-- The displacement that `mod` = 00, 01 or 10 calls for with a base register (rules R75, R77, R79). -/
def takeDisp (md : BitVec 2) (bs : List Byte) : Option (Disp × List Byte) :=
  if md = 0 then some (.none, bs)
  else if md = 1 then takeD8 bs
  else (takeD32 bs).map fun r => (.d32 r.1, r.2)

/-- The same under 16-bit addressing (rule R76). -/
def takeDisp16 (md : BitVec 2) (bs : List Byte) : Option (Disp × List Byte) :=
  if md = 0 then some (.none, bs)
  else if md = 1 then takeD8 bs
  else (takeD16 bs).map fun r => (.d16 r.1, r.2)

/-- A memory operand under 16-bit addressing (rule R76). -/
def decodeMem16 (md : BitVec 2) (rm : BitVec 3) (bs : List Byte) : Option (MemRef × List Byte) :=
  if md = 0 ∧ rm = 6 then (takeD16 bs).map fun r => (.disp16 r.1, r.2)
  else (takeDisp16 md bs).map fun r => (.addr16 rm r.1, r.2)

/-- The SIB byte and what follows it (rule R79); `x` and `b` extend index and base. -/
def decodeSib (x b : Bool) (md : BitVec 2) : List Byte → Option (MemRef × List Byte)
  | [] => none
  | sib :: bs =>
    let scale := sib.extractLsb' 6 2
    let index : BitVec 4 := BitVec.ofBool x ++ sib.extractLsb' 3 3
    let base := sib.extractLsb' 0 3
    if base = 5 ∧ md = 0 then (takeD32 bs).map fun r => (.sibNoBase scale index r.1, r.2)
    else (takeDisp md bs).map fun r => (.sib scale index (BitVec.ofBool b ++ base) r.1, r.2)

/-- A memory operand under 32- or 64-bit addressing (rules R75, R78). -/
def decodeMem32 (mode : Mode) (x b : Bool) (md : BitVec 2) (rm : BitVec 3) (bs : List Byte) : Option (MemRef × List Byte) :=
  if rm = 4 then decodeSib x b md bs
  else if md = 0 ∧ rm = 5 then
    (takeD32 bs).map fun r => (if mode = .long64 then .ripRel r.1 else .disp32 r.1, r.2)
  else (takeDisp md bs).map fun r => (.base (BitVec.ofBool b ++ rm) r.1, r.2)

/-- A memory operand: what follows a ModRM byte with `mod` other than 11 (rules R75 to R79). -/
def decodeMem (mode : Mode) (asz : AddrSize) (x b : Bool) (modrm : Byte) (bs : List Byte) : Option (MemRef × List Byte) :=
  let md := modrm.extractLsb' 6 2
  let rm := modrm.extractLsb' 0 3
  match asz with
  | .a16 => decodeMem16 md rm bs
  | _ => decodeMem32 mode x b md rm bs

/-- `mod = 11`: the ModRM byte names a register source (rule R74). -/
def modrmIsReg (modrm : Byte) : Bool := modrm.extractLsb' 6 2 == 3#2

/-- A 5-bit register number from its three parts (rules R73, R81, R86). -/
def regNumber (hi mid : Bool) (low : BitVec 3) : BitVec 5 := BitVec.ofBool hi ++ BitVec.ofBool mid ++ low

/-- The destination's three low bits, `ModRM.reg` (rules R74, R96). -/
def modrmReg (modrm : Byte) : BitVec 3 := modrm.extractLsb' 3 3

/-- The source of a legacy or VEX form: `src = B ++ ModRM.rm`, or memory (rules R73, R81). -/
def decodeRm (mode : Mode) (asz : AddrSize) (x b : Bool) (modrm : Byte) (bs : List Byte) : Option (RmSource × List Byte) :=
  if modrmIsReg modrm then some (.reg (regNumber false b (modrm.extractLsb' 0 3)), bs)
  else (decodeMem mode asz x b modrm bs).map fun r => (.mem r.1, r.2)

/-- Form 1 after the bytes `0F E6` (rules R71 to R73). DESIGN CHOICE: the mandatory prefix is looked at once the ModRM byte is there; without that
byte the answer is `truncated` (notes/assumptions/37.md). -/
def decodeLegacy (env : DecodeEnv) (prefixes : List LegacyPrefix) : List Byte → Decoded
  | [] => .truncated
  | modrm :: bs =>
    let (pre, rex) := splitRex prefixes
    let bits := rex.getD 0
    if hasPrefix .repne prefixes || hasPrefix .rep prefixes || !hasPrefix .opSize prefixes then .refused .wrongMandatoryPrefix
    else
      match decodeRm env.mode (addrSizeOf env.mode prefixes) (bits.getLsbD 1) (bits.getLsbD 0) modrm bs with
      | none => .truncated
      | some (src, rest) =>
        .instr (.cvttpd2dq { pre, rex := rex.isSome, dst := regNumber false (bits.getLsbD 2) (modrmReg modrm), src }) rest

/-- A VEX form after its escape bytes (rules R80 to R83): `r x b` are the extension bits, not inverted; `last` is the byte that holds
`vvvv`, `L` and `pp`. DESIGN CHOICE: with opcode byte E6, `pp` is looked at once the ModRM byte is there (notes/assumptions/37.md). -/
def decodeVex (env : DecodeEnv) (pre : List LegacyPrefix) (threeByte r x b : Bool) (last : Byte) : List Byte → Decoded
  | [] => .truncated
  | [op] => if op = 0xE6 then .truncated else .refused .otherInstruction
  | op :: modrm :: bs =>
    if op ≠ 0xE6 ∨ last.extractLsb' 0 2 ≠ 1 then .refused .otherInstruction
    else
      match decodeRm env.mode (addrSizeOf env.mode pre) x b modrm bs with
      | none => .truncated
      | some (src, rest) =>
        let o : VexOps := { pre, threeByte, vvvv := last.extractLsb' 3 4, dst := regNumber false r (modrmReg modrm), src }
        .instr (if last.getLsbD 2 then .vcvttpd2dqVex256 o else .vcvttpd2dqVex128 o) rest

/-- The `C5` escape (rule R80); outside 64-bit mode it is VEX only before a byte with bits 7:6 set (rule R83). -/
def decodeVex2 (env : DecodeEnv) (pre : List LegacyPrefix) : List Byte → Decoded
  | [] => .truncated
  | b1 :: bs =>
    if env.mode ≠ .long64 ∧ b1.extractLsb' 6 2 ≠ 3 then .refused .otherInstruction
    else decodeVex env pre false (env.mode = .long64 && !b1.getLsbD 7) false false b1 bs

/-- The `C4` escape (rules R81, R83). DESIGN CHOICE: `mmmmm` is looked at once both bytes after `C4` are there (notes/assumptions/37.md). -/
def decodeVex3 (env : DecodeEnv) (pre : List LegacyPrefix) : List Byte → Decoded
  | [] => .truncated
  | [b1] => if env.mode ≠ .long64 ∧ b1.extractLsb' 6 2 ≠ 3 then .refused .otherInstruction else .truncated
  | b1 :: b2 :: bs =>
    if env.mode ≠ .long64 ∧ b1.extractLsb' 6 2 ≠ 3 then .refused .otherInstruction
    else if b1.extractLsb' 0 5 ≠ 1 then .refused .otherInstruction
    else
      let ext := decide (env.mode = .long64)
      decodeVex env pre true (ext && !b1.getLsbD 7) (ext && !b1.getLsbD 6) (ext && !b1.getLsbD 5) b2 bs

/-- The form that `L'L` selects; 11 is reserved (rules R85, R90). -/
def evexByLength (ll : BitVec 2) (o : EvexOps) (rest : List Byte) : Decoded :=
  if ll = 0 then .instr (.vcvttpd2dqEvex128 o) rest
  else if ll = 1 then .instr (.vcvttpd2dqEvex256 o) rest
  else if ll = 2 then .instr (.vcvttpd2dqEvex512 o) rest
  else .undefinedOpcode

/-- The stored extension bits that rule R86 refuses in a 16- or 32-bit protected mode. -/
def evexExtensionRefused (mode : Mode) (p0 p2 : Byte) : Bool :=
  (decide (mode = .prot32) || decide (mode = .prot16)) && !(p0.getLsbD 4 && p0.getLsbD 5 && p2.getLsbD 3)

/-- An EVEX form after its three payload bytes and the opcode byte (rules R84 to R88). DESIGN CHOICE: the refusal `saeLength` comes before the `#UD`
rows of rule R90 that exec raises (notes/assumptions/38.md). -/
def decodeEvexBody (env : DecodeEnv) (pre : List LegacyPrefix) (p0 p1 p2 modrm : Byte) (bs : List Byte) : Decoded :=
  let ext := decide (env.mode = .long64)
  let r' := ext && !p0.getLsbD 4
  let r := ext && !p0.getLsbD 7
  let x := ext && !p0.getLsbD 6
  let b := ext && !p0.getLsbD 5
  let ll := p2.extractLsb' 5 2
  let ops (src : EvexSource) : EvexOps :=
    { pre, vvvv := p1.extractLsb' 3 4, vHigh := p2.getLsbD 3, dst := regNumber r' r (modrmReg modrm),
      aaa := p2.extractLsb' 0 3, zeroing := p2.getLsbD 7, src }
  if modrmIsReg modrm then
    let n := regNumber x b (modrm.extractLsb' 0 3)
    if p2.getLsbD 4 then
      if env.sae512 || ll == 2#2 then .instr (.vcvttpd2dqEvex512 (ops (.sae n))) bs else .refused .saeLength
    else evexByLength ll (ops (.plain (.reg n))) bs
  else
    match decodeMem env.mode (addrSizeOf env.mode pre) x b modrm bs with
    | none => .truncated
    | some (m, rest) =>
      evexByLength ll (ops (if p2.getLsbD 4 then .broadcast m else .plain (.mem m))) rest

/-- The `62` escape (rules R84, R85, R90); outside 64-bit mode it is EVEX only before a byte with bits 7:6 set.
DESIGN CHOICE: the refusals of rules R86 and R90 are made once the ModRM byte is there (notes/assumptions/37.md), and come before every `#UD` row of
rule R90 (notes/assumptions/38.md). -/
def decodeEvex (env : DecodeEnv) (pre : List LegacyPrefix) : List Byte → Decoded
  | p0 :: p1 :: p2 :: op :: modrm :: bs =>
    if env.mode ≠ .long64 ∧ p0.extractLsb' 6 2 ≠ 3 then .refused .otherInstruction
    else if p0.extractLsb' 2 2 ≠ 0 ∨ p1.getLsbD 2 = false then .refused .evexReservedBits
    else if p0.extractLsb' 0 2 ≠ 1 ∨ p1.extractLsb' 0 2 ≠ 1 ∨ op ≠ 0xE6 then .refused .otherInstruction
    else if p1.getLsbD 7 = false then .refused .evexW0
    else if evexExtensionRefused env.mode p0 p2 then .refused .evexExtensionOutside64
    else decodeEvexBody env pre p0 p1 p2 modrm bs
  | p0 :: _ => if env.mode ≠ .long64 ∧ p0.extractLsb' 6 2 ≠ 3 then .refused .otherInstruction else .truncated
  | [] => .truncated

/-- What follows the prefixes (rule R70): an escape and its form, or another instruction. -/
def decodeAfterPrefixes (env : DecodeEnv) (prefixes : List LegacyPrefix) : List Byte → Decoded
  | [] => .truncated
  | b :: bs =>
    if b = 0xC5 then decodeVex2 env prefixes bs
    else if b = 0xC4 then decodeVex3 env prefixes bs
    else if b = 0x62 then decodeEvex env prefixes bs
    else if b = 0x0F then
      match bs with
      | [] => .truncated
      | op :: rest => if op = 0xE6 then decodeLegacy env prefixes rest else .refused .otherInstruction
    else .refused .otherInstruction

/-- The decoder (rules R70, R91): the instruction at the head of the bytes and the bytes after it, or why there is none. -/
def decode (env : DecodeEnv) (bs : List Byte) : Decoded :=
  decodeAfterPrefixes env (splitPrefixes env.mode bs).1 (splitPrefixes env.mode bs).2

/-! ## Encoding -/

/-- The byte of a prefix (rules R72, R73). -/
def prefixByte : LegacyPrefix → Byte
  | .opSize => 0x66
  | .addrSize => 0x67
  | .segment .es => 0x26
  | .segment .cs => 0x2E
  | .segment .ss => 0x36
  | .segment .ds => 0x3E
  | .segment .fs => 0x64
  | .segment .gs => 0x65
  | .lock => 0xF0
  | .repne => 0xF2
  | .rep => 0xF3
  | .rex wrxb => 4#4 ++ wrxb

/-- The `n` low bytes of a value, least significant first (rule R77). -/
def leBytes {w : Nat} (v : BitVec w) : Nat → List Byte
  | 0 => []
  | n + 1 => v.extractLsb' 0 8 :: leBytes (v >>> 8) n

/-- The bytes of a displacement (rule R77). -/
def Disp.bytes : Disp → List Byte
  | .none => []
  | .d8 v => [v]
  | .d16 v => leBytes v 2
  | .d32 v => leBytes v 4

/-- The `mod` field that announces a displacement (rules R75, R76). -/
def Disp.modField : Disp → BitVec 2
  | .none => 0
  | .d8 _ => 1
  | .d16 _ | .d32 _ => 2

/-- A ModRM or SIB byte: three fields of 2, 3 and 3 bits (rules R74, R79). -/
def fieldByte (hi : BitVec 2) (mid low : BitVec 3) : Byte := hi ++ mid ++ low

/-- The three low bits of a register number. -/
def low3 {w : Nat} (n : BitVec w) : BitVec 3 := n.extractLsb' 0 3

/-- ModRM, SIB and displacement of a memory operand (rules R74 to R79). -/
def MemRef.bytes (reg : BitVec 3) : MemRef → List Byte
  | .base b d => fieldByte d.modField reg (low3 b) :: d.bytes
  | .sib scale index b d => fieldByte d.modField reg 4 :: fieldByte scale (low3 index) (low3 b) :: d.bytes
  | .sibNoBase scale index d => fieldByte 0 reg 4 :: fieldByte scale (low3 index) 5 :: leBytes d 4
  | .ripRel d | .disp32 d => fieldByte 0 reg 5 :: leBytes d 4
  | .addr16 rm d => fieldByte d.modField reg rm :: d.bytes
  | .disp16 d => fieldByte 0 reg 6 :: leBytes d 2

/-- The index extension bit `X` that a memory operand needs (rule R79). -/
def MemRef.extX : MemRef → Bool
  | .sib _ index _ _ | .sibNoBase _ index _ => index.getLsbD 3
  | _ => false

/-- The base extension bit `B` that a memory operand needs (rules R75, R79). -/
def MemRef.extB : MemRef → Bool
  | .base b _ | .sib _ _ b _ => b.getLsbD 3
  | _ => false

/-- ModRM and what follows it. -/
def RmSource.bytes (reg : BitVec 3) : RmSource → List Byte
  | .reg n => [fieldByte 3 reg (low3 n)]
  | .mem m => m.bytes reg

/-- The bit `X`: the index extension, or bit 4 of a register source of an EVEX form (rules R79, R86). -/
def RmSource.extX : RmSource → Bool
  | .reg n => n.getLsbD 4
  | .mem m => m.extX

/-- The bit `B` (rules R73, R81, R86). -/
def RmSource.extB : RmSource → Bool
  | .reg n => n.getLsbD 3
  | .mem m => m.extB

/-- The source without the bit `EVEX.b`. -/
def EvexSource.rm : EvexSource → RmSource
  | .plain src => src
  | .sae n => .reg n
  | .broadcast m => .mem m

/-- The bit `EVEX.b` (rule R87). -/
def EvexSource.bBit : EvexSource → Bool
  | .plain _ => false
  | _ => true

/-- One byte from its eight bits, most significant first. -/
def byteOf (b7 b6 b5 b4 b3 b2 b1 b0 : Bool) : Byte :=
  BitVec.ofBool b7 ++ BitVec.ofBool b6 ++ BitVec.ofBool b5 ++ BitVec.ofBool b4 ++
    BitVec.ofBool b3 ++ BitVec.ofBool b2 ++ BitVec.ofBool b1 ++ BitVec.ofBool b0

/-- Form 1 (rules R70, R71, R73); `REX.W` is written 0. -/
def encodeLegacy (o : LegacyOps) : List Byte :=
  o.pre.map prefixByte
    ++ (if o.rex then [byteOf false true false false false (o.dst.getLsbD 3) o.src.extX o.src.extB] else [])
    ++ (0x0F :: 0xE6 :: o.src.bytes (low3 o.dst))

/-- The VEX byte that holds `vvvv`, `L` and `pp = 01` under the top bit `top` (rules R80 to R82). -/
def vexLast (top : Bool) (vvvv : BitVec 4) (l : Bool) : Byte :=
  BitVec.ofBool top ++ vvvv ++ BitVec.ofBool l ++ 1#2

/-- Forms 2 and 3 (rules R80 to R82); `VEX.W` is written 0. -/
def encodeVex (l : Bool) (o : VexOps) : List Byte :=
  o.pre.map prefixByte
    ++ (if o.threeByte then
          [0xC4, byteOf (!o.dst.getLsbD 3) (!o.src.extX) (!o.src.extB) false false false false true, vexLast false o.vvvv l]
        else [0xC5, vexLast (!o.dst.getLsbD 3) o.vvvv l])
    ++ (0xE6 :: o.src.bytes (low3 o.dst))

/-- Forms 4 to 6 (rules R84 to R88). -/
def encodeEvex (ll : BitVec 2) (o : EvexOps) : List Byte :=
  o.pre.map prefixByte
    ++ [0x62,
        byteOf (!o.dst.getLsbD 3) (!o.src.rm.extX) (!o.src.rm.extB) (!o.dst.getLsbD 4) false false false true,
        BitVec.ofBool true ++ o.vvvv ++ 5#3,
        BitVec.ofBool o.zeroing ++ ll ++ BitVec.ofBool o.src.bBit ++ BitVec.ofBool o.vHigh ++ o.aaa]
    ++ (0xE6 :: o.src.rm.bytes (low3 o.dst))

/-- The bytes of an instruction, the bits it ignores written 0 (inverted ones 1). -/
def encode : Instr → List Byte
  | .cvttpd2dq o => encodeLegacy o
  | .vcvttpd2dqVex128 o => encodeVex false o
  | .vcvttpd2dqVex256 o => encodeVex true o
  | .vcvttpd2dqEvex128 o => encodeEvex 0 o
  | .vcvttpd2dqEvex256 o => encodeEvex 1 o
  | .vcvttpd2dqEvex512 o => encodeEvex 2 o

/-! ## Length (rule R91) -/

/-- The bytes of a displacement, counted. -/
def Disp.length : Disp → Nat
  | .none => 0
  | .d8 _ => 1
  | .d16 _ => 2
  | .d32 _ => 4

/-- SIB byte and displacement of a memory operand, counted (rules R77, R91). -/
def MemRef.length : MemRef → Nat
  | .base _ d | .addr16 _ d => d.length
  | .sib _ _ _ d => 1 + d.length
  | .sibNoBase _ _ _ => 5
  | .ripRel _ | .disp32 _ => 4
  | .disp16 _ => 2

/-- ModRM and what follows it, counted. -/
def RmSource.length : RmSource → Nat
  | .reg _ => 1
  | .mem m => 1 + m.length

/-- Form 1: the prefixes, the REX byte if any, `0F E6`, ModRM and what follows it. -/
def LegacyOps.length (o : LegacyOps) : Nat :=
  o.pre.length + (if o.rex then 1 else 0) + 2 + o.src.length

/-- Forms 2 and 3: `C5` plus 1 byte plus opcode, or `C4` plus 2 bytes plus opcode. -/
def VexOps.length (o : VexOps) : Nat :=
  o.pre.length + (if o.threeByte then 4 else 3) + o.src.length

/-- Forms 4 to 6: `62` plus 3 bytes plus opcode. -/
def EvexOps.length (o : EvexOps) : Nat :=
  o.pre.length + 5 + o.src.rm.length

/-- `len` of rule R91. -/
def Instr.length : Instr → Nat
  | .cvttpd2dq o => o.length
  | .vcvttpd2dqVex128 o | .vcvttpd2dqVex256 o => o.length
  | .vcvttpd2dqEvex128 o | .vcvttpd2dqEvex256 o | .vcvttpd2dqEvex512 o => o.length

/-- The longest instruction (rule R91). -/
def maxInstrLength : Nat := 15

/-! ## The words of spec/opcode_table.json -/

/-- The `n` low bytes of `w`, most significant first: the table numbers its rows so (rule R92, `match` and `mask` "read big-endian"). -/
def beBytes (w : Nat) : Nat → List Byte
  | 0 => []
  | n + 1 => BitVec.ofNat 8 (w / 256 ^ n) :: beBytes w n

/-- The bytes of a table word, then zeros up to the longest instruction. The legacy row's word starts after its prefixes
(rule R92, `match_bytes_start`), so the mandatory `66` of the row's `prefix` key is put before it (notes/assumptions/23.md). -/
def tableBytes (nbits w : Nat) : List Byte :=
  let row := beBytes w (nbits / 8)
  let all := (match row with
    | 0x0F#8 :: _ => 0x66 :: row
    | _ => row) ++ List.replicate maxInstrLength 0
  all.take maxInstrLength

/-- What the decoder reads from a table word in 64-bit mode, the primary mode of decision D2. -/
def decodeTableWord (nbits w : Nat) : Option Instr :=
  match decode { mode := .long64, sae512 := true } (tableBytes nbits w) with
  | .instr i _ => some i
  | _ => none

end Sys2Proof
end

