-- ==== Sys2Proof/WellFormed.lean ====
section
/-! DEFINITION. Which instruction terms an encoding exists for, in a given mode (spec/30_encoding.md rules R70 to R91).
Reserved field values that raise `#UD` (rule R90) are well-formed: the machine gives them their fault. -/

namespace Sys2Proof

open Config (Mode)

/-- A general register number that the base or index fields can name: 0 to 7, or 0 to 15 with an extension bit. -/
def gprOk (ext : Bool) (n : BitVec 4) : Bool := ext || !n.getLsbD 3

/-- A vector register number below 8, 16 or 32 (rules R21, R73, R81, R86). -/
def vregOk (limit : Nat) (n : BitVec 5) : Bool := decide (n.toNat < limit)

/-- A displacement of 32- or 64-bit addressing, present when `mod = 00` cannot leave it out. -/
def dispOk (needed : Bool) : Disp → Bool
  | .none => !needed
  | .d16 _ => false
  | _ => true

/-- A displacement of 16-bit addressing, present when `mod = 00` cannot leave it out. -/
def disp16Ok (needed : Bool) : Disp → Bool
  | .none => !needed
  | .d32 _ => false
  | _ => true

/-- The memory operand has an encoding in this mode and address size (rules R75 to R79); `ext`: the extension bits `X` and `B` exist. -/
def memOk (mode : Mode) (asz : AddrSize) (ext : Bool) : MemRef → Bool
  | .base b d => decide (asz ≠ .a16) && gprOk ext b && decide (low3 b ≠ 4) && dispOk (low3 b == 5#3) d
  | .sib _ index b d => decide (asz ≠ .a16) && gprOk ext index && gprOk ext b && dispOk (low3 b == 5#3) d
  | .sibNoBase _ index _ => decide (asz ≠ .a16) && gprOk ext index
  | .ripRel _ => decide (mode = .long64)
  | .disp32 _ => decide (mode ≠ .long64) && decide (asz ≠ .a16)
  | .addr16 rm d => decide (asz = .a16) && disp16Ok (rm == 6#3) d
  | .disp16 _ => decide (asz = .a16)

/-- The source has an encoding: a register below `limit`, or a memory operand. -/
def srcOk (mode : Mode) (asz : AddrSize) (ext : Bool) (limit : Nat) : RmSource → Bool
  | .reg n => vregOk limit n
  | .mem m => memOk mode asz ext m

/-- REX bytes exist in 64-bit mode only (rule R73). -/
def prefixesOk (mode : Mode) (pre : List LegacyPrefix) : Bool := decide (mode = .long64) || !hasRex pre

/-- Form 1: `66` present, `F2` and `F3` absent; without a REX byte the last prefix is none, and no number above 7 can be named. -/
def legacyOk (mode : Mode) (o : LegacyOps) : Bool :=
  prefixesOk mode o.pre
    && hasPrefix .opSize o.pre && !hasPrefix .repne o.pre && !hasPrefix .rep o.pre
    && (if o.rex then decide (mode = .long64) else (splitRex o.pre).2.isNone)
    && vregOk (if o.rex then 16 else 8) o.dst
    && srcOk mode (addrSizeOf mode o.pre) o.rex (if o.rex then 16 else 8) o.src

/-- Forms 2 and 3: the two-byte escape has no `X` and no `B` (rule R80); outside 64-bit mode the byte after it has bits 7:6 set (rule R83),
and its bit 6 is the top bit of `vvvv`. -/
def vexOk (mode : Mode) (o : VexOps) : Bool :=
  let long := decide (mode = .long64)
  prefixesOk mode o.pre
    && vregOk (if long then 16 else 8) o.dst
    && srcOk mode (addrSizeOf mode o.pre) (long && o.threeByte) (if long && o.threeByte then 16 else 8) o.src
    && (long || o.threeByte || o.vvvv.getLsbD 3)

/-- Forms 4 to 6; in a 16- or 32-bit protected mode the stored `V̄'` must be 1 (rule R86, U6). -/
def evexOk (mode : Mode) (o : EvexOps) : Bool :=
  let long := decide (mode = .long64)
  prefixesOk mode o.pre
    && vregOk (if long then 32 else 8) o.dst
    && srcOk mode (addrSizeOf mode o.pre) long (if long then 32 else 8) o.src.rm
    && (o.vHigh || !(decide (mode = .prot32) || decide (mode = .prot16)))

/-- `{sae}` is form 6's alone (rules R87, R151). -/
def noSae (o : EvexOps) : Bool :=
  match o.src with
  | .sae _ => false
  | _ => true

/-- The instruction has an encoding in this mode. -/
def wellFormed (mode : Mode) : Instr → Bool
  | .cvttpd2dq o => legacyOk mode o
  | .vcvttpd2dqVex128 o | .vcvttpd2dqVex256 o => vexOk mode o
  | .vcvttpd2dqEvex128 o | .vcvttpd2dqEvex256 o => evexOk mode o && noSae o
  | .vcvttpd2dqEvex512 o => evexOk mode o

end Sys2Proof
end

