-- ==== Sys2Proof/Machine/State.lean ====
section
/-! DEFINITION. The machine's state (spec/10_state.md), the exceptions of spec/60_exceptions.md rule R170, and the reset state (rule R35). -/

namespace Sys2Proof.Machine

open Config (Implementation)

/-- A segment register with the part of its descriptor that rules R29, R54 and R173 read.
`long` and `big` are the code segment's size bits, read of CS only (rule R201; notes/assumptions/8.md). -/
structure SegReg where
  selector : BitVec 16
  base : Word64
  limit : BitVec 32
  readable : Bool
  null : Bool
  long : Bool
  big : Bool
deriving DecidableEq, Repr

/-- The x87/MMX state that rules R26 and R33 name; the MMX registers are the low 64 bits of `regs`. No instruction in scope reads or writes it. -/
structure X87 where
  control : BitVec 16
  status : BitVec 16
  tag : BitVec 16
  regs : Vector (BitVec 80) 8
deriving DecidableEq, Repr

/-- What the parameter `translate` of rules R5 and R54 does with one linear page of 4096 bytes (notes/assumptions/5.md). -/
inductive PageEntry where
  /-- No translation: an access raises `#PF` with `P = 0`. -/
  | notPresent
  /-- Translated to the physical page `frame`; with `user` false an access at CPL 3 raises `#PF` with `P = 1`. -/
  | mapped (frame : Nat) (user : Bool)
deriving DecidableEq, Repr

/-- The state of the one logical processor and its memory. -/
structure State where
  /-- The MODEL's own: the implementation parameters of rule R5; no step changes them. -/
  impl : Implementation
  /-- The vector register file, rules R20 and R21. -/
  zmm : Vector VWord 32
  /-- The opmask registers, rule R23. -/
  kreg : Vector Word64 8
  /-- SIMD control and status, rule R24. -/
  mxcsr : BitVec 32
  /-- The general registers, rule R27. -/
  gpr : Vector Word64 16
  /-- The instruction pointer, rule R28. -/
  rip : Word64
  /-- EFLAGS/RFLAGS, rules R26 and R30. -/
  rflags : Word64
  /-- The segment registers, rule R29. -/
  es : SegReg
  cs : SegReg
  ss : SegReg
  ds : SegReg
  fs : SegReg
  gs : SegReg
  /-- Control registers, rule R30; CR2 takes the address of a page fault, rule R170. -/
  cr0 : Word64
  cr2 : Word64
  cr4 : Word64
  xcr0 : Word64
  /-- The register of the bit `EFER.LME` that rule R201 names. -/
  efer : Word64
  /-- The x87/MMX state, rules R26 and R33. -/
  x87 : X87
  /-- Memory (rule R32): address and byte, addresses strictly rising, no entry equal to what an unlisted address reads as. -/
  mem : List Host.Cell
  /-- The MODEL's own form of `translate`: linear pages and their entries, page numbers strictly rising. -/
  pages : List (Nat × PageEntry)
  /-- Physical pages that hold device registers (rules R54, R58). -/
  devicePages : List Nat
  /-- The MODEL's own: how many draws of `Config.xmFlagsDraw` were taken. -/
  draws : Nat
deriving DecidableEq, Repr

/-- What an address that memory does not list reads as. DESIGN CHOICE: zero (notes/assumptions/7.md). -/
def unlistedByte : Byte := 0

/-- The exceptions of rule R170, with what each records.
Each is raised by `takeException`, for every form, on the conditions of rules R173 to R175; none is safe or unsafe by itself: it is
the spec's own outcome of the execution. -/
inductive Exception where
  /-- `#UD`, vector 6: reserved field values, a missing feature or enabling bit, an unmasked condition without `OSXMMEXCPT`. -/
  | invalidOpcode
  /-- `#NM`, vector 7: `CR0.TS = 1`. -/
  | deviceNotAvailable
  /-- `#SS(0)`, vector 12: a memory operand through SS that is non-canonical or outside the limit. -/
  | stackSegment
  /-- `#GP(0)`, vector 13: the same through another segment, a misaligned operand of form 1, a length above 15, a fetch outside CS. -/
  | generalProtection
  /-- `#PF(code)`, vector 14: no translation of a byte of the operand or of the instruction; `address` goes to CR2. -/
  | pageFault (code : BitVec 32) (address : Word64)
  /-- `#AC(0)`, vector 17: a misaligned `m64bcst` operand under alignment checking. -/
  | alignmentCheck
  /-- `#XM`, vector 19: an unmasked Invalid or Precision. -/
  | simdFloatingPoint
deriving DecidableEq, Repr

/-- How a step ends in an exception: the outcome `Fault(vector, error_code, cr2?)` of rule R178, attached to the state it leaves. -/
inductive Fault where
  /-- Raised by `takeException` alone. Safe: the spec ends the step here, and the state is the one rule R177 gives. -/
  | exception (x : Exception) (after : State)
deriving DecidableEq, Repr

/-- Why a step has no meaning. Every constructor is safe: the model stops where the hardware goes on. -/
inductive Refusal where
  /-- An instruction that has no meaning yet; raised by exec's arms only. Safe. -/
  | notModelled (mnemonic : String)
  /-- Raised by `step`: the bytes are not one of the six forms (rules R4 (a), R90). Safe. -/
  | undecoded (why : DecodeRefusal)
  /-- Raised by `translate`: a byte in a device page (rule R58, decision D29). Safe. -/
  | deviceAccess
  /-- Raised by the EVEX forms: an all-zero mask with a memory operand that is non-canonical or outside its segment
  (rule R56, decision D18). Safe. -/
  | maskedOffAddress
  /-- Raised by the forms whose `VL` exceeds `MAXVL`, a machine the spec does not describe (rule R20; notes/assumptions/3.md). Safe. -/
  | vectorLengthAboveMaxvl
deriving DecidableEq, Repr

/-- What a step answers. -/
abbrev Outcome := Host.Outcome State Fault Refusal

/-- A data or stack segment after reset. PRESUMED: the family's (notes/assumptions/10.md). -/
def SegReg.resetData : SegReg :=
  { selector := 0, base := 0, limit := 0xFFFF, readable := true, null := false, long := false, big := false }

/-- The state after power-up or RESET: the table of rule R35; what it does not give is in notes/assumptions/10.md and 11.md. -/
def State.reset : State where
  impl := Implementation.recommended
  zmm := Vector.replicate 32 0
  kreg := Vector.replicate 8 0
  mxcsr := 0x00001F80
  gpr := (Vector.replicate 16 0).set 2 Config.processorSignature
  rip := 0x0000FFF0
  rflags := 0x00000002
  es := .resetData
  cs := { SegReg.resetData with selector := 0xF000, base := 0xFFFF0000 }
  ss := .resetData
  ds := .resetData
  fs := .resetData
  gs := .resetData
  cr0 := 0x60000010
  cr2 := 0
  cr4 := 0
  xcr0 := 1
  efer := 0
  x87 := { control := 0x0040, status := 0, tag := 0x5555, regs := Vector.replicate 8 0 }
  mem := []
  pages := []
  devicePages := []
  draws := 0

end Sys2Proof.Machine
end

