-- ==== Sys2Proof/Machine/Ops.lean ====
section
/-! DEFINITION. The named operations over memory and registers, the mode, and the taking of an exception. -/

namespace Sys2Proof.Machine

open Config (Mode)

/-! ## Memory (rules R32, R51) -/

/-- The byte at an address. -/
def memRead : List Host.Cell → Nat → Byte
  | [], _ => unlistedByte
  | (a, v) :: rest, addr => if a = addr then v else memRead rest addr

/-- Memory with the byte at an address taken out of the list. -/
def memErase : List Host.Cell → Nat → List Host.Cell
  | [], _ => []
  | (a, v) :: rest, addr => if a = addr then rest else (a, v) :: memErase rest addr

/-- Memory with a byte listed at its place. -/
def memInsert : List Host.Cell → Nat → Byte → List Host.Cell
  | [], addr, b => [(addr, b)]
  | (a, v) :: rest, addr, b =>
    if addr < a then (addr, b) :: (a, v) :: rest
    else if a = addr then (addr, b) :: rest
    else (a, v) :: memInsert rest addr b

/-- Write one byte, keeping the canonical form. -/
def memWrite (m : List Host.Cell) (addr : Nat) (b : Byte) : List Host.Cell :=
  if b = unlistedByte then memErase m addr else memInsert m addr b

/-- The canonical form of memory. -/
abbrev memWf (m : List Host.Cell) : Prop :=
  m.Pairwise (fun a b => a.1 < b.1) ∧ ∀ c ∈ m, c.2 ≠ unlistedByte

/-! ## Registers -/

/-- `ZMM[n]` (rules R8, R20). -/
def State.vreg (s : State) (n : BitVec 5) : VWord := s.zmm[n.toNat]'n.isLt

/-- `ZMM[n] <- v`. -/
def State.setVreg (s : State) (n : BitVec 5) (v : VWord) : State :=
  { s with zmm := s.zmm.set n.toNat v n.isLt }

/-- `K[n]` (rule R23). -/
def State.k (s : State) (n : BitVec 3) : Word64 := s.kreg[n.toNat]'n.isLt

/-- `GPR[n]` (rule R27). -/
def State.reg (s : State) (n : BitVec 4) : Word64 := s.gpr[n.toNat]'n.isLt

/-- A segment register by name (rule R29). -/
def State.seg (s : State) : SegName → SegReg
  | .es => s.es
  | .cs => s.cs
  | .ss => s.ss
  | .ds => s.ds
  | .fs => s.fs
  | .gs => s.gs

/-! ## System bits (rule R30; CR0.PG, CR4.PAE, CR4.LA57, EFER.LME: PRESUMED positions, notes/assumptions/8.md and 9.md) -/

def State.cr0PE (s : State) : Bool := s.cr0.getLsbD 0
def State.cr0EM (s : State) : Bool := s.cr0.getLsbD 2
def State.cr0TS (s : State) : Bool := s.cr0.getLsbD 3
def State.cr0AM (s : State) : Bool := s.cr0.getLsbD 18
def State.cr0PG (s : State) : Bool := s.cr0.getLsbD 31
def State.cr4PAE (s : State) : Bool := s.cr4.getLsbD 5
def State.cr4OSFXSR (s : State) : Bool := s.cr4.getLsbD 9
def State.cr4OSXMMEXCPT (s : State) : Bool := s.cr4.getLsbD 10
def State.cr4LA57 (s : State) : Bool := s.cr4.getLsbD 12
def State.cr4OSXSAVE (s : State) : Bool := s.cr4.getLsbD 18
def State.eferLME (s : State) : Bool := s.efer.getLsbD 8
def State.flagTF (s : State) : Bool := s.rflags.getLsbD 8
def State.flagVM (s : State) : Bool := s.rflags.getLsbD 17
def State.flagAC (s : State) : Bool := s.rflags.getLsbD 18

/-- `XCR0[2:1] = 11b` (rule R30). -/
def State.xcr0Avx (s : State) : Bool := s.xcr0.getLsbD 1 && s.xcr0.getLsbD 2

/-- `XCR0[7:5] = 111b` (rule R30). -/
def State.xcr0Avx512 (s : State) : Bool := s.xcr0.getLsbD 5 && s.xcr0.getLsbD 6 && s.xcr0.getLsbD 7

/-- The parameter `MODE` of rule R5, from the bits that rules R30 and R201 name (notes/assumptions/8.md). -/
def State.mode (s : State) : Mode :=
  if !s.cr0PE then .real
  else if s.flagVM then .v86
  else if s.cr0PG && s.cr4PAE && s.eferLME && s.cs.long then .long64
  else if s.cs.big then .prot32
  else .prot16

/-- Real-address or virtual-8086 mode. -/
def State.realOrV86 (s : State) : Bool := decide (s.mode = .real) || decide (s.mode = .v86)

/-- CPL is 3: CS selector bits 1:0 (rule R30); 0 in real-address mode (rule R200), 3 in virtual-8086 mode (PRESUMED, notes/assumptions/12.md). -/
def State.cplIs3 (s : State) : Bool :=
  match s.mode with
  | .real => false
  | .v86 => true
  | _ => s.cs.selector.extractLsb' 0 2 == 3#2

/-- `AlignCheck` of rule R53 (c). -/
def State.alignCheck (s : State) : Bool := s.cr0AM && s.flagAC && s.cplIs3

/-- What decoding reads of the state. -/
def State.decodeEnv (s : State) : DecodeEnv := { mode := s.mode, sae512 := s.impl.evexBRegIsSae512 }

/-- `RIP <- RIP + len` (rule R28), in the width the mode gives the instruction pointer (notes/assumptions/17.md). -/
def State.advance (s : State) (len : Nat) : State :=
  let next := s.rip + BitVec.ofNat 64 len
  { s with rip := match s.mode with
      | .long64 => next
      | .prot32 => (next.setWidth 32).setWidth 64
      | .prot16 | .real | .v86 => (next.setWidth 16).setWidth 64 }

/-! ## Taking an exception (rules R170, R177, R178) -/

/-- The vector number (rule R170). -/
def Exception.vector : Exception → Nat
  | .invalidOpcode => 6
  | .deviceNotAvailable => 7
  | .stackSegment => 12
  | .generalProtection => 13
  | .pageFault _ _ => 14
  | .alignmentCheck => 17
  | .simdFloatingPoint => 19

/-- The error code, where the exception has one (rule R170). -/
def Exception.errorCode : Exception → Option (BitVec 32)
  | .stackSegment | .generalProtection | .alignmentCheck => some 0
  | .pageFault code _ => some code
  | .invalidOpcode | .deviceNotAvailable | .simdFloatingPoint => none

/-- Take an exception (rules R177, R178): the step ends in `Fault(vector, error_code, cr2?)` attached to the state before the instruction,
RIP naming its first byte; a page fault records its linear address in CR2 (rule R170). Delivery is out of scope (rule R4 (b)). -/
def takeException (x : Exception) (s : State) : Outcome :=
  match x with
  | .pageFault code a => .fault (.exception (.pageFault code a) { s with cr2 := a })
  | x => .fault (.exception x s)

/-- The state a handler finds, and which a return without a repair goes back to: the instruction is executed again from the start
(rule R179). -/
def Fault.resumeState : Fault → State
  | .exception _ s => s

/-! ## INIT (rule R35, last column): an event from outside that no step takes (notes/assumptions/35.md) -/

/-- The bits CD (30) and NW (29) of CR0. -/
def cacheControlBits : Word64 := 0x60000000

/-- The state after INIT: vector, opmask and MXCSR state unchanged, CR0 as after reset with CD and NW kept, the rest as after reset; what
rule R35 does not list (x87 state, memory, the model's own fields) is unchanged. -/
def State.afterInit (s : State) : State :=
  { State.reset with
    impl := s.impl, zmm := s.zmm, kreg := s.kreg, mxcsr := s.mxcsr, x87 := s.x87
    cr0 := (State.reset.cr0 &&& ~~~cacheControlBits) ||| (s.cr0 &&& cacheControlBits)
    mem := s.mem, pages := s.pages, devicePages := s.devicePages, draws := s.draws }

/-! ## Answers of the operations that read operands -/

/-- What reading an operand answers; it changes no state. -/
inductive Answer (α : Type) where
  | ok (a : α)
  | raise (x : Exception)
  | refuse (r : Refusal)
deriving DecidableEq, Repr

/-- Go on with the value, if there is one. -/
def Answer.bind {α β : Type} (a : Answer α) (f : α → Answer β) : Answer β :=
  match a with
  | .ok v => f v
  | .raise x => .raise x
  | .refuse r => .refuse r

/-- The outcome: go on with the value, or take the exception at `s`, or refuse. -/
def Answer.run {α : Type} (a : Answer α) (s : State) (k : α → Outcome) : Outcome :=
  match a with
  | .ok v => k v
  | .raise x => takeException x s
  | .refuse r => .refused r

/-! ## Address translation (rules R50, R54, R58): the parameter `translate` as data, notes/assumptions/5.md -/

/-- What an access is for. -/
inductive Access where
  | data | fetch
deriving DecidableEq, Repr

/-- The entry of a linear page; an unlisted page has none. -/
def pageEntry : List (Nat × PageEntry) → Nat → Option PageEntry
  | [], _ => none
  | (p, e) :: rest, page => if p = page then some e else pageEntry rest page

/-- The canonical form of the page list. -/
abbrev pagesWf (ps : List (Nat × PageEntry)) : Prop := ps.Pairwise (fun a b => a.1 < b.1)

/-- The size of a page. -/
def pageSize : Nat := 4096

/-- The error code of a page fault (rule R170): `P` bit 0, `W/R` bit 1 = 0, `U/S` bit 2, `I/D` bit 4 = 0 for data.
PRESUMED: bit 3 and bits 5 up, which the rule does not give, are 0 (notes/assumptions/36.md). -/
def pageFaultCode (s : State) (kind : Access) (present : Bool) : BitVec 32 :=
  (if present then 1 else 0) ||| (if s.cplIs3 then 4 else 0) |||
    (match kind with
      | .data => 0
      | .fetch => if Config.fetchFaultInstructionBit then 16 else 0)

/-- The physical address of a linear address: identity without paging and on unlisted pages. -/
def translatePage (s : State) (kind : Access) (la : Word64) : Answer Nat :=
  if s.cr0PE && s.cr0PG then
    match pageEntry s.pages (la.toNat / pageSize) with
    | none => .ok la.toNat
    | some .notPresent => .raise (.pageFault (pageFaultCode s kind false) la)
    | some (.mapped frame user) =>
      if s.cplIs3 && !user then .raise (.pageFault (pageFaultCode s kind true) la)
      else .ok (frame * pageSize + la.toNat % pageSize)
  else .ok la.toNat

/-- `translate` of rule R54 on one byte: its physical address, a page fault, or the refusal of a device page (rule R58). -/
def translate (s : State) (kind : Access) (la : Word64) : Answer Nat :=
  (translatePage s kind la).bind fun pa =>
    if s.devicePages.contains (pa / pageSize) then .refuse .deviceAccess else .ok pa

/-- One byte at a linear address. -/
def readByte (s : State) (kind : Access) (la : Word64) : Answer Byte :=
  (translate s kind la).bind fun pa => .ok (memRead s.mem pa)

/-- A linear address `i` bytes on, modulo `2^W` (rule R54). -/
def linearAdd (s : State) (la : Word64) (i : Nat) : Word64 :=
  if s.mode = .long64 then la + BitVec.ofNat 64 i
  else ((la + BitVec.ofNat 64 i).setWidth 32).setWidth 64

/-- `n` data bytes from a linear address up, each translated (rules R51, R53 (b)); the first that stops is reported. -/
def readBytes (s : State) (la : Word64) : Nat → Answer (List Byte)
  | 0 => .ok []
  | n + 1 =>
    (readByte s .data la).bind fun b =>
      (readBytes s (linearAdd s la 1) n).bind fun bs => .ok (b :: bs)

/-- Bytes as a little-endian double (rule R51). -/
def leWord : List Byte → Word64
  | [] => 0
  | b :: bs => (leWord bs <<< 8) ||| b.setWidth 64

/-- The bits of a linear address from bit `n - 1` up are equal. -/
def upperBitsEqual (n : Nat) (la : Word64) : Bool := (la.setWidth n).signExtend 64 == la

/-- The canonical form of a linear address (rule R50): bits 63:47 equal, or 63:56 with 5-level paging. -/
def canonical (s : State) (la : Word64) : Bool :=
  if s.cr4LA57 then upperBitsEqual 57 la else upperBitsEqual 48 la

end Sys2Proof.Machine
end

