-- ==== Sys2Proof/Machine/Convert.lean ====
section
/-! DEFINITION. The scalar conversion of spec/40_conversion.md (rules R110 to R116). -/

namespace Sys2Proof.Machine

/-- What `cvt_trunc` returns. -/
structure Conv where
  result : BitVec 32
  invalid : Bool
  inexact : Bool
deriving DecidableEq, Repr

/-- The indefinite integer value (rule R112). -/
def indefinite : BitVec 32 := 0x80000000

/-- Sign, biased exponent and fraction of a double (rule R110). -/
def signOf (b : Word64) : Bool := b.getLsbD 63
def expOf (b : Word64) : Nat := (b.extractLsb' 52 11).toNat
def fracOf (b : Word64) : Nat := (b.extractLsb' 0 52).toNat

/-- The significand of a normal double, `2^52 + f` (rule R110). -/
def significand (b : Word64) : Nat := 2 ^ 52 + fracOf b

/-- The magnitude of `trunc(v)` for a normal double: `(2^52 + f) * 2^(e - 1075)` with its fractional part discarded (rule R111). -/
def truncMag (b : Word64) : Nat :=
  if 1075 ≤ expOf b then significand b * 2 ^ (expOf b - 1075) else significand b / 2 ^ (1075 - expOf b)

/-- `trunc(v) = v` does not hold: some discarded bit is set (rule R113). -/
def truncLost (b : Word64) : Bool :=
  if 1075 ≤ expOf b then false else significand b % 2 ^ (1075 - expOf b) != 0

/-- `trunc(v)` of a normal double, with the sign of `v` (rule R111). -/
def truncInt (b : Word64) : Int := if signOf b then -(truncMag b : Int) else truncMag b

/-- `cvt_trunc` (rule R111); `dazApplies` is the parameter `DAZ_APPLIES` (rule R114). -/
def cvtTrunc (dazApplies daz : Bool) (b : Word64) : Conv :=
  if expOf b = 2047 then { result := indefinite, invalid := true, inexact := false }
  else if expOf b = 0 then
    if fracOf b = 0 then { result := 0, invalid := false, inexact := false }
    else { result := 0, invalid := false, inexact := !(daz && dazApplies) }
  else if truncInt b > 2 ^ 31 - 1 ∨ truncInt b < -2 ^ 31 then { result := indefinite, invalid := true, inexact := false }
  else { result := BitVec.ofInt 32 (truncInt b), invalid := false, inexact := truncLost b }

end Sys2Proof.Machine
end

