-- ==== Sys2Proof/Machine/Flags.lean ====
section
/-! DEFINITION. MXCSR (spec/10_state.md rules R24, R25), the flags an execution sets, and the exception protocol of
spec/40_conversion.md rule R117. -/

namespace Sys2Proof.Machine

/-- Fields of MXCSR (rule R24). -/
def State.mxIE (s : State) : Bool := s.mxcsr.getLsbD 0
def State.mxPE (s : State) : Bool := s.mxcsr.getLsbD 5
def State.mxDAZ (s : State) : Bool := s.mxcsr.getLsbD 6
def State.mxIM (s : State) : Bool := s.mxcsr.getLsbD 7
def State.mxPM (s : State) : Bool := s.mxcsr.getLsbD 12

/-- `MXCSR.IE <- MXCSR.IE or ie ; MXCSR.PE <- MXCSR.PE or pe` (rules R25, R117). -/
def orFlags (m : BitVec 32) (ie pe : Bool) : BitVec 32 :=
  m ||| (if ie then 0x01 else 0) ||| (if pe then 0x20 else 0)

/-- The state with those flags set. -/
def State.setFlags (s : State) (ie pe : Bool) : State := { s with mxcsr := orFlags s.mxcsr ie pe }

/-- One element converted under the state's `DAZ` (rule R117). -/
def State.convert (s : State) (b : Word64) : Conv := cvtTrunc s.impl.dazApplies s.mxDAZ b

/-- The conversions of the enabled elements; a disabled one is `none` (rule R117). -/
def State.convertAll (s : State) (elems : List (Option Word64)) : List (Option Conv) :=
  elems.map fun e => e.map s.convert

/-- `INV` of rule R117. -/
def anyInvalid (cs : List (Option Conv)) : Bool := cs.any fun c => (c.map Conv.invalid).getD false

/-- `INX` of rule R117. -/
def anyInexact (cs : List (Option Conv)) : Bool := cs.any fun c => (c.map Conv.inexact).getD false

/-- The flag values `(ie_set, pe_set)` of a fault that rule R117 recommends. -/
def xmFlagsRecommended (inv im : Bool) : Bool × Bool :=
  if inv && !im then (true, false) else (inv, true)

/-- `XM_FLAGS` (rule R117): the draw, cut to `ie_set` implies `INV` and `pe_set` implies `INX`; where that leaves no unmasked detected
condition with its flag set, the recommended values. -/
def xmFlagsBounded (draw : Bool × Bool) (inv inx im pm : Bool) : Bool × Bool :=
  let ie := inv && draw.1
  let pe := inx && draw.2
  if (ie && !im) || (pe && !pm) then (ie, pe) else xmFlagsRecommended inv im

/-- `XM_FLAGS` as this machine draws it. -/
def State.xmFlags (s : State) (inv inx : Bool) : Bool × Bool :=
  xmFlagsBounded (Config.xmFlagsDraw s.draws inv inx s.mxIM s.mxPM) inv inx s.mxIM s.mxPM

/-- The state that an unmasked condition leaves: the drawn flags set, one draw taken (rule R117). -/
def State.afterUnmasked (s : State) (inv inx : Bool) : State :=
  { s.setFlags (s.xmFlags inv inx).1 (s.xmFlags inv inx).2 with draws := s.draws + 1 }

/-- The report of an unmasked condition (rules R117, R175): `#XM`, or `#UD` when `CR4.OSXMMEXCPT = 0`. -/
def raiseSimd (s : State) (inv inx : Bool) : Outcome :=
  takeException (if s.cr4OSXMMEXCPT then .simdFloatingPoint else .invalidOpcode) (s.afterUnmasked inv inx)

/-- Some detected condition is unmasked (rule R117). -/
def State.unmasked (s : State) (inv inx : Bool) : Bool := (inv && !s.mxIM) || (inx && !s.mxPM)

/-- The exception protocol of one execution (rule R117; `{sae}`: rule R118). `write` is the form's "write the destination" step. -/
def retire (len : Nat) (sae : Bool) (write : List (Option (BitVec 32)) → State → State)
    (elems : List (Option Word64)) (s : State) : Outcome :=
  let cs := s.convertAll elems
  let rs := cs.map fun c => c.map Conv.result
  let inv := anyInvalid cs
  let inx := anyInexact cs
  if sae then .next ((write rs s).advance len)
  else if s.unmasked inv inx then raiseSimd s inv inx
  else .next ((write rs (s.setFlags inv inx)).advance len)

end Sys2Proof.Machine
end

