-- ==== Sys2Proof/Machine/Operands.lean ====
section
/-! DEFINITION. Every operand form: effective addresses (spec/30_encoding.md rules R75 to R79, R89), linear addresses and their checks
(spec/20_memory.md rules R50 to R56, R64), source elements, and the destination values of spec/41 to 43. -/

namespace Sys2Proof.Machine

/-! ## Effective address -/

/-- A displacement sign-extended (rule R77); a `d8` is multiplied by the form's `N` (rule R89; 1 for forms 1 to 3). -/
def Disp.value (n : Nat) : Disp → Word64
  | .none => 0
  | .d8 v => v.signExtend 64 * BitVec.ofNat 64 n
  | .d16 v => v.signExtend 64
  | .d32 v => v.signExtend 64

/-- The scaled index of rule R79; number 4 is no index. -/
def State.index (s : State) (scale : BitVec 2) (i : BitVec 4) : Word64 :=
  if i = 4 then 0 else s.reg i <<< scale.toNat

/-- Base plus index of the 16-bit forms (rule R76): BX 3, BP 5, SI 6, DI 7. -/
def State.base16 (s : State) (rm : BitVec 3) : Word64 :=
  match rm with
  | 0 => s.reg 3 + s.reg 6
  | 1 => s.reg 3 + s.reg 7
  | 2 => s.reg 5 + s.reg 6
  | 3 => s.reg 5 + s.reg 7
  | 4 => s.reg 6
  | 5 => s.reg 7
  | 6 => s.reg 5
  | _ => s.reg 3

/-- The sum of an addressing form before it is cut to the address size; `len` is the instruction's length, for `RIP_next` (rule R78). -/
def State.addressSum (s : State) (len n : Nat) : MemRef → Word64
  | .base b d => s.reg b + Disp.value n d
  | .sib scale i b d => s.reg b + s.index scale i + Disp.value n d
  | .sibNoBase scale i d => s.index scale i + d.signExtend 64
  | .ripRel d => s.rip + BitVec.ofNat 64 len + d.signExtend 64
  | .disp32 d => d.signExtend 64
  | .addr16 rm d => s.base16 rm + Disp.value n d
  | .disp16 d => d.signExtend 64

/-- Cut to the address size and zero-extend (rules R75, R76). -/
def cutAddress (asz : AddrSize) (v : Word64) : Word64 :=
  match asz with
  | .a64 => v
  | .a32 => (v.setWidth 32).setWidth 64
  | .a16 => (v.setWidth 16).setWidth 64

/-- `EA` (rules R75 to R79). -/
def State.effectiveAddress (s : State) (pre : List LegacyPrefix) (len n : Nat) (m : MemRef) : Word64 :=
  cutAddress (addrSizeOf s.mode pre) (s.addressSum len n m)

/-! ## Segments and linear addresses -/

/-- The default segment: SS when the base register is number 4 or 5, or BP in 16-bit addressing, else DS (rules R29, R75, R76, R79). -/
def defaultSegment : MemRef → SegName
  | .base b _ => if b = 4 ∨ b = 5 then .ss else .ds
  | .sib _ _ b _ => if b = 4 ∨ b = 5 then .ss else .ds
  | .addr16 rm _ => if rm = 2 ∨ rm = 3 ∨ rm = 6 then .ss else .ds
  | .sibNoBase _ _ _ | .ripRel _ | .disp32 _ | .disp16 _ => .ds

/-- The override that counts: the last one, and in 64-bit mode the last of FS and GS (rule R72; notes/assumptions/13.md). -/
def segmentOverride (long : Bool) : List LegacyPrefix → Option SegName
  | [] => none
  | p :: rest =>
    match segmentOverride long rest with
    | some r => some r
    | none =>
      match p with
      | .segment .fs => some .fs
      | .segment .gs => some .gs
      | .segment r => if long then none else some r
      | _ => none

/-- The segment of a memory operand (rule R29). -/
def State.operandSegment (s : State) (pre : List LegacyPrefix) (m : MemRef) : SegName :=
  (segmentOverride (decide (s.mode = .long64)) pre).getD (defaultSegment m)

/-- The base a segment contributes: in 64-bit mode FS and GS only (rules R29, R54). -/
def State.segBase (s : State) (r : SegName) : Word64 :=
  if s.mode = .long64 then
    match r with
    | .fs => s.fs.base
    | .gs => s.gs.base
    | _ => 0
  else (s.seg r).base

/-- `LA` (rule R54). -/
def State.linear (s : State) (r : SegName) (ea : Word64) : Word64 := linearAdd s (s.segBase r + ea) 0

/-- The byte at offset `i` of the operand passes the canonical or limit check of rules R54 and R173. -/
def State.byteOk (s : State) (r : SegName) (ea : Word64) (i : Nat) : Bool :=
  match s.mode with
  | .long64 => canonical s (linearAdd s (s.linear r ea) i)
  | .real | .v86 => decide (ea.toNat + i ≤ 0xFFFF)
  | .prot32 | .prot16 =>
    decide (ea.toNat + i ≤ (s.seg r).limit.toNat) && (s.seg r).readable && !(s.seg r).null

/-- The exception of a failed check: `#SS(0)` through SS, else `#GP(0)`; in real-address and virtual-8086 mode always `#GP(0)` (rule R173).
DEDUCED: `#SS(0)` also for a null SS (notes/assumptions/39.md). -/
def State.addressFault (s : State) (r : SegName) : Exception :=
  if r = .ss ∧ s.realOrV86 = false then .stackSegment else .generalProtection

/-! ## Source elements -/

/-- One element at a linear address: 8 bytes, little-endian (rule R51). -/
def readQuad (s : State) (la : Word64) : Answer Word64 := (readBytes s la 8).bind fun bs => .ok (leWord bs)

/-- The enabled elements of a full-width memory operand, in order; the bytes of a disabled one are not accessed (rules R52, R56).
DESIGN CHOICE: so they may lie in a device page, and rule R58 does not refuse the operand for them (notes/assumptions/6.md). -/
def readElements (s : State) (la : Word64) : List Bool → Answer (List (Option Word64))
  | [] => .ok []
  | true :: mask =>
    (readQuad s la).bind fun v => (readElements s (linearAdd s la 8) mask).bind fun vs => .ok (some v :: vs)
  | false :: mask => (readElements s (linearAdd s la 8) mask).bind fun vs => .ok (none :: vs)

/-- Every byte of every enabled element passes the check (rule R174, "on bytes of an enabled element"); `j` counts elements. -/
def State.elementsOk (s : State) (r : SegName) (ea : Word64) : Nat → List Bool → Bool
  | _, [] => true
  | j, e :: mask => (!e || (List.range 8).all fun i => s.byteOk r ea (8 * j + i)) && s.elementsOk r ea (j + 1) mask

/-- The elements of a register source (rules R130, R140, R141, R150). -/
def registerElements (v : VWord) (mask : List Bool) : List (Option Word64) :=
  mask.mapIdx fun j e => if e then some (v.extractLsb' (64 * j) 64) else none

/-- A full-width memory operand (rules R54, R56, R64): address check, alignment of form 1, read.
With no element enabled nothing is read; a bad address is then refused (rule R56). -/
def State.vectorOperand (s : State) (pre : List LegacyPrefix) (len n : Nat) (aligned : Bool) (m : MemRef) (mask : List Bool) :
    Answer (List (Option Word64)) :=
  let r := s.operandSegment pre m
  let ea := s.effectiveAddress pre len n m
  if mask.any id then
    if !s.elementsOk r ea 0 mask then .raise (s.addressFault r)
    else if aligned && (s.linear r ea).toNat % 16 != 0 then .raise .generalProtection
    else readElements s (s.linear r ea) mask
  else if s.elementsOk r ea 0 (mask.map fun _ => true) then .ok (mask.map fun _ => none)
  else .refuse .maskedOffAddress

/-- The broadcast operand `m64bcst` (rules R53 (c), R55, R56, R64): one read of 8 bytes if some element is enabled, then the alignment check. -/
def State.broadcastOperand (s : State) (pre : List LegacyPrefix) (len : Nat) (m : MemRef) (mask : List Bool) :
    Answer (List (Option Word64)) :=
  let r := s.operandSegment pre m
  let ea := s.effectiveAddress pre len 8 m
  let la := s.linear r ea
  if mask.any id then
    if !s.elementsOk r ea 0 [true] then .raise (s.addressFault r)
    else
      (readQuad s la).bind fun v =>
        if s.alignCheck && la.toNat % 8 != 0 then .raise .alignmentCheck
        else .ok (mask.map fun e => if e then some v else none)
  else if s.elementsOk r ea 0 [true] then .ok (mask.map fun _ => none)
  else .refuse .maskedOffAddress

/-- Operand 2 of a legacy or VEX form, all elements enabled (rules R130, R140, R141). -/
def State.rmElements (s : State) (pre : List LegacyPrefix) (len n : Nat) (aligned : Bool) (mask : List Bool) :
    RmSource → Answer (List (Option Word64))
  | .reg r => .ok (registerElements (s.vreg r) mask)
  | .mem m => s.vectorOperand pre len n aligned m mask

/-- Operand 2 of an EVEX form (rule R150); `n` is the `disp8*N` factor of the full-width operand (rule R89). -/
def State.evexElements (s : State) (pre : List LegacyPrefix) (len n : Nat) (mask : List Bool) :
    EvexSource → Answer (List (Option Word64))
  | .plain src => s.rmElements pre len n false mask src
  | .sae r => .ok (registerElements (s.vreg r) mask)
  | .broadcast m => s.broadcastOperand pre len m mask

/-- `mask_j <- (aaa = 000) or (K[aaa][j] = 1)` for `j = 0 .. KL-1` (rule R150). -/
def State.writemask (s : State) (aaa : BitVec 3) (kl : Nat) : List Bool :=
  (List.range kl).map fun j => decide (aaa = 0) || (s.k aaa).getLsbD j

/-! ## Destination values -/

/-- Doubleword `j` of a vector register. -/
def dword (v : VWord) (j : Nat) : BitVec 32 := v.extractLsb' (32 * j) 32

/-- Doublewords side by side, the first least significant, zeros above. -/
def packDwords : List (BitVec 32) → VWord
  | [] => 0
  | r :: rs => (packDwords rs <<< 32) ||| r.setWidth 512

/-- Form 1 (rule R130): bits 63:0 the results, 127:64 zero, the bits above kept. -/
def destLegacy (old : VWord) (rs : List (Option (BitVec 32))) : VWord :=
  ((old >>> 128) <<< 128) ||| packDwords (rs.map fun r => r.getD 0)

/-- Forms 2 and 3 (rules R140, R141): the results, zeros above. -/
def destVex (rs : List (Option (BitVec 32))) : VWord := packDwords (rs.map fun r => r.getD 0)

/-- Forms 4 to 6 (rule R150): results, merged or zeroed disabled elements, zeros from `VL/2` up. -/
def destEvex (old : VWord) (zeroing : Bool) (rs : List (Option (BitVec 32))) : VWord :=
  packDwords (rs.mapIdx fun j r => r.getD (if zeroing then 0 else dword old j))

/-! ## The order of checks shared by all forms (rules R64, R176) -/

/-- One execution: `#GP(0)` for length, `#UD`, `#NM`, then the memory operand, then the exception protocol (rule R176). -/
def execForm (s : State) (len vl : Nat) (ud sae : Bool) (source : Answer (List (Option Word64)))
    (write : List (Option (BitVec 32)) → State → State) : Outcome :=
  if maxInstrLength < len then takeException .generalProtection s
  else if ud then takeException .invalidOpcode s
  else if s.cr0TS then takeException .deviceNotAvailable s
  else if s.impl.maxvl.bits < vl then .refused .vectorLengthAboveMaxvl
  else source.run s fun elems => retire len sae write elems s

end Sys2Proof.Machine
end

