-- ==== Sys2Proof/Machine/Vex.lean ====
section
/-! DEFINITION. Forms 2 and 3, VEX-encoded `VCVTTPD2DQ` (spec/42_vex.md rules R140, R141). -/

namespace Sys2Proof.Machine

/-- A byte that raises `#UD` before a VEX or EVEX escape: `66`, `F2`, `F3`, `F0` or REX (rules R83, R90). -/
def badEscapePrefix (pre : List LegacyPrefix) : Bool :=
  hasPrefix .opSize pre || hasPrefix .repne pre || hasPrefix .rep pre || hasPrefix .lock pre || hasRex pre

/-- The `#UD` conditions of forms 2 and 3 (rules R83, R172, R173, VEX column, without the `OSXMMEXCPT` row). -/
def State.vexUd (s : State) (o : VexOps) : Bool :=
  s.realOrV86 || !s.cr4OSXSAVE || !s.xcr0Avx || badEscapePrefix o.pre || !s.impl.feat.avx || o.vvvv != 15#4

/-- Rule R140: `KL = 2`. DESIGN CHOICE: also with AVX reported and `MAXVL = 128`, since `VL` fits (notes/assumptions/3.md). -/
def execVcvttpd2dqVex128 (o : VexOps) (s : State) : Outcome :=
  execForm s o.length 128 (s.vexUd o) false
    (s.rmElements o.pre o.length 1 false [true, true] o.src)
    fun rs t => t.setVreg o.dst (destVex rs)

/-- Rule R141: `KL = 4`. -/
def execVcvttpd2dqVex256 (o : VexOps) (s : State) : Outcome :=
  execForm s o.length 256 (s.vexUd o) false
    (s.rmElements o.pre o.length 1 false [true, true, true, true] o.src)
    fun rs t => t.setVreg o.dst (destVex rs)

end Sys2Proof.Machine
end

