-- ==== Sys2Proof/Machine/Evex.lean ====
section
/-! DEFINITION. Forms 4 to 6, EVEX-encoded `VCVTTPD2DQ` (spec/43_evex.md rules R150 to R153). -/

namespace Sys2Proof.Machine

/-- The CPUID expression of forms 4 and 5 (rule R1). -/
def evexFeatVl (f : Config.Features) : Bool := (f.avx512vl && f.avx512f) || f.avx10_1

/-- The CPUID expression of form 6 (rule R1). -/
def evexFeat512 (f : Config.Features) : Bool := f.avx512f || f.avx10_1

/-- The `#UD` conditions of forms 4 to 6 (rules R90, R172, R174, without the `L'L` and `OSXMMEXCPT` rows); `feat` is the form's CPUID expression. -/
def State.evexUd (s : State) (feat : Bool) (o : EvexOps) : Bool :=
  s.realOrV86 || !s.cr4OSXSAVE || !s.xcr0Avx || !s.xcr0Avx512 || badEscapePrefix o.pre || !feat
    || o.vvvv != 15#4 || !o.vHigh || (o.zeroing && o.aaa == 0#3)

/-- The source is a register with `EVEX.b = 1` (rule R118). -/
def EvexSource.isSae : EvexSource → Bool
  | .sae _ => true
  | _ => false

/-- The common semantics of rule R150; the `disp8*N` factor of the full-width operand is `VL/8` (rule R89). -/
def execEvex (vl : Nat) (feat : Bool) (o : EvexOps) (s : State) : Outcome :=
  execForm s o.length vl (s.evexUd feat o) (EvexSource.isSae o.src)
    (s.evexElements o.pre o.length (vl / 8) (s.writemask o.aaa (vl / 64)) o.src)
    fun rs t => t.setVreg o.dst (destEvex (t.vreg o.dst) o.zeroing rs)

/-- Rule R151: `VL = 128`. DESIGN CHOICE: also with `MAXVL` below 512 (notes/assumptions/3.md). -/
def execVcvttpd2dqEvex128 (o : EvexOps) (s : State) : Outcome := execEvex 128 (evexFeatVl s.impl.feat) o s

/-- Rule R152: `VL = 256`. DESIGN CHOICE: also with `MAXVL = 256` (notes/assumptions/3.md). -/
def execVcvttpd2dqEvex256 (o : EvexOps) (s : State) : Outcome := execEvex 256 (evexFeatVl s.impl.feat) o s

/-- Rule R153: `VL = 512`, `{sae}` with a register source and `EVEX.b = 1`. -/
def execVcvttpd2dqEvex512 (o : EvexOps) (s : State) : Outcome := execEvex 512 (evexFeat512 s.impl.feat) o s

end Sys2Proof.Machine
end

