-- ==== Sys2Proof/Machine/Legacy.lean ====
section
/-! DEFINITION. Form 1, `CVTTPD2DQ xmm1, xmm2/m128` (spec/41_legacy_sse.md rule R130). -/

namespace Sys2Proof.Machine

/-- The `#UD` conditions of form 1 (rule R173, legacy column, without the `OSXMMEXCPT` row). -/
def State.legacyUd (s : State) (o : LegacyOps) : Bool :=
  s.cr0EM || !s.cr4OSFXSR || hasPrefix .lock o.pre || !s.impl.feat.sse2

/-- Rule R130: `KL = 2`, the memory operand 16-byte aligned. -/
def execCvttpd2dq (o : LegacyOps) (s : State) : Outcome :=
  execForm s o.length 128 (s.legacyUd o) false
    (s.rmElements o.pre o.length 1 true [true, true] o.src)
    fun rs t => t.setVreg o.dst (destLegacy (t.vreg o.dst) rs)

end Sys2Proof.Machine
end

