-- ==== Sys2Proof/Machine/Dispatch.lean ====
section
/-! DEFINITION. One arm per constructor of Instr. -/

namespace Sys2Proof.Machine

def exec (i : Instr) (s : State) : Host.Outcome State Fault Refusal :=
  match i with
  | .cvttpd2dq o => Sys2Proof.Machine.execCvttpd2dq o s
  | .vcvttpd2dqVex128 o => Sys2Proof.Machine.execVcvttpd2dqVex128 o s
  | .vcvttpd2dqVex256 o => Sys2Proof.Machine.execVcvttpd2dqVex256 o s
  | .vcvttpd2dqEvex128 o => Sys2Proof.Machine.execVcvttpd2dqEvex128 o s
  | .vcvttpd2dqEvex256 o => Sys2Proof.Machine.execVcvttpd2dqEvex256 o s
  | .vcvttpd2dqEvex512 o => Sys2Proof.Machine.execVcvttpd2dqEvex512 o s

end Sys2Proof.Machine
end

