-- ==== Sys2Proof/Machine/Fetch.lean ====
section
/-! DEFINITION. Fetching the bytes of the next instruction (spec/10_state.md rules R28, R32; spec/60_exceptions.md rule R176 (1), (2)). -/

namespace Sys2Proof.Machine

/-- The offset that the instruction pointer holds, in the width of the mode (rule R28). -/
def State.ipOffset (s : State) : Nat :=
  match s.mode with
  | .long64 => s.rip.toNat
  | .prot32 => s.rip.toNat % 2 ^ 32
  | .prot16 | .real | .v86 => s.rip.toNat % 2 ^ 16

/-- The linear address of the `i`-th byte of the instruction; the CS base counts outside 64-bit mode (rule R29). -/
def State.fetchAddress (s : State) (i : Nat) : Word64 :=
  linearAdd s (s.segBase .cs + BitVec.ofNat 64 s.ipOffset) i

/-- The `i`-th byte may be fetched: canonical, or within the CS limit (rules R28, R176 (1)). -/
def State.fetchOk (s : State) (i : Nat) : Bool :=
  match s.mode with
  | .long64 => canonical s (s.fetchAddress i)
  | _ => decide (s.ipOffset + i ≤ s.cs.limit.toNat)

/-- The `i`-th byte of the instruction. -/
def fetchByte (s : State) (i : Nat) : Answer Byte :=
  if s.fetchOk i then readByte s .fetch (s.fetchAddress i) else .raise .generalProtection

/-- The bytes from the `i`-th on, `n` at most, and what happens if the instruction goes on past them: the fault of the byte that could not be
fetched, or `#GP(0)` for a length above 15 (rules R91, R176). -/
def fetchFrom (s : State) (i : Nat) : Nat → List Byte × Outcome
  | 0 => ([], takeException .generalProtection s)
  | n + 1 =>
    match fetchByte s i with
    | .ok b => (b :: (fetchFrom s (i + 1) n).1, (fetchFrom s (i + 1) n).2)
    | .raise x => ([], takeException x s)
    | .refuse r => ([], .refused r)

/-- The fetch of one instruction. -/
def fetch (s : State) : List Byte × Outcome := fetchFrom s 0 maxInstrLength

/-- Memory with a byte at the place the `i`-th byte of the next instruction is fetched from, where there is one. -/
def placeByte (s : State) (i : Nat) (b : Byte) (m : List Host.Cell) : List Host.Cell :=
  match (if s.fetchOk i then translate s .fetch (s.fetchAddress i) else .raise .generalProtection) with
  | .ok pa => memWrite m pa b
  | _ => m

/-- Memory with bytes placed from the `i`-th byte of the next instruction on. -/
def placeBytes (s : State) (m : List Host.Cell) : Nat → List Byte → List Host.Cell
  | _, [] => m
  | i, b :: bs => placeBytes s (placeByte s i b m) (i + 1) bs

end Sys2Proof.Machine
end

