-- ==== Sys2Proof/Machine/Step.lean ====
section
/-! DEFINITION. One step: fetch, decode, run (spec/60_exceptions.md rule R176). -/

namespace Sys2Proof.Machine

/-- What a decoder's answer leads to; `past` is the outcome of an instruction that goes on past the fetched bytes. -/
def runDecoded (s : State) (past : Outcome) : Decoded → Host.Outcome State Fault Refusal
  | .instr i _ => exec i s
  | .undefinedOpcode => takeException .invalidOpcode s
  | .refused why => .refused (.undecoded why)
  | .truncated => past

/-- One step of the machine. -/
def step (s : State) : Host.Outcome State Fault Refusal :=
  runDecoded s (fetch s).2 (decode s.decodeEnv (fetch s).1)

/-- The state with the instruction of a table word stored where the next step fetches (`tableBytes`; notes/assumptions/23.md and 24.md). -/
def State.withFetchWord (s : State) (nbits w : Nat) : State :=
  { s with mem := placeBytes s s.mem 0 (tableBytes nbits w) }

end Sys2Proof.Machine
end

