-- ==== Sys2Proof/Safety.lean ====
section
/-! DEFINITION. What counts as a safe run: the launch premises of spec/70_reset_and_hazards.md rule R202 and the machine's invariant. -/

namespace Sys2Proof.Machine

/-- `Enabled(form 1)` of rule R202: the rows of rule R201 that form 1 needs, with `CR0.TS = 0`, and its CPUID flag. -/
def State.legacyEnabled (s : State) : Bool :=
  !s.cr0EM && s.cr4OSFXSR && !s.cr0TS && s.impl.feat.sse2

/-- `Enabled(forms 2, 3)`. -/
def State.vexEnabled (s : State) : Bool :=
  !s.realOrV86 && s.cr4OSXSAVE && s.xcr0Avx && !s.cr0TS && s.impl.feat.avx

/-- `Enabled(forms 4 to 6)`; `feat` is the form's CPUID expression. -/
def State.evexEnabled (s : State) (feat : Bool) : Bool :=
  !s.realOrV86 && s.cr4OSXSAVE && s.xcr0Avx && s.xcr0Avx512 && !s.cr0TS && feat

/-- `NoDebug`, the half of it that State can express: `RFLAGS.TF = 0` (rules R184, R202; notes/assumptions/25.md). -/
def State.noDebug (s : State) : Bool := !s.flagTF

/-- `NoAlignCheck` (rule R202). -/
def State.noAlignCheck (s : State) : Bool := !s.alignCheck

/-- `OperandMapped(LA, n)` (rule R202): the `n` bytes at `LA` can be read. -/
def State.operandMapped (s : State) (la : Word64) (n : Nat) : Prop := ∃ bs, readBytes s la n = .ok bs

/-- `CodeAt(base, bytes)` (rule R202): with RIP at `base` the fetch finds the program's bytes, however many, in order.
That they are not modified is a fact of every step (rule R62). -/
def State.codeAt (s : State) (base : Word64) (bytes : List Byte) : Prop :=
  ∀ (i : Nat) (h : i < bytes.length), fetchByte { s with rip := base } i = .ok bytes[i]

/-- The vector registers that the implementation has hold nothing from bit `MAXVL` up (rule R20; notes/assumptions/3.md). -/
def State.vectorsFit (s : State) : Prop := ∀ n : BitVec 5, s.vreg n >>> s.impl.maxvl.bits = 0

/-- Registers 16 to 31 exist only with AVX512F or AVX10.1 (rule R21); where they do not, they hold zero. -/
def State.highVectorsZero (s : State) : Prop :=
  (s.impl.feat.avx512f || s.impl.feat.avx10_1) = false → ∀ n : BitVec 5, 16 ≤ n.toNat → s.vreg n = 0

/-- MXCSR bits 31:16 are reserved and read as 0 (rule R24). -/
def State.mxcsrReservedZero (s : State) : Prop := s.mxcsr.extractLsb' 16 16 = 0

/-- The machine's invariant. -/
structure State.Inv (s : State) : Prop where
  mem : memWf s.mem
  pages : pagesWf s.pages
  vectors : s.vectorsFit
  highVectors : s.highVectorsZero
  mxcsr : s.mxcsrReservedZero

/-! ## One view of the six forms, in which a claim about every form is stated -/

/-- Operand 1 (rule R96). -/
def Instr.destination : Instr → BitVec 5
  | .cvttpd2dq o => o.dst
  | .vcvttpd2dqVex128 o | .vcvttpd2dqVex256 o => o.dst
  | .vcvttpd2dqEvex128 o | .vcvttpd2dqEvex256 o | .vcvttpd2dqEvex512 o => o.dst

/-- `VL` (rules R9, R130, R140, R141, R150). -/
def Instr.vl : Instr → Nat
  | .cvttpd2dq _ | .vcvttpd2dqVex128 _ | .vcvttpd2dqEvex128 _ => 128
  | .vcvttpd2dqVex256 _ | .vcvttpd2dqEvex256 _ => 256
  | .vcvttpd2dqEvex512 _ => 512

/-- `{sae}` (rule R118). -/
def Instr.suppressed : Instr → Bool
  | .cvttpd2dq _ | .vcvttpd2dqVex128 _ | .vcvttpd2dqVex256 _ => false
  | .vcvttpd2dqEvex128 o | .vcvttpd2dqEvex256 o | .vcvttpd2dqEvex512 o => EvexSource.isSae o.src

/-- The `#UD` conditions of an instruction, without the `OSXMMEXCPT` row (rule R176 (3)). -/
def State.undefinedFor (s : State) : Instr → Bool
  | .cvttpd2dq o => s.legacyUd o
  | .vcvttpd2dqVex128 o | .vcvttpd2dqVex256 o => s.vexUd o
  | .vcvttpd2dqEvex128 o | .vcvttpd2dqEvex256 o => s.evexUd (evexFeatVl s.impl.feat) o
  | .vcvttpd2dqEvex512 o => s.evexUd (evexFeat512 s.impl.feat) o

/-- The full-width memory operand, if the instruction has one: its prefix bytes, its `disp8*N` factor (rule R89) and its reference. -/
def Instr.fullOperand : Instr → Option (List LegacyPrefix × Nat × MemRef)
  | .cvttpd2dq { pre, src := .mem m, .. } => some (pre, 1, m)
  | .vcvttpd2dqVex128 { pre, src := .mem m, .. } | .vcvttpd2dqVex256 { pre, src := .mem m, .. } => some (pre, 1, m)
  | .vcvttpd2dqEvex128 { pre, src := .plain (.mem m), .. } => some (pre, 16, m)
  | .vcvttpd2dqEvex256 { pre, src := .plain (.mem m), .. } => some (pre, 32, m)
  | .vcvttpd2dqEvex512 { pre, src := .plain (.mem m), .. } => some (pre, 64, m)
  | .cvttpd2dq _ | .vcvttpd2dqVex128 _ | .vcvttpd2dqVex256 _ | .vcvttpd2dqEvex128 _ | .vcvttpd2dqEvex256 _ | .vcvttpd2dqEvex512 _ => none

/-- The broadcast operand `m64bcst`, if the instruction has one: its prefix bytes and its reference; the factor is 8 (rule R89). -/
def Instr.broadcastOperand : Instr → Option (List LegacyPrefix × MemRef)
  | .vcvttpd2dqEvex128 o | .vcvttpd2dqEvex256 o | .vcvttpd2dqEvex512 o =>
    match o.src with
    | .broadcast m => some (o.pre, m)
    | .plain _ | .sae _ => none
  | .cvttpd2dq _ | .vcvttpd2dqVex128 _ | .vcvttpd2dqVex256 _ => none

/-- Which elements are enabled (rule R117). -/
def State.enabledElements (s : State) : Instr → List Bool
  | .cvttpd2dq _ | .vcvttpd2dqVex128 _ => [true, true]
  | .vcvttpd2dqVex256 _ => [true, true, true, true]
  | .vcvttpd2dqEvex128 o => s.writemask o.aaa 2
  | .vcvttpd2dqEvex256 o => s.writemask o.aaa 4
  | .vcvttpd2dqEvex512 o => s.writemask o.aaa 8

/-- The source elements that an execution converts, or why it can't read them. -/
def State.source (s : State) (i : Instr) : Answer (List (Option Word64)) :=
  match i with
  | .cvttpd2dq o => s.rmElements o.pre o.length 1 true (s.enabledElements i) o.src
  | .vcvttpd2dqVex128 o | .vcvttpd2dqVex256 o => s.rmElements o.pre o.length 1 false (s.enabledElements i) o.src
  | .vcvttpd2dqEvex128 o => s.evexElements o.pre o.length 16 (s.enabledElements i) o.src
  | .vcvttpd2dqEvex256 o => s.evexElements o.pre o.length 32 (s.enabledElements i) o.src
  | .vcvttpd2dqEvex512 o => s.evexElements o.pre o.length 64 (s.enabledElements i) o.src

/-- Nothing stops the execution before its operand is read (rule R176 (2) to (4)). -/
def State.ready (s : State) (i : Instr) : Prop :=
  i.length ≤ maxInstrLength ∧ s.undefinedFor i = false ∧ s.cr0TS = false ∧ Instr.vl i ≤ s.impl.maxvl.bits

/-- Some enabled element is invalid: `INV` of rule R117. -/
def State.someInvalid (s : State) (elems : List (Option Word64)) : Prop :=
  ∃ x, some x ∈ elems ∧ (s.convert x).invalid = true

/-- Some enabled element is inexact: `INX` of rule R117. -/
def State.someInexact (s : State) (elems : List (Option Word64)) : Prop :=
  ∃ x, some x ∈ elems ∧ (s.convert x).inexact = true

/-! ## The exact value of a double (rule R110), for the claims about the conversion -/

/-- `val(b)`: zero, denormal or normal; 0 stands in for the classes that have no value. -/
def valueOf (b : Word64) : ℚ :=
  (if signOf b then -1 else 1) *
    (if expOf b = 2047 then 0
     else if expOf b = 0 then (fracOf b : ℚ) * 2 ^ (-1074 : ℤ)
     else (significand b : ℚ) * 2 ^ ((expOf b : ℤ) - 1075))

/-- `trunc(x)` of rule R111: the fractional part discarded. -/
def truncRat (x : ℚ) : ℤ := if 0 ≤ x then ⌊x⌋ else ⌈x⌉

end Sys2Proof.Machine
end

