-- ==== Sys2Proof/Certificates/Slice0/Obligations.lean ====
section
/-! DEFINITION. The statements for the provers, one per numbered rule or group of rules of spec/. -/

open Sys2Proof Sys2Proof.Machine

/-! ## Encoding (spec/30_encoding.md) -/

/-- Rules R70 to R91: decoding the encoding of a well-formed instruction gives it back, with what follows it, in every mode. -/
def Obligations.DecodeInvertsEncode : Prop :=
  ∀ (env : DecodeEnv) (i : Instr) (rest : List Byte),
    wellFormed env.mode i = true → decode env (encode i ++ rest) = .instr i rest

/-- Rules R70 to R91: a decoded instruction is well-formed, and it took exactly its length from the bytes. -/
def Obligations.DecodedIsWellFormed : Prop :=
  ∀ (env : DecodeEnv) (bs rest : List Byte) (i : Instr), decode env bs = .instr i rest →
    wellFormed env.mode i = true ∧ ∃ head, bs = head ++ rest ∧ head.length = i.length

/-- Rule R71: form 1 with no other prefix byte is `66 0F E6`, ModRM, and what ModRM demands; with REX it is `66 REX 0F E6`, ModRM, and so on. -/
def Obligations.LegacyByteLayout : Prop :=
  (∀ (env : DecodeEnv) (bs rest : List Byte) (i : Instr), decode env (0x66 :: 0x0F :: 0xE6 :: bs) = .instr i rest →
      ∃ o, i = .cvttpd2dq o ∧ o.pre = [.opSize] ∧ o.rex = false) ∧
    ∀ (dst : BitVec 5) (src : RmSource),
      ∃ modrm tail, (modrmIsReg modrm = true ↔ ∃ n, src = .reg n) ∧ tail.length + 1 = src.length ∧
        encode (.cvttpd2dq { pre := [.opSize], rex := false, dst, src }) = 0x66 :: 0x0F :: 0xE6 :: modrm :: tail ∧
        ∃ rex : Byte, rex.extractLsb' 4 4 = 4 ∧
          encode (.cvttpd2dq { pre := [.opSize], rex := true, dst, src }) = 0x66 :: rex :: 0x0F :: 0xE6 :: modrm :: tail

/-- Words written out from the spec's encodings (spec/95_test_vectors.md E1, E6, E9, E14, E16, E20, E22, E28). -/
def Obligations.WrittenWordsDecode : Prop :=
  let env : DecodeEnv := { mode := .long64, sae512 := true }
  decode env [0x66, 0x0F, 0xE6, 0xCA] =
      .instr (.cvttpd2dq { pre := [.opSize], rex := false, dst := 1, src := .reg 2 }) [] ∧
    decode env [0xC5, 0xF9, 0xE6, 0xCA] =
      .instr (.vcvttpd2dqVex128 { pre := [], threeByte := false, vvvv := 15, dst := 1, src := .reg 2 }) [] ∧
    decode env [0xC5, 0xFD, 0xE6, 0xCA] =
      .instr (.vcvttpd2dqVex256 { pre := [], threeByte := false, vvvv := 15, dst := 1, src := .reg 2 }) [] ∧
    decode env [0xC4, 0x01, 0x79, 0xE6, 0x44, 0x91, 0xFC] =
      .instr (.vcvttpd2dqVex128
        { pre := [], threeByte := true, vvvv := 15, dst := 8, src := .mem (.sib 2 10 9 (.d8 0xFC)) }) [] ∧
    decode env [0x62, 0xF1, 0xFD, 0x08, 0xE6, 0xCA] =
      .instr (.vcvttpd2dqEvex128
        { pre := [], vvvv := 15, vHigh := true, dst := 1, aaa := 0, zeroing := false, src := .plain (.reg 2) }) [] ∧
    decode env [0x62, 0xF1, 0xFD, 0x2B, 0xE6, 0xCA] =
      .instr (.vcvttpd2dqEvex256
        { pre := [], vvvv := 15, vHigh := true, dst := 1, aaa := 3, zeroing := false, src := .plain (.reg 2) }) [] ∧
    decode env [0x62, 0xF1, 0xFD, 0x18, 0xE6, 0xCA] =
      .instr (.vcvttpd2dqEvex512
        { pre := [], vvvv := 15, vHigh := true, dst := 1, aaa := 0, zeroing := false, src := .sae 2 }) [] ∧
    decode env [0x62, 0x81, 0xFD, 0x48, 0xE6, 0xCE] =
      .instr (.vcvttpd2dqEvex512
        { pre := [], vvvv := 15, vHigh := true, dst := 17, aaa := 0, zeroing := false, src := .plain (.reg 30) }) []

/-- Rules R73, R82: `VEX.W` and `REX.W` are ignored. -/
def Obligations.WBitsAreIgnored : Prop :=
  (∀ (env : DecodeEnv) (b1 b2 : Byte) (rest : List Byte),
      decode env (0xC4 :: b1 :: b2 :: rest) = decode env (0xC4 :: b1 :: (b2 ^^^ 0x80) :: rest)) ∧
    ∀ (sae512 : Bool) (wrxb : BitVec 4) (rest : List Byte),
      decode { mode := .long64, sae512 } (0x66 :: (4#4 ++ wrxb) :: 0x0F :: 0xE6 :: rest) =
        decode { mode := .long64, sae512 } (0x66 :: (4#4 ++ (wrxb ^^^ 8)) :: 0x0F :: 0xE6 :: rest)

/-- Rule R87: with a register source and `EVEX.b = 1` the bits `L'L` do not select the length and the instruction is form 6 with `{sae}`;
with the parameter `EVEX_B_REG_IS_SAE512` false, `L'L` other than 10 is refused. That this refusal comes before the `#UD` rows of rule R90 is the
model's choice (notes/assumptions/38.md). -/
def Obligations.SaeIgnoresLengthBits : Prop :=
  ∀ (sae512 : Bool) (p0 p2 modrm : Byte) (rest : List Byte),
    p0.extractLsb' 0 4 = 1 → modrm.extractLsb' 6 2 = 3 → p2.getLsbD 4 = true →
    let answer := decode { mode := .long64, sae512 } (0x62 :: p0 :: 0xFD :: p2 :: 0xE6 :: modrm :: rest)
    (sae512 = true ∨ p2.extractLsb' 5 2 = 2 → ∃ o n, answer = .instr (.vcvttpd2dqEvex512 o) rest ∧ o.src = .sae n ∧
      n.toNat = (if p0.getLsbD 6 then 0 else 16) + (if p0.getLsbD 5 then 0 else 8) + (modrm.extractLsb' 0 3).toNat) ∧
    (sae512 = false → p2.extractLsb' 5 2 ≠ 2 → answer = .refused .saeLength)

/-- Rules R85, R90: `L'L = 11` without `mod = 11, b = 1` decodes to no instruction. In every mode, with any prefix bytes and a register, full-width or
broadcast operand: where the bytes with another `L'L` are an instruction, they are an undefined opcode with 11; and a step on an undefined opcode
raises `#UD`. -/
def Obligations.ReservedLengthRaisesUd : Prop :=
  (∀ (env : DecodeEnv) (bs rest : List Byte) (p0 p1 p2 modrm : Byte) (i : Instr), p2.extractLsb' 5 2 = 3 →
      ¬(modrm.extractLsb' 6 2 = 3 ∧ p2.getLsbD 4 = true) →
      decode env (0x62 :: p0 :: p1 :: p2 :: 0xE6 :: modrm :: bs) ≠ .instr i rest) ∧
    (∀ (sae512 : Bool) (p0 p2 modrm : Byte) (bs : List Byte), p0.extractLsb' 0 4 = 1 → p2.extractLsb' 5 2 = 3 →
      p2.getLsbD 4 = false → modrm.extractLsb' 6 2 = 3 →
      decode { mode := .long64, sae512 } (0x62 :: p0 :: 0xFD :: p2 :: 0xE6 :: modrm :: bs) = .undefinedOpcode) ∧
    (∀ (env : DecodeEnv) (pre : List LegacyPrefix) (p0 p1 p2 modrm : Byte) (bs rest : List Byte) (i : Instr),
      prefixesOk env.mode pre = true → ¬(modrm.extractLsb' 6 2 = 3 ∧ p2.getLsbD 4 = true) →
      decode env (pre.map prefixByte ++ 0x62 :: p0 :: p1 :: p2 :: 0xE6 :: modrm :: bs) = .instr i rest →
      decode env (pre.map prefixByte ++ 0x62 :: p0 :: p1 :: (p2 ||| 0x60) :: 0xE6 :: modrm :: bs) = .undefinedOpcode) ∧
    ∀ s : State, decode s.decodeEnv (fetch s).1 = .undefinedOpcode → step s = .fault (.exception .invalidOpcode s)

/-! ## The step -/

/-- A step is exec of the instruction that the fetched bytes decode to: `step` adds nothing around it (rules R28, R176). -/
def Obligations.StepRunsDecodedInstruction : Prop :=
  ∀ (s : State) (i : Instr) (rest : List Byte),
    decode s.decodeEnv (fetch s).1 = .instr i rest → wellFormed s.mode i = true → step s = exec i s

/-- Rules R28, R62, R202: where `CodeAt(base, bytes)` holds, a fetch with RIP at `base` begins with those bytes, fifteen at most; every step keeps the
premise; and it holds of the rest of the program at each address further on (in 16-bit code if the program does not go past offset FFFFH). -/
def Obligations.CodeAtIsFetched : Prop :=
  ∀ (s : State) (base : Word64) (bytes : List Byte), s.codeAt base bytes →
    (s.rip = base → (fetch s).1.take bytes.length = bytes.take 15) ∧
    (∀ t, (step s = .next t ∨ ∃ x, step s = .fault (.exception x t)) → t.codeAt base bytes) ∧
    (s.mode = .long64 ∨ s.mode = .prot32 ∨ base.toNat + bytes.length ≤ 2 ^ 16 →
      ∀ k, s.codeAt (base + BitVec.ofNat 64 k) (bytes.drop k))

/-- Rules R91, R176 (2): an instruction that goes on past fifteen readable bytes raises `#GP(0)`. Where the fifteen bytes hold no opcode yet (prefix
bytes only) that is the model's reading (notes/assumptions/20.md), and so it is where the sixteenth is the ModRM byte of bytes that rule R90 refuses
(notes/assumptions/37.md). -/
def Obligations.OverlongFetchRaisesGp : Prop :=
  ∀ s : State, (∀ i < 15, ∃ b, fetchByte s i = .ok b) → decode s.decodeEnv (fetch s).1 = .truncated →
    step s = .fault (.exception .generalProtection s)

/-- An instruction that goes on past a byte whose fetch faults raises that exception. Rule R176 (1) only ranks such faults; that the bytes are
fetched one by one as needed is the model's choice (notes/assumptions/18.md), and so is that bytes which rule R90 refuses need their ModRM byte
(notes/assumptions/37.md). -/
def Obligations.FetchFaultIsReported : Prop :=
  ∀ (s : State) (k : Nat) (x : Exception), k < 15 → (∀ i < k, ∃ b, fetchByte s i = .ok b) → fetchByte s k = .raise x →
    (fetch s).1.length = k ∧ (decode s.decodeEnv (fetch s).1 = .truncated → step s = takeException x s)

/-! ## Exceptions and their order (spec/60_exceptions.md) -/

/-- Rule R176 (2) to (5): length, then `#UD`, then `#NM`, then what reading the operand raises. -/
def Obligations.ExceptionPriority : Prop :=
  ∀ (i : Instr) (s : State),
    (15 < i.length → exec i s = .fault (.exception .generalProtection s)) ∧
    (i.length ≤ 15 → s.undefinedFor i = true → exec i s = .fault (.exception .invalidOpcode s)) ∧
    (i.length ≤ 15 → s.undefinedFor i = false → s.cr0TS = true → exec i s = .fault (.exception .deviceNotAvailable s)) ∧
    (s.ready i → ∀ x, s.source i = .raise x → exec i s = takeException x s)

/-- Rule R173, legacy column: each condition alone makes form 1 raise `#UD`. -/
def Obligations.LegacyUndefinedConditions : Prop :=
  ∀ (o : LegacyOps) (s : State), o.length ≤ 15 →
    (s.cr0EM = true ∨ s.cr4OSFXSR = false ∨ .lock ∈ o.pre ∨ s.impl.feat.sse2 = false) →
    exec (.cvttpd2dq o) s = .fault (.exception .invalidOpcode s)

/-- Rules R83, R173, VEX column: each condition alone makes forms 2 and 3 raise `#UD`. That a REX byte counts also where another prefix byte follows it
is the model's reading (notes/assumptions/14.md). -/
def Obligations.VexUndefinedConditions : Prop :=
  ∀ (o : VexOps) (s : State), o.length ≤ 15 →
    (s.mode = .real ∨ s.mode = .v86 ∨ s.cr4OSXSAVE = false ∨ s.xcr0Avx = false ∨ s.impl.feat.avx = false ∨
      .opSize ∈ o.pre ∨ .repne ∈ o.pre ∨ .rep ∈ o.pre ∨ .lock ∈ o.pre ∨ ∃ wrxb, .rex wrxb ∈ o.pre) →
    exec (.vcvttpd2dqVex128 o) s = .fault (.exception .invalidOpcode s) ∧
      exec (.vcvttpd2dqVex256 o) s = .fault (.exception .invalidOpcode s)

/-- Rules R90, R174: each condition alone makes forms 4 to 6 raise `#UD`. That a REX byte counts also where another prefix byte follows it is the
model's reading (notes/assumptions/14.md). -/
def Obligations.EvexUndefinedConditions : Prop :=
  ∀ (o : EvexOps) (s : State), o.length ≤ 15 →
    ((s.mode = .real ∨ s.mode = .v86 ∨ s.cr4OSXSAVE = false ∨ s.xcr0Avx = false ∨ s.xcr0Avx512 = false ∨
        .opSize ∈ o.pre ∨ .repne ∈ o.pre ∨ .rep ∈ o.pre ∨ .lock ∈ o.pre ∨ (∃ wrxb, .rex wrxb ∈ o.pre) ∨
        o.vHigh = false ∨ (o.zeroing = true ∧ o.aaa = 0)) →
      exec (.vcvttpd2dqEvex128 o) s = .fault (.exception .invalidOpcode s) ∧
        exec (.vcvttpd2dqEvex256 o) s = .fault (.exception .invalidOpcode s) ∧
        exec (.vcvttpd2dqEvex512 o) s = .fault (.exception .invalidOpcode s)) ∧
    ((s.impl.feat.avx512vl = false ∨ s.impl.feat.avx512f = false) → s.impl.feat.avx10_1 = false →
      exec (.vcvttpd2dqEvex128 o) s = .fault (.exception .invalidOpcode s) ∧
        exec (.vcvttpd2dqEvex256 o) s = .fault (.exception .invalidOpcode s)) ∧
    (s.impl.feat.avx512f = false → s.impl.feat.avx10_1 = false →
      exec (.vcvttpd2dqEvex512 o) s = .fault (.exception .invalidOpcode s))

/-- Rule R172: a stored `vvvv` other than 1111 raises `#UD`, whatever the operands hold. -/
def Obligations.ReservedVvvvRaisesUd : Prop :=
  (∀ (o : VexOps) (s : State), o.vvvv ≠ 15 → o.length ≤ 15 →
      exec (.vcvttpd2dqVex128 o) s = .fault (.exception .invalidOpcode s) ∧
        exec (.vcvttpd2dqVex256 o) s = .fault (.exception .invalidOpcode s)) ∧
    ∀ (o : EvexOps) (s : State), o.vvvv ≠ 15 → o.length ≤ 15 →
      exec (.vcvttpd2dqEvex128 o) s = .fault (.exception .invalidOpcode s) ∧
        exec (.vcvttpd2dqEvex256 o) s = .fault (.exception .invalidOpcode s) ∧
        exec (.vcvttpd2dqEvex512 o) s = .fault (.exception .invalidOpcode s)

/-- Rules R117, R175: an unmasked detected condition raises `#XM`, or `#UD` without `OSXMMEXCPT`; the state left is the one before, but for
flags within the bounds of `XM_FLAGS` and the model's count of draws (notes/assumptions/4.md). -/
def Obligations.UnmaskedConditionFaults : Prop :=
  ∀ (i : Instr) (s : State) (elems : List (Option Word64)), s.ready i → Instr.suppressed i = false → s.source i = .ok elems →
    ((s.someInvalid elems ∧ s.mxIM = false) ∨ (s.someInexact elems ∧ s.mxPM = false)) →
    ∃ ie pe : Bool,
      exec i s = .fault (.exception (if s.cr4OSXMMEXCPT then .simdFloatingPoint else .invalidOpcode)
        { s.setFlags ie pe with draws := s.draws + 1 }) ∧
      (ie = true → s.someInvalid elems) ∧ (pe = true → s.someInexact elems) ∧
      ((ie = true ∧ s.mxIM = false) ∨ (pe = true ∧ s.mxPM = false))

/-- Rule R177: every exception leaves the state before the instruction, but for MXCSR, CR2 and the model's count of draws;
CR2 changes with `#PF` only and then holds its address, MXCSR with a SIMD condition only. -/
def Obligations.FaultsArePrecise : Prop :=
  ∀ (i : Instr) (s t : State) (x : Exception), exec i s = .fault (.exception x t) →
    t = { s with mxcsr := t.mxcsr, cr2 := t.cr2, draws := t.draws } ∧
    ((∃ code, x = .pageFault code t.cr2) ∨ t.cr2 = s.cr2) ∧
    (t.mxcsr ≠ s.mxcsr → x = .simdFloatingPoint ∨ x = .invalidOpcode)

/-! ## Operands (spec/20_memory.md, rules R72 to R79) -/

/-- Rules R130, R140, R141, R150: element `j` of a register source (of any form, plain or with `{sae}`) is its bits `[64j+63 : 64j]`, for the
enabled `j`. -/
def Obligations.RegisterSourceElements : Prop :=
  ∀ (s : State) (pre : List LegacyPrefix) (len n : Nat) (aligned : Bool) (mask : List Bool) (r : BitVec 5),
    ∃ elems, s.rmElements pre len n aligned mask (.reg r) = .ok elems ∧
      s.evexElements pre len n mask (.plain (.reg r)) = .ok elems ∧ s.evexElements pre len n mask (.sae r) = .ok elems ∧
      elems.length = mask.length ∧
      ∀ j < mask.length, elems[j]? = some (if mask[j]? = some true then some ((s.vreg r).extractLsb' (64 * j) 64) else none)

/-- Rules R117, R150: an operand that can be read has `VL/64` elements, present exactly where the writemask enables them. -/
def Obligations.ElementsFollowMask : Prop :=
  ∀ (i : Instr) (s : State) (elems : List (Option Word64)), s.source i = .ok elems →
    elems.length = Instr.vl i / 64 ∧
      ∀ j : Nat, (∃ x, elems[j]? = some (some x)) ↔ (s.enabledElements i)[j]? = some true

/-- Rules R23, R88, R150: with `aaa = 000` every element is enabled, else element `j` is enabled by bit `j` of `K[aaa]`. -/
def Obligations.WritemaskBits : Prop :=
  ∀ (s : State) (aaa : BitVec 3) (kl j : Nat), j < kl →
    (s.writemask aaa kl)[j]? = some (if aaa = 0 then true else (s.k aaa).getLsbD j) ∧ (s.writemask aaa kl).length = kl

/-- Rule R51: the eight bytes from a linear address up, least significant first. How their addresses wrap is the model's reading
(notes/assumptions/15.md). -/
def Obligations.QuadIsLittleEndian : Prop :=
  ∀ (s : State) (r : SegName) (ea : Word64) (b : Nat → Byte),
    (∀ i < 8, readByte s .data (linearAdd s (s.linear r ea) i) = .ok (b i)) →
    ∃ v, readQuad s (s.linear r ea) = .ok v ∧ ∀ i < 8, v.extractLsb' (8 * i) 8 = b i

/-- Rules R52, R54, R56, R64: a full-width memory operand gives element `j` from the eight bytes at `LA + 8j`. Only the bytes of enabled
elements are asked about: the others may be unmapped, outside the segment, or in a device page (the model's choice,
notes/assumptions/6.md). How the addresses wrap is the model's reading (notes/assumptions/15.md). -/
def Obligations.MemoryOperandElements : Prop :=
  ∀ (s : State) (pre : List LegacyPrefix) (len n : Nat) (aligned : Bool) (m : MemRef) (mask : List Bool) (q : Nat → Word64),
    let r := s.operandSegment pre m
    let ea := s.effectiveAddress pre len n m
    let la := s.linear r ea
    true ∈ mask →
    (∀ j, mask[j]? = some true → (∀ i < 8, s.byteOk r ea (8 * j + i) = true) ∧ readQuad s (linearAdd s la (8 * j)) = .ok (q j)) →
    (aligned = true → la.toNat % 16 = 0) →
    s.vectorOperand pre len n aligned m mask = .ok (mask.mapIdx fun j e => if e then some (q j) else none)

/-- Rule R55: forms 4 to 6 with `EVEX.b = 1` and memory read the 8 bytes at `LA` once, and every enabled element is that value. -/
def Obligations.BroadcastReadsOnce : Prop :=
  ∀ (i : Instr) (o : EvexOps) (s : State) (m : MemRef) (elems : List (Option Word64)),
    i ∈ [Instr.vcvttpd2dqEvex128 o, .vcvttpd2dqEvex256 o, .vcvttpd2dqEvex512 o] → o.src = .broadcast m →
    true ∈ s.enabledElements i → s.source i = .ok elems →
    ∃ v, readQuad s (s.linear (s.operandSegment o.pre m) (s.effectiveAddress o.pre o.length 8 m)) = .ok v ∧
      elems = (s.enabledElements i).map fun e => if e then some v else none

/-- Rules R56, R64: with some element enabled, an addressable and readable `m64bcst` operand is read, unless alignment checking objects. -/
def Obligations.BroadcastOperandReads : Prop :=
  ∀ (s : State) (pre : List LegacyPrefix) (len : Nat) (m : MemRef) (mask : List Bool) (v : Word64),
    let r := s.operandSegment pre m
    let ea := s.effectiveAddress pre len 8 m
    true ∈ mask → (∀ i < 8, s.byteOk r ea i = true) → readQuad s (s.linear r ea) = .ok v →
    (s.alignCheck = true → (s.linear r ea).toNat % 8 = 0) →
    s.broadcastOperand pre len m mask = .ok (mask.map fun e => if e then some v else none)

/-- Rule R56: with an all-zero mask an EVEX form reads no memory. It completes, each doubleword below `VL/2` kept or zeroed and the rest
zeroed; where some byte of the operand fails its address check the execution is refused. That an unreadable or null segment counts as such a
failure is the model's reading (notes/assumptions/16.md). That forms 4 and 5 complete with `MAXVL` below 512, and that an operand in a device page
does not matter, is its choice (notes/assumptions/3.md, 6.md). -/
def Obligations.AllMaskedOffReadsNothing : Prop :=
  ∀ (i : Instr) (o : EvexOps) (s : State) (m : MemRef) (size n : Nat),
    (i, size, n) ∈ [(Instr.vcvttpd2dqEvex128 o, 16, 16), (.vcvttpd2dqEvex256 o, 32, 32), (.vcvttpd2dqEvex512 o, 64, 64)] ∧
        o.src = .plain (.mem m) ∨
      (i, size, n) ∈ [(Instr.vcvttpd2dqEvex128 o, 8, 8), (.vcvttpd2dqEvex256 o, 8, 8), (.vcvttpd2dqEvex512 o, 8, 8)] ∧
        o.src = .broadcast m →
    s.ready i → true ∉ s.enabledElements i →
    let r := s.operandSegment o.pre m
    let ea := s.effectiveAddress o.pre o.length n m
    ((∀ k < size, s.byteOk r ea k = true) →
      ∃ v, exec i s = .next ((s.setVreg o.dst v).advance o.length) ∧ v >>> (Instr.vl i / 2) = 0 ∧
        ∀ j < Instr.vl i / 64, dword v j = if o.zeroing then 0 else dword (s.vreg o.dst) j) ∧
    ((∃ k < size, s.byteOk r ea k = false) → exec i s = .refused .maskedOffAddress)

/-- Rule R53 (a): form 1 with a misaligned memory operand raises `#GP(0)`, whatever the alignment-checking bits. That it does so also where the
operand's page would fault is the order of rule R176 (5) taken as ASSUMED (notes/assumptions/19.md). -/
def Obligations.LegacyMisalignedRaisesGp : Prop :=
  ∀ (o : LegacyOps) (s : State) (m : MemRef), o.src = .mem m → s.ready (.cvttpd2dq o) →
    let r := s.operandSegment o.pre m
    let ea := s.effectiveAddress o.pre o.length 1 m
    (∀ k < 16, s.byteOk r ea k = true) → (s.linear r ea).toNat % 16 ≠ 0 →
    exec (.cvttpd2dq o) s = .fault (.exception .generalProtection s)

/-- Rule R53 (c): a misaligned `m64bcst` operand that is read raises `#AC(0)` under alignment checking. -/
def Obligations.BroadcastMisalignedRaisesAc : Prop :=
  ∀ (i : Instr) (o : EvexOps) (s : State) (m : MemRef) (v : Word64),
    i ∈ [Instr.vcvttpd2dqEvex128 o, .vcvttpd2dqEvex256 o, .vcvttpd2dqEvex512 o] → o.src = .broadcast m → s.ready i →
    true ∈ s.enabledElements i → s.alignCheck = true →
    let r := s.operandSegment o.pre m
    let ea := s.effectiveAddress o.pre o.length 8 m
    (∀ k < 8, s.byteOk r ea k = true) → readQuad s (s.linear r ea) = .ok v → (s.linear r ea).toNat % 8 ≠ 0 →
    exec i s = .fault (.exception .alignmentCheck s)

/-- Rules R54, R173, R174: a byte of an enabled element outside the canonical range or the segment raises `#SS(0)` through SS, else `#GP(0)`; a byte
of a broadcast operand does so if some element is enabled. That each byte is checked at its own address is the model's reading
(notes/assumptions/15.md), and that the check comes before alignment and translation is the order of rule R176 (5) taken as ASSUMED
(notes/assumptions/19.md). `#SS(0)` for a null SS is its reading too (notes/assumptions/39.md). -/
def Obligations.BadAddressFaults : Prop :=
  ∀ (i : Instr) (s : State) (pre : List LegacyPrefix) (m : MemRef) (n k : Nat), s.ready i → k < 8 →
    let r := s.operandSegment pre m
    let ea := s.effectiveAddress pre i.length n m
    let answer : Outcome := .fault (.exception
      (if r = .ss ∧ s.mode ≠ .real ∧ s.mode ≠ .v86 then .stackSegment else .generalProtection) s)
    (∀ j, Instr.fullOperand i = some (pre, n, m) → (s.enabledElements i)[j]? = some true → s.byteOk r ea (8 * j + k) = false →
      exec i s = answer) ∧
    (Instr.broadcastOperand i = some (pre, m) → n = 8 → true ∈ s.enabledElements i → s.byteOk r ea k = false → exec i s = answer)

/-- Rule R50: a canonical address has its bits 63:47 equal, or 63:56 with 5-level paging. -/
def Obligations.CanonicalAddressBits : Prop :=
  ∀ (s : State) (la : Word64), canonical s la = true ↔
    ∀ k, (if s.cr4LA57 then 56 else 47) ≤ k → k < 64 → la.getLsbD k = la.getLsbD 63

/-- Rules R54, R173: the address check of byte `i` of an operand. In 64-bit mode its linear address is canonical; in real-address and virtual-8086 mode
its offset is at most FFFFH; in the protected modes it is at most the segment's limit, in a readable segment that is not null. That each byte is
checked at its own address and offsets do not wrap is the model's reading (notes/assumptions/15.md), as are the limit's form, the
bit that selects 5-level paging and the check of a null SS (notes/assumptions/12.md, 9.md, 39.md). -/
def Obligations.OperandByteChecks : Prop :=
  ∀ (s : State) (r : SegName) (ea : Word64) (i : Nat),
    (s.mode = .long64 →
      (s.byteOk r ea i = true ↔ ∀ k, (if s.cr4LA57 then 56 else 47) ≤ k → k < 64 →
        (linearAdd s (s.linear r ea) i).getLsbD k = (linearAdd s (s.linear r ea) i).getLsbD 63)) ∧
    (s.mode = .real ∨ s.mode = .v86 → (s.byteOk r ea i = true ↔ ea.toNat + i ≤ 0xFFFF)) ∧
    (s.mode = .prot32 ∨ s.mode = .prot16 →
      (s.byteOk r ea i = true ↔
        ea.toNat + i ≤ (s.seg r).limit.toNat ∧ (s.seg r).readable = true ∧ (s.seg r).null = false))

/-- Rules R54, R170: a data byte on a not-present page, or read at CPL 3 on a supervisor page, raises `#PF` with the error code's bits as the
rule says; the exception leaves the state with the address in CR2. The page list is the model's form of `translate` (notes/assumptions/5.md). -/
def Obligations.PageFaultRecords : Prop :=
  (∀ (s : State) (la : Word64) (e : PageEntry), s.cr0PE = true → s.cr0PG = true →
      pageEntry s.pages (la.toNat / 4096) = some e →
      (e = .notPresent ∨ ∃ frame, e = .mapped frame false ∧ s.cplIs3 = true) →
      ∃ code : BitVec 32, readByte s .data la = .raise (.pageFault code la) ∧
        (code.getLsbD 0 = true ↔ e ≠ .notPresent) ∧ code.getLsbD 1 = false ∧ code.getLsbD 2 = s.cplIs3 ∧ code.getLsbD 4 = false) ∧
    ∀ (i : Instr) (s : State) (code : BitVec 32) (a : Word64), s.ready i → s.source i = .raise (.pageFault code a) →
      exec i s = .fault (.exception (.pageFault code a) { s with cr2 := a })

/-- Rules R54, R56, R58, R174 (vector F14): the first byte of an enabled element, or of a broadcast operand with some element enabled, that cannot be
read stops the instruction: `#PF` with its address in CR2, or the refusal of a device page. Every byte passes its address check and form 1 is
aligned; nothing is asked of the bytes of disabled elements. That the lowest byte is the one reported is the model's reading (notes/assumptions/30.md);
the page and device lists are the model's form of `translate` (notes/assumptions/5.md, 6.md), the wrap of the addresses its reading
(notes/assumptions/15.md). That `#PF` comes before `#AC` of a misaligned broadcast operand is the order of rule R176 (5) taken as ASSUMED
(notes/assumptions/19.md). -/
def Obligations.UnreadableByteStops : Prop :=
  (∀ (i : Instr) (s : State) (pre : List LegacyPrefix) (m : MemRef) (n k : Nat), s.ready i → k < 8 →
    let r := s.operandSegment pre m
    let ea := s.effectiveAddress pre i.length n m
    let byte (p : Nat) : Answer Byte := readByte s .data (linearAdd s (s.linear r ea) p)
    let fine (p q : Nat) : Prop := s.byteOk r ea p = true ∧ (p < q → ∃ b, byte p = .ok b)
    let stops (q : Nat) : Prop :=
      (∀ code a, byte q = .raise (.pageFault code a) →
        a = linearAdd s (s.linear r ea) q ∧ exec i s = .fault (.exception (.pageFault code a) { s with cr2 := a })) ∧
      (byte q = .refuse .deviceAccess → exec i s = .refused .deviceAccess)
    (∀ j, Instr.fullOperand i = some (pre, n, m) → (s.enabledElements i)[j]? = some true →
      (∀ j', (s.enabledElements i)[j']? = some true → ∀ k' < 8, fine (8 * j' + k') (8 * j + k)) →
      ((∃ o, i = .cvttpd2dq o) → (s.linear r ea).toNat % 16 = 0) → stops (8 * j + k)) ∧
    (Instr.broadcastOperand i = some (pre, m) → n = 8 → true ∈ s.enabledElements i → (∀ k' < 8, fine k' k) → stops k)) ∧
  ∀ (s : State) (la : Word64),
    ((s.cr0PE = false ∨ s.cr0PG = false ∨ pageEntry s.pages (la.toNat / 4096) = none) → la.toNat / 4096 ∈ s.devicePages →
      readByte s .data la = .refuse .deviceAccess) ∧
    ∀ frame user, s.cr0PE = true → s.cr0PG = true → pageEntry s.pages (la.toNat / 4096) = some (.mapped frame user) →
      (s.cplIs3 = true → user = true) → frame ∈ s.devicePages → readByte s .data la = .refuse .deviceAccess

/-- Rules R29, R54: the linear address. In 64-bit mode only FS and GS contribute a base, modulo `2^64`; in the other modes every segment does, modulo
`2^32`. Byte `k` of the operand stands `k` further: that its address wraps in the same width is the model's reading (notes/assumptions/15.md). -/
def Obligations.LinearAddresses : Prop :=
  ∀ (s : State) (r : SegName) (ea : Word64) (k : Nat),
    let la := s.linear r ea
    (s.mode = .long64 →
      la.toNat = ((match r with
        | .fs => s.fs.base.toNat
        | .gs => s.gs.base.toNat
        | .es | .cs | .ss | .ds => 0) + ea.toNat) % 2 ^ 64 ∧
      (linearAdd s la k).toNat = (la.toNat + k) % 2 ^ 64) ∧
    (s.mode ≠ .long64 →
      la.toNat = ((s.seg r).base.toNat + ea.toNat) % 2 ^ 32 ∧ (linearAdd s la k).toNat = (la.toNat + k) % 2 ^ 32)

/-- Rules R75, R77, R78, R79, R89: the effective address of every addressing form in 64-bit mode, 64-bit and 32-bit address size: every displacement
(`d8` scaled by `N`), SIB with an index and with number 4 for none. -/
def Obligations.EffectiveAddressesInLong64 : Prop :=
  ∀ (s : State) (pre : List LegacyPrefix) (len n : Nat), s.mode = .long64 →
    let cut (v : Word64) : Word64 := if .addrSize ∈ pre then (v.setWidth 32).setWidth 64 else v
    let ea := s.effectiveAddress pre len n
    let disp (d : Disp) : Word64 := match d with
      | .none => 0
      | .d8 v => BitVec.ofInt 64 (v.toInt * n)
      | .d16 v => v.signExtend 64
      | .d32 v => v.signExtend 64
    (∀ b d, ea (.base b d) = cut (s.reg b + disp d)) ∧
    (∀ b (i : BitVec 4) (scale : BitVec 2) d, i ≠ 4 →
      ea (.sib scale i b d) = cut (s.reg b + s.reg i * BitVec.ofNat 64 (2 ^ scale.toNat) + disp d)) ∧
    (∀ b (scale : BitVec 2) d, ea (.sib scale 4 b d) = cut (s.reg b + disp d)) ∧
    (∀ (i : BitVec 4) (scale : BitVec 2) (d : BitVec 32), i ≠ 4 →
      ea (.sibNoBase scale i d) = cut (s.reg i * BitVec.ofNat 64 (2 ^ scale.toNat) + d.signExtend 64)) ∧
    (∀ (scale : BitVec 2) (d : BitVec 32), ea (.sibNoBase scale 4 d) = cut (d.signExtend 64)) ∧
    (∀ d : BitVec 32, ea (.ripRel d) = cut (s.rip + BitVec.ofNat 64 len + d.signExtend 64))

/-- Rules R75, R77, R79, R89: 32-bit addressing outside 64-bit mode, every addressing form and displacement, modulo `2^32`: 32-bit mode without `67`,
and 16-bit code with it (the model's reading, notes/assumptions/27.md). -/
def Obligations.ThirtyTwoBitAddresses : Prop :=
  ∀ (s : State) (pre : List LegacyPrefix) (len n : Nat),
    (s.mode = .prot32 ∧ .addrSize ∉ pre) ∨ ((s.mode = .prot16 ∨ s.mode = .real ∨ s.mode = .v86) ∧ .addrSize ∈ pre) →
    let ea (m : MemRef) : Int := (s.effectiveAddress pre len n m).toNat
    let g (k : BitVec 4) : Int := (s.reg k).toNat
    let disp (d : Disp) : Int := match d with
      | .none => 0
      | .d8 v => v.toInt * n
      | .d16 v => v.toInt
      | .d32 v => v.toInt
    (∀ b d, ea (.base b d) = (g b + disp d) % 2 ^ 32) ∧
    (∀ b (i : BitVec 4) (scale : BitVec 2) d, i ≠ 4 → ea (.sib scale i b d) = (g b + g i * 2 ^ scale.toNat + disp d) % 2 ^ 32) ∧
    (∀ b (scale : BitVec 2) d, ea (.sib scale 4 b d) = (g b + disp d) % 2 ^ 32) ∧
    (∀ (i : BitVec 4) (scale : BitVec 2) (d : BitVec 32), i ≠ 4 →
      ea (.sibNoBase scale i d) = (g i * 2 ^ scale.toNat + d.toInt) % 2 ^ 32) ∧
    (∀ (scale : BitVec 2) (d : BitVec 32), ea (.sibNoBase scale 4 d) = d.toNat) ∧
    (∀ d : BitVec 32, ea (.disp32 d) = d.toNat)

/-- Rules R76, R77, R89: 16-bit addressing, in a 32-bit mode with a `67` prefix and in 16-bit code without one: the eight rows of the table with every
displacement (`d8` scaled by `N` in the EVEX forms), and `disp16` alone, modulo `2^16`. -/
def Obligations.SixteenBitAddresses : Prop :=
  ∀ (s : State) (pre : List LegacyPrefix) (len n : Nat),
    (s.mode = .prot32 ∧ .addrSize ∈ pre) ∨ ((s.mode = .prot16 ∨ s.mode = .real ∨ s.mode = .v86) ∧ .addrSize ∉ pre) →
    let ea (m : MemRef) : Int := (s.effectiveAddress pre len n m).toNat
    let g (k : BitVec 4) : Int := (s.reg k).toNat
    let row (rm : BitVec 3) (sum : Int) : Prop :=
      ea (.addr16 rm .none) = sum % 2 ^ 16 ∧
      (∀ d : BitVec 8, ea (.addr16 rm (.d8 d)) = (sum + d.toInt * n) % 2 ^ 16) ∧
      (∀ d : BitVec 16, ea (.addr16 rm (.d16 d)) = (sum + d.toInt) % 2 ^ 16)
    row 0 (g 3 + g 6) ∧ row 1 (g 3 + g 7) ∧ row 2 (g 5 + g 6) ∧ row 3 (g 5 + g 7) ∧ row 4 (g 6) ∧ row 5 (g 7) ∧ row 6 (g 5) ∧
    row 7 (g 3) ∧ ∀ d : BitVec 16, ea (.disp16 d) = d.toNat

/-- Rules R29, R72, R75, R76, R79: the segment of a memory operand. The last override wins; in 64-bit mode the ES, CS, SS and DS overrides do not count
(the reading of notes/assumptions/13.md for mixed ones). Without one that counts: SS for the base registers number 4 and 5 and for the rows with BP of
16-bit addressing, else DS. -/
def Obligations.LastSegmentOverrideWins : Prop :=
  ∀ (s : State) (before after : List LegacyPrefix) (r : SegName),
    (s.mode ≠ .long64 → (∀ q, .segment q ∉ after) → ∀ m, s.operandSegment (before ++ .segment r :: after) m = r) ∧
    (s.mode = .long64 → .segment .fs ∉ after → .segment .gs ∉ after → (r = .fs ∨ r = .gs) →
      ∀ m, s.operandSegment (before ++ .segment r :: after) m = r) ∧
    ((∀ q, .segment q ∉ before) ∨ (s.mode = .long64 ∧ .segment .fs ∉ before ∧ .segment .gs ∉ before) →
      let seg := s.operandSegment before
      (∀ b d, seg (.base b d) = if b.toNat = 4 ∨ b.toNat = 5 then .ss else .ds) ∧
      (∀ scale i b d, seg (.sib scale i b d) = if b.toNat = 4 ∨ b.toNat = 5 then .ss else .ds) ∧
      (∀ rm d, seg (.addr16 rm d) = if rm.toNat = 2 ∨ rm.toNat = 3 ∨ rm.toNat = 6 then .ss else .ds) ∧
      (∀ scale i d, seg (.sibNoBase scale i d) = .ds) ∧ (∀ d, seg (.ripRel d) = .ds) ∧ (∀ d, seg (.disp32 d) = .ds) ∧
      ∀ d, seg (.disp16 d) = .ds)

/-! ## The conversion (spec/40_conversion.md) -/

/-- Rule R111: `cvt_trunc` against the exact rational value: NaN and infinity are invalid; else the value truncated toward zero, invalid
outside the doubleword range, inexact when truncation loses something, a denormal exact under `DAZ` where `DAZ_APPLIES`. -/
def Obligations.ConversionTruncatesExactValue : Prop :=
  ∀ (dazApplies daz : Bool) (b : Word64),
    let c := cvtTrunc dazApplies daz b
    let v := valueOf b
    let t := truncRat v
    (expOf b = 2047 → c = { result := 0x80000000, invalid := true, inexact := false }) ∧
    (expOf b ≠ 2047 → (t > 2 ^ 31 - 1 ∨ t < -2 ^ 31) → c = { result := 0x80000000, invalid := true, inexact := false }) ∧
    (expOf b ≠ 2047 → -2 ^ 31 ≤ t → t ≤ 2 ^ 31 - 1 →
      c.result.toInt = t ∧ c.invalid = false ∧
        (c.inexact = true ↔ (t : ℚ) ≠ v ∧ ¬(expOf b = 0 ∧ daz = true ∧ dazApplies = true)))

/-- Rule R121: the bit-level form for normal inputs, case by case in the unbiased exponent. -/
def Obligations.BitLevelConversion : Prop :=
  ∀ (dazApplies daz : Bool) (b : Word64), 1 ≤ expOf b → expOf b ≤ 2046 →
    let c := cvtTrunc dazApplies daz b
    let x : Int := (expOf b : Int) - 1023
    let mag : Int := (2 ^ 52 + fracOf b : Nat) / 2 ^ (52 - x.toNat)
    let lost : Nat := (2 ^ 52 + fracOf b) % 2 ^ (52 - x.toNat)
    (x < 0 → c = { result := 0, invalid := false, inexact := true }) ∧
    (0 ≤ x → x ≤ 30 →
      c = { result := BitVec.ofInt 32 (if signOf b then -mag else mag), invalid := false, inexact := lost != 0 } ∧
        0 < mag ∧ mag < 2 ^ 31) ∧
    (x = 31 → signOf b = true → fracOf b < 2 ^ 21 → c = { result := 0x80000000, invalid := false, inexact := fracOf b != 0 }) ∧
    ((x = 31 ∧ ¬(signOf b = true ∧ fracOf b < 2 ^ 21)) ∨ 32 ≤ x → c = { result := 0x80000000, invalid := true, inexact := false })

/-- spec/95_test_vectors.md section 6: `0x7FFFFFFF` is the result exactly of the doubles from 2147483647.0 up to the last below 2^31. -/
def Obligations.LargestResultRange : Prop :=
  ∀ (dazApplies daz : Bool) (b : Word64), (cvtTrunc dazApplies daz b).result = 0x7FFFFFFF ↔
    0x41DFFFFFFFC00000 ≤ b.toNat ∧ b.toNat ≤ 0x41DFFFFFFFFFFFFF

/-- Rules R24, R115, R119: of MXCSR only `DAZ`, `IM` and `PM` (bits 6, 7, 12) matter: with any other `RC`, `FTZ`, mask or flag bit a form
completes all the same, writes the same and leaves those bits alone. -/
def Obligations.OnlyDazAndMasksMatter : Prop :=
  ∀ (i : Instr) (s t : State) (m : BitVec 32), m.getLsbD 6 = s.mxcsr.getLsbD 6 → m.getLsbD 7 = s.mxcsr.getLsbD 7 →
    m.getLsbD 12 = s.mxcsr.getLsbD 12 → exec i s = .next t →
    ∃ t', exec i { s with mxcsr := m } = .next t' ∧ t' = { t with mxcsr := t'.mxcsr } ∧
      ∀ k, k ≠ 0 → k ≠ 5 → t'.mxcsr.getLsbD k = m.getLsbD k

/-! ## Results: where each form completes, and with what state -/

/-- Rules R130, R117: form 1, enabled, with its operand read and every detected condition masked. -/
def Obligations.LegacyCompletes : Prop :=
  ∀ (o : LegacyOps) (s : State) (a b : Word64) (inv inx : Bool),
    s.legacyEnabled = true → .lock ∉ o.pre → o.length ≤ 15 → s.source (.cvttpd2dq o) = .ok [some a, some b] →
    (inv = true ↔ (s.convert a).invalid = true ∨ (s.convert b).invalid = true) →
    (inx = true ↔ (s.convert a).inexact = true ∨ (s.convert b).inexact = true) →
    (inv = true → s.mxIM = true) → (inx = true → s.mxPM = true) →
    ∃ v, exec (.cvttpd2dq o) s = .next (((s.setFlags inv inx).setVreg o.dst v).advance o.length) ∧
      dword v 0 = (s.convert a).result ∧ dword v 1 = (s.convert b).result ∧
      v.extractLsb' 64 64 = 0 ∧ v >>> 128 = s.vreg o.dst >>> 128

/-- Rules R140, R117: form 2. That it holds with AVX reported and `MAXVL = 128` too is the model's choice (notes/assumptions/3.md). -/
def Obligations.Vex128Completes : Prop :=
  ∀ (o : VexOps) (s : State) (a b : Word64) (inv inx : Bool),
    s.vexEnabled = true → badEscapePrefix o.pre = false → o.vvvv = 15 → o.length ≤ 15 →
    s.source (.vcvttpd2dqVex128 o) = .ok [some a, some b] →
    (inv = true ↔ (s.convert a).invalid = true ∨ (s.convert b).invalid = true) →
    (inx = true ↔ (s.convert a).inexact = true ∨ (s.convert b).inexact = true) →
    (inv = true → s.mxIM = true) → (inx = true → s.mxPM = true) →
    ∃ v, exec (.vcvttpd2dqVex128 o) s = .next (((s.setFlags inv inx).setVreg o.dst v).advance o.length) ∧
      dword v 0 = (s.convert a).result ∧ dword v 1 = (s.convert b).result ∧ v >>> 64 = 0

/-- Rules R141, R117: form 3, on a machine with `MAXVL >= 256`. -/
def Obligations.Vex256Completes : Prop :=
  ∀ (o : VexOps) (s : State) (a b c d : Word64) (inv inx : Bool),
    s.vexEnabled = true → badEscapePrefix o.pre = false → o.vvvv = 15 → o.length ≤ 15 → 256 ≤ s.impl.maxvl.bits →
    s.source (.vcvttpd2dqVex256 o) = .ok [some a, some b, some c, some d] →
    (inv = true ↔ ∃ x ∈ [a, b, c, d], (s.convert x).invalid = true) →
    (inx = true ↔ ∃ x ∈ [a, b, c, d], (s.convert x).inexact = true) →
    (inv = true → s.mxIM = true) → (inx = true → s.mxPM = true) →
    ∃ v, exec (.vcvttpd2dqVex256 o) s = .next (((s.setFlags inv inx).setVreg o.dst v).advance o.length) ∧
      dword v 0 = (s.convert a).result ∧ dword v 1 = (s.convert b).result ∧
      dword v 2 = (s.convert c).result ∧ dword v 3 = (s.convert d).result ∧ v >>> 128 = 0

/-- Rules R150, R151, R117: form 4. That it holds with `MAXVL` below 512 too is the model's choice (notes/assumptions/3.md). -/
def Obligations.Evex128Completes : Prop :=
  ∀ (o : EvexOps) (s : State) (elems : List (Option Word64)) (inv inx : Bool),
    s.evexEnabled ((s.impl.feat.avx512vl && s.impl.feat.avx512f) || s.impl.feat.avx10_1) = true →
    badEscapePrefix o.pre = false → o.vvvv = 15 → o.vHigh = true → (o.zeroing = true → o.aaa ≠ 0) → o.length ≤ 15 →
    EvexSource.isSae o.src = false → s.source (.vcvttpd2dqEvex128 o) = .ok elems →
    (inv = true ↔ s.someInvalid elems) → (inx = true ↔ s.someInexact elems) →
    (inv = true → s.mxIM = true) → (inx = true → s.mxPM = true) →
    ∃ v, exec (.vcvttpd2dqEvex128 o) s = .next (((s.setFlags inv inx).setVreg o.dst v).advance o.length) ∧ v >>> 64 = 0 ∧
      ∀ j < 2, (∀ x, elems[j]? = some (some x) → dword v j = (s.convert x).result) ∧
        (elems[j]? = some none → dword v j = if o.zeroing then 0 else dword (s.vreg o.dst) j)

/-- Rules R150, R152, R117: form 5, on a machine with `MAXVL >= 256`. That it holds with 256 is the model's choice (notes/assumptions/3.md). -/
def Obligations.Evex256Completes : Prop :=
  ∀ (o : EvexOps) (s : State) (elems : List (Option Word64)) (inv inx : Bool),
    s.evexEnabled ((s.impl.feat.avx512vl && s.impl.feat.avx512f) || s.impl.feat.avx10_1) = true →
    badEscapePrefix o.pre = false → o.vvvv = 15 → o.vHigh = true → (o.zeroing = true → o.aaa ≠ 0) → o.length ≤ 15 →
    256 ≤ s.impl.maxvl.bits → EvexSource.isSae o.src = false → s.source (.vcvttpd2dqEvex256 o) = .ok elems →
    (inv = true ↔ s.someInvalid elems) → (inx = true ↔ s.someInexact elems) →
    (inv = true → s.mxIM = true) → (inx = true → s.mxPM = true) →
    ∃ v, exec (.vcvttpd2dqEvex256 o) s = .next (((s.setFlags inv inx).setVreg o.dst v).advance o.length) ∧ v >>> 128 = 0 ∧
      ∀ j < 4, (∀ x, elems[j]? = some (some x) → dword v j = (s.convert x).result) ∧
        (elems[j]? = some none → dword v j = if o.zeroing then 0 else dword (s.vreg o.dst) j)

/-- Rules R150, R153, R117: form 6 without `{sae}`, on a machine with `MAXVL = 512`. -/
def Obligations.Evex512Completes : Prop :=
  ∀ (o : EvexOps) (s : State) (elems : List (Option Word64)) (inv inx : Bool),
    s.evexEnabled (s.impl.feat.avx512f || s.impl.feat.avx10_1) = true →
    badEscapePrefix o.pre = false → o.vvvv = 15 → o.vHigh = true → (o.zeroing = true → o.aaa ≠ 0) → o.length ≤ 15 →
    s.impl.maxvl = .vl512 → EvexSource.isSae o.src = false → s.source (.vcvttpd2dqEvex512 o) = .ok elems →
    (inv = true ↔ s.someInvalid elems) → (inx = true ↔ s.someInexact elems) →
    (inv = true → s.mxIM = true) → (inx = true → s.mxPM = true) →
    ∃ v, exec (.vcvttpd2dqEvex512 o) s = .next (((s.setFlags inv inx).setVreg o.dst v).advance o.length) ∧ v >>> 256 = 0 ∧
      ∀ j < 8, (∀ x, elems[j]? = some (some x) → dword v j = (s.convert x).result) ∧
        (elems[j]? = some none → dword v j = if o.zeroing then 0 else dword (s.vreg o.dst) j)

/-- Rule R118: form 6 with `{sae}` completes whatever the masks in MXCSR, writes the results of rule R111 and leaves MXCSR alone. -/
def Obligations.SaeCompletesUnmasked : Prop :=
  ∀ (o : EvexOps) (s : State) (n : BitVec 5),
    s.evexEnabled (s.impl.feat.avx512f || s.impl.feat.avx10_1) = true →
    badEscapePrefix o.pre = false → o.vvvv = 15 → o.vHigh = true → (o.zeroing = true → o.aaa ≠ 0) → o.length ≤ 15 →
    s.impl.maxvl = .vl512 → o.src = .sae n →
    ∃ v, exec (.vcvttpd2dqEvex512 o) s = .next ((s.setVreg o.dst v).advance o.length) ∧ v >>> 256 = 0 ∧
      ∀ j < 8, dword v j =
        if o.aaa = 0 ∨ (s.k o.aaa).getLsbD j = true then (s.convert ((s.vreg n).extractLsb' (64 * j) 64)).result
        else if o.zeroing then 0 else dword (s.vreg o.dst) j

/-! ## Frames and whole-machine rules -/

/-- Rule R25: exactly `MXCSR.IE` and `MXCSR.PE` are written, sticky; none with `{sae}`. -/
def Obligations.OnlyInvalidAndPrecisionFlags : Prop :=
  ∀ (i : Instr) (s t : State),
    (exec i s = .next t →
      (Instr.suppressed i = true → t.mxcsr = s.mxcsr) ∧
      (Instr.suppressed i = false → ∃ elems, s.source i = .ok elems ∧
        (∀ k, k ≠ 0 → k ≠ 5 → t.mxcsr.getLsbD k = s.mxcsr.getLsbD k) ∧
        (t.mxIE = true ↔ s.mxIE = true ∨ s.someInvalid elems) ∧ (t.mxPE = true ↔ s.mxPE = true ∨ s.someInexact elems))) ∧
    ∀ x, exec i s = .fault (.exception x t) →
      (∀ k, k ≠ 0 → k ≠ 5 → t.mxcsr.getLsbD k = s.mxcsr.getLsbD k) ∧
      (s.mxIE = true → t.mxIE = true) ∧ (s.mxPE = true → t.mxPE = true) ∧ (Instr.suppressed i = true → t.mxcsr = s.mxcsr)

/-- Rules R33, R26: an execution that completes changes the destination register, MXCSR and RIP and nothing else: every other vector
register, every opmask, general, segment and control register, RFLAGS, the x87 state and every byte of memory are as before. -/
def Obligations.CompletionFrame : Prop :=
  ∀ (i : Instr) (s t : State), exec i s = .next t →
    t = { s with zmm := t.zmm, mxcsr := t.mxcsr, rip := t.rip } ∧
    (∀ n, n ≠ Instr.destination i → t.vreg n = s.vreg n) ∧
    (∀ k, k ≠ 0 → k ≠ 5 → t.mxcsr.getLsbD k = s.mxcsr.getLsbD k) ∧
    ∀ a, memRead t.mem a = memRead s.mem a

/-- Rule R61: no step writes memory, whether it completes or ends in an exception. -/
def Obligations.NoStepWritesMemory : Prop :=
  ∀ s t : State, (step s = .next t ∨ ∃ x, step s = .fault (.exception x t)) →
    t.mem = s.mem ∧ ∀ a, memRead t.mem a = memRead s.mem a

/-- Rule R28: a completed instruction advances RIP by its length, in the mode's width. The 16-bit width is the model's choice
(notes/assumptions/17.md). -/
def Obligations.InstructionPointerAdvance : Prop :=
  ∀ (i : Instr) (s t : State), exec i s = .next t →
    (s.mode = .long64 → t.rip.toNat = (s.rip.toNat + i.length) % 2 ^ 64) ∧
    (s.mode = .prot32 → t.rip.toNat = (s.rip.toNat + i.length) % 2 ^ 32) ∧
    (s.mode = .prot16 ∨ s.mode = .real ∨ s.mode = .v86 → t.rip.toNat = (s.rip.toNat + i.length) % 2 ^ 16)

/-- No step changes the mode, the implementation's parameters or what is translated where (rules R5, R30, R33). -/
def Obligations.StepKeepsSystemState : Prop :=
  ∀ s t : State, (step s = .next t ∨ ∃ x, step s = .fault (.exception x t)) →
    t.mode = s.mode ∧ t.impl = s.impl ∧ t.pages = s.pages ∧ t.devicePages = s.devicePages ∧
      t.cr0 = s.cr0 ∧ t.cr4 = s.cr4 ∧ t.xcr0 = s.xcr0 ∧ t.efer = s.efer ∧ t.rflags = s.rflags ∧ t.gpr = s.gpr ∧ t.kreg = s.kreg ∧
      t.x87 = s.x87 ∧ ∀ r, t.seg r = s.seg r

/-- The machine's invariant is kept by every step (rules R20, R21, R24, R32): memory and page list in canonical form, no vector register with
bits above `MAXVL`, no content in registers the implementation lacks, MXCSR's reserved bits zero. The forms of these are the model's
(notes/assumptions/3.md, 5.md, 7.md). -/
def Obligations.StepKeepsInvariant : Prop :=
  ∀ s t : State, s.Inv → (step s = .next t ∨ ∃ x, step s = .fault (.exception x t)) → t.Inv

/-- The invariant holds after reset. -/
def Obligations.ResetMeetsInvariant : Prop := State.reset.Inv

/-- Rule R35: the reset values that the spec gives. -/
def Obligations.ResetValues : Prop :=
  (∀ n, State.reset.vreg n = 0) ∧ (∀ n, State.reset.k n = 0) ∧ State.reset.mxcsr = 0x1F80 ∧
    (∀ n, n ≠ 2 → State.reset.reg n = 0) ∧ State.reset.rip = 0xFFF0 ∧ State.reset.cs.base = 0xFFFF0000 ∧
    State.reset.mode = .real ∧ State.reset.cr0 = 0x60000010 ∧ State.reset.cr4 = 0 ∧ State.reset.xcr0 = 1 ∧
    State.reset.rflags = 2 ∧ State.reset.fetchAddress 0 = 0xFFFFFFF0

/-- Rule R35, column INIT: vector, opmask and MXCSR state kept; general registers zero but RDX; RIP, the CS base, CR4, XCR0 and RFLAGS as after
reset; CR0 likewise but for bits 30 and 29 (CD, NW, positions of notes/assumptions/35.md), which are kept; the invariant stays. -/
def Obligations.InitKeepsVectorState : Prop :=
  ∀ s : State,
    (∀ n, s.afterInit.vreg n = s.vreg n) ∧ (∀ n, s.afterInit.k n = s.k n) ∧ s.afterInit.mxcsr = s.mxcsr ∧
    (∀ n, n ≠ 2 → s.afterInit.reg n = 0) ∧ s.afterInit.rip = 0xFFF0 ∧ s.afterInit.cs.base = 0xFFFF0000 ∧
    s.afterInit.mode = .real ∧ s.afterInit.cr4 = 0 ∧ s.afterInit.xcr0 = 1 ∧ s.afterInit.rflags = 2 ∧
    (∀ k, s.afterInit.cr0.getLsbD k = if k = 29 ∨ k = 30 then s.cr0.getLsbD k else k == 4) ∧
    (s.Inv → s.afterInit.Inv)

/-- Rules R35, R200: straight after reset every form raises `#UD`, whatever memory holds. -/
def Obligations.ResetStateRunsNoForm : Prop :=
  ∀ (i : Instr) (m : List Host.Cell), i.length ≤ 15 →
    exec i { State.reset with mem := m } = .fault (.exception .invalidOpcode { State.reset with mem := m })

/-- A machine whose `MAXVL` is below the form's `VL` is none the spec describes: the form is refused by name after the `#UD` and `#NM` checks
(the model's choice, notes/assumptions/3.md). -/
def Obligations.FormsWiderThanMaxvlRefused : Prop :=
  ∀ (i : Instr) (s : State), i.length ≤ 15 → s.undefinedFor i = false → s.cr0TS = false → s.impl.maxvl.bits < Instr.vl i →
    exec i s = .refused .vectorLengthAboveMaxvl
end

