-- ==== Sys2Proof/Laws/State.lean ====
section
/-! SUPPORT. One lemma per field and accessor per update of State, so that no later proof unfolds a record update. -/

namespace Sys2Proof.Machine.State

variable (s : State)

/-! ### `setVreg` -/

@[simp] theorem setVreg_impl (n : BitVec 5) (v : VWord) : (s.setVreg n v).impl = s.impl := rfl
@[simp] theorem setVreg_zmm (n : BitVec 5) (v : VWord) : (s.setVreg n v).zmm = s.zmm.set n.toNat v n.isLt := rfl
@[simp] theorem setVreg_kreg (n : BitVec 5) (v : VWord) : (s.setVreg n v).kreg = s.kreg := rfl
@[simp] theorem setVreg_mxcsr (n : BitVec 5) (v : VWord) : (s.setVreg n v).mxcsr = s.mxcsr := rfl
@[simp] theorem setVreg_gpr (n : BitVec 5) (v : VWord) : (s.setVreg n v).gpr = s.gpr := rfl
@[simp] theorem setVreg_rip (n : BitVec 5) (v : VWord) : (s.setVreg n v).rip = s.rip := rfl
@[simp] theorem setVreg_rflags (n : BitVec 5) (v : VWord) : (s.setVreg n v).rflags = s.rflags := rfl
@[simp] theorem setVreg_es (n : BitVec 5) (v : VWord) : (s.setVreg n v).es = s.es := rfl
@[simp] theorem setVreg_cs (n : BitVec 5) (v : VWord) : (s.setVreg n v).cs = s.cs := rfl
@[simp] theorem setVreg_ss (n : BitVec 5) (v : VWord) : (s.setVreg n v).ss = s.ss := rfl
@[simp] theorem setVreg_ds (n : BitVec 5) (v : VWord) : (s.setVreg n v).ds = s.ds := rfl
@[simp] theorem setVreg_fs (n : BitVec 5) (v : VWord) : (s.setVreg n v).fs = s.fs := rfl
@[simp] theorem setVreg_gs (n : BitVec 5) (v : VWord) : (s.setVreg n v).gs = s.gs := rfl
@[simp] theorem setVreg_cr0 (n : BitVec 5) (v : VWord) : (s.setVreg n v).cr0 = s.cr0 := rfl
@[simp] theorem setVreg_cr2 (n : BitVec 5) (v : VWord) : (s.setVreg n v).cr2 = s.cr2 := rfl
@[simp] theorem setVreg_cr4 (n : BitVec 5) (v : VWord) : (s.setVreg n v).cr4 = s.cr4 := rfl
@[simp] theorem setVreg_xcr0 (n : BitVec 5) (v : VWord) : (s.setVreg n v).xcr0 = s.xcr0 := rfl
@[simp] theorem setVreg_efer (n : BitVec 5) (v : VWord) : (s.setVreg n v).efer = s.efer := rfl
@[simp] theorem setVreg_x87 (n : BitVec 5) (v : VWord) : (s.setVreg n v).x87 = s.x87 := rfl
@[simp] theorem setVreg_mem (n : BitVec 5) (v : VWord) : (s.setVreg n v).mem = s.mem := rfl
@[simp] theorem setVreg_pages (n : BitVec 5) (v : VWord) : (s.setVreg n v).pages = s.pages := rfl
@[simp] theorem setVreg_devicePages (n : BitVec 5) (v : VWord) : (s.setVreg n v).devicePages = s.devicePages := rfl
@[simp] theorem setVreg_draws (n : BitVec 5) (v : VWord) : (s.setVreg n v).draws = s.draws := rfl
@[simp] theorem setVreg_mode (n : BitVec 5) (v : VWord) : (s.setVreg n v).mode = s.mode := rfl
@[simp] theorem setVreg_realOrV86 (n : BitVec 5) (v : VWord) : (s.setVreg n v).realOrV86 = s.realOrV86 := rfl
@[simp] theorem setVreg_cplIs3 (n : BitVec 5) (v : VWord) : (s.setVreg n v).cplIs3 = s.cplIs3 := rfl
@[simp] theorem setVreg_alignCheck (n : BitVec 5) (v : VWord) : (s.setVreg n v).alignCheck = s.alignCheck := rfl
@[simp] theorem setVreg_cr0TS (n : BitVec 5) (v : VWord) : (s.setVreg n v).cr0TS = s.cr0TS := rfl
@[simp] theorem setVreg_cr4OSXMMEXCPT (n : BitVec 5) (v : VWord) : (s.setVreg n v).cr4OSXMMEXCPT = s.cr4OSXMMEXCPT := rfl
@[simp] theorem setVreg_decodeEnv (n : BitVec 5) (v : VWord) : (s.setVreg n v).decodeEnv = s.decodeEnv := rfl
@[simp] theorem setVreg_mxIE (n : BitVec 5) (v : VWord) : (s.setVreg n v).mxIE = s.mxIE := rfl
@[simp] theorem setVreg_mxPE (n : BitVec 5) (v : VWord) : (s.setVreg n v).mxPE = s.mxPE := rfl
@[simp] theorem setVreg_mxDAZ (n : BitVec 5) (v : VWord) : (s.setVreg n v).mxDAZ = s.mxDAZ := rfl
@[simp] theorem setVreg_mxIM (n : BitVec 5) (v : VWord) : (s.setVreg n v).mxIM = s.mxIM := rfl
@[simp] theorem setVreg_mxPM (n : BitVec 5) (v : VWord) : (s.setVreg n v).mxPM = s.mxPM := rfl
@[simp] theorem setVreg_convert (n : BitVec 5) (v : VWord) (b : Word64) : (s.setVreg n v).convert b = s.convert b := rfl
@[simp] theorem setVreg_k (n : BitVec 5) (v : VWord) (m : BitVec 3) : (s.setVreg n v).k m = s.k m := rfl
@[simp] theorem setVreg_reg (n : BitVec 5) (v : VWord) (m : BitVec 4) : (s.setVreg n v).reg m = s.reg m := rfl

/-! ### `setFlags` -/

@[simp] theorem setFlags_impl (ie pe : Bool) : (s.setFlags ie pe).impl = s.impl := rfl
@[simp] theorem setFlags_zmm (ie pe : Bool) : (s.setFlags ie pe).zmm = s.zmm := rfl
@[simp] theorem setFlags_kreg (ie pe : Bool) : (s.setFlags ie pe).kreg = s.kreg := rfl
@[simp] theorem setFlags_mxcsr (ie pe : Bool) : (s.setFlags ie pe).mxcsr = orFlags s.mxcsr ie pe := rfl
@[simp] theorem setFlags_gpr (ie pe : Bool) : (s.setFlags ie pe).gpr = s.gpr := rfl
@[simp] theorem setFlags_rip (ie pe : Bool) : (s.setFlags ie pe).rip = s.rip := rfl
@[simp] theorem setFlags_rflags (ie pe : Bool) : (s.setFlags ie pe).rflags = s.rflags := rfl
@[simp] theorem setFlags_es (ie pe : Bool) : (s.setFlags ie pe).es = s.es := rfl
@[simp] theorem setFlags_cs (ie pe : Bool) : (s.setFlags ie pe).cs = s.cs := rfl
@[simp] theorem setFlags_ss (ie pe : Bool) : (s.setFlags ie pe).ss = s.ss := rfl
@[simp] theorem setFlags_ds (ie pe : Bool) : (s.setFlags ie pe).ds = s.ds := rfl
@[simp] theorem setFlags_fs (ie pe : Bool) : (s.setFlags ie pe).fs = s.fs := rfl
@[simp] theorem setFlags_gs (ie pe : Bool) : (s.setFlags ie pe).gs = s.gs := rfl
@[simp] theorem setFlags_cr0 (ie pe : Bool) : (s.setFlags ie pe).cr0 = s.cr0 := rfl
@[simp] theorem setFlags_cr2 (ie pe : Bool) : (s.setFlags ie pe).cr2 = s.cr2 := rfl
@[simp] theorem setFlags_cr4 (ie pe : Bool) : (s.setFlags ie pe).cr4 = s.cr4 := rfl
@[simp] theorem setFlags_xcr0 (ie pe : Bool) : (s.setFlags ie pe).xcr0 = s.xcr0 := rfl
@[simp] theorem setFlags_efer (ie pe : Bool) : (s.setFlags ie pe).efer = s.efer := rfl
@[simp] theorem setFlags_x87 (ie pe : Bool) : (s.setFlags ie pe).x87 = s.x87 := rfl
@[simp] theorem setFlags_mem (ie pe : Bool) : (s.setFlags ie pe).mem = s.mem := rfl
@[simp] theorem setFlags_pages (ie pe : Bool) : (s.setFlags ie pe).pages = s.pages := rfl
@[simp] theorem setFlags_devicePages (ie pe : Bool) : (s.setFlags ie pe).devicePages = s.devicePages := rfl
@[simp] theorem setFlags_draws (ie pe : Bool) : (s.setFlags ie pe).draws = s.draws := rfl
@[simp] theorem setFlags_mode (ie pe : Bool) : (s.setFlags ie pe).mode = s.mode := rfl
@[simp] theorem setFlags_realOrV86 (ie pe : Bool) : (s.setFlags ie pe).realOrV86 = s.realOrV86 := rfl
@[simp] theorem setFlags_cplIs3 (ie pe : Bool) : (s.setFlags ie pe).cplIs3 = s.cplIs3 := rfl
@[simp] theorem setFlags_alignCheck (ie pe : Bool) : (s.setFlags ie pe).alignCheck = s.alignCheck := rfl
@[simp] theorem setFlags_cr0TS (ie pe : Bool) : (s.setFlags ie pe).cr0TS = s.cr0TS := rfl
@[simp] theorem setFlags_cr4OSXMMEXCPT (ie pe : Bool) : (s.setFlags ie pe).cr4OSXMMEXCPT = s.cr4OSXMMEXCPT := rfl
@[simp] theorem setFlags_decodeEnv (ie pe : Bool) : (s.setFlags ie pe).decodeEnv = s.decodeEnv := rfl
@[simp] theorem setFlags_vreg (ie pe : Bool) (m : BitVec 5) : (s.setFlags ie pe).vreg m = s.vreg m := rfl
@[simp] theorem setFlags_k (ie pe : Bool) (m : BitVec 3) : (s.setFlags ie pe).k m = s.k m := rfl
@[simp] theorem setFlags_reg (ie pe : Bool) (m : BitVec 4) : (s.setFlags ie pe).reg m = s.reg m := rfl

/-! ### `advance` -/

@[simp] theorem advance_impl (len : Nat) : (s.advance len).impl = s.impl := rfl
@[simp] theorem advance_zmm (len : Nat) : (s.advance len).zmm = s.zmm := rfl
@[simp] theorem advance_kreg (len : Nat) : (s.advance len).kreg = s.kreg := rfl
@[simp] theorem advance_mxcsr (len : Nat) : (s.advance len).mxcsr = s.mxcsr := rfl
@[simp] theorem advance_gpr (len : Nat) : (s.advance len).gpr = s.gpr := rfl
@[simp] theorem advance_rflags (len : Nat) : (s.advance len).rflags = s.rflags := rfl
@[simp] theorem advance_es (len : Nat) : (s.advance len).es = s.es := rfl
@[simp] theorem advance_cs (len : Nat) : (s.advance len).cs = s.cs := rfl
@[simp] theorem advance_ss (len : Nat) : (s.advance len).ss = s.ss := rfl
@[simp] theorem advance_ds (len : Nat) : (s.advance len).ds = s.ds := rfl
@[simp] theorem advance_fs (len : Nat) : (s.advance len).fs = s.fs := rfl
@[simp] theorem advance_gs (len : Nat) : (s.advance len).gs = s.gs := rfl
@[simp] theorem advance_cr0 (len : Nat) : (s.advance len).cr0 = s.cr0 := rfl
@[simp] theorem advance_cr2 (len : Nat) : (s.advance len).cr2 = s.cr2 := rfl
@[simp] theorem advance_cr4 (len : Nat) : (s.advance len).cr4 = s.cr4 := rfl
@[simp] theorem advance_xcr0 (len : Nat) : (s.advance len).xcr0 = s.xcr0 := rfl
@[simp] theorem advance_efer (len : Nat) : (s.advance len).efer = s.efer := rfl
@[simp] theorem advance_x87 (len : Nat) : (s.advance len).x87 = s.x87 := rfl
@[simp] theorem advance_mem (len : Nat) : (s.advance len).mem = s.mem := rfl
@[simp] theorem advance_pages (len : Nat) : (s.advance len).pages = s.pages := rfl
@[simp] theorem advance_devicePages (len : Nat) : (s.advance len).devicePages = s.devicePages := rfl
@[simp] theorem advance_draws (len : Nat) : (s.advance len).draws = s.draws := rfl
@[simp] theorem advance_mode (len : Nat) : (s.advance len).mode = s.mode := rfl
@[simp] theorem advance_realOrV86 (len : Nat) : (s.advance len).realOrV86 = s.realOrV86 := rfl
@[simp] theorem advance_cplIs3 (len : Nat) : (s.advance len).cplIs3 = s.cplIs3 := rfl
@[simp] theorem advance_alignCheck (len : Nat) : (s.advance len).alignCheck = s.alignCheck := rfl
@[simp] theorem advance_cr0TS (len : Nat) : (s.advance len).cr0TS = s.cr0TS := rfl
@[simp] theorem advance_cr4OSXMMEXCPT (len : Nat) : (s.advance len).cr4OSXMMEXCPT = s.cr4OSXMMEXCPT := rfl
@[simp] theorem advance_decodeEnv (len : Nat) : (s.advance len).decodeEnv = s.decodeEnv := rfl
@[simp] theorem advance_mxIE (len : Nat) : (s.advance len).mxIE = s.mxIE := rfl
@[simp] theorem advance_mxPE (len : Nat) : (s.advance len).mxPE = s.mxPE := rfl
@[simp] theorem advance_mxDAZ (len : Nat) : (s.advance len).mxDAZ = s.mxDAZ := rfl
@[simp] theorem advance_mxIM (len : Nat) : (s.advance len).mxIM = s.mxIM := rfl
@[simp] theorem advance_mxPM (len : Nat) : (s.advance len).mxPM = s.mxPM := rfl
@[simp] theorem advance_convert (len : Nat) (b : Word64) : (s.advance len).convert b = s.convert b := rfl
@[simp] theorem advance_vreg (len : Nat) (m : BitVec 5) : (s.advance len).vreg m = s.vreg m := rfl
@[simp] theorem advance_k (len : Nat) (m : BitVec 3) : (s.advance len).k m = s.k m := rfl
@[simp] theorem advance_reg (len : Nat) (m : BitVec 4) : (s.advance len).reg m = s.reg m := rfl

/-! ### `afterUnmasked` -/

@[simp] theorem afterUnmasked_impl (inv inx : Bool) : (s.afterUnmasked inv inx).impl = s.impl := rfl
@[simp] theorem afterUnmasked_zmm (inv inx : Bool) : (s.afterUnmasked inv inx).zmm = s.zmm := rfl
@[simp] theorem afterUnmasked_kreg (inv inx : Bool) : (s.afterUnmasked inv inx).kreg = s.kreg := rfl
@[simp] theorem afterUnmasked_mxcsr (inv inx : Bool) : (s.afterUnmasked inv inx).mxcsr = orFlags s.mxcsr (s.xmFlags inv inx).1 (s.xmFlags inv inx).2 := rfl
@[simp] theorem afterUnmasked_gpr (inv inx : Bool) : (s.afterUnmasked inv inx).gpr = s.gpr := rfl
@[simp] theorem afterUnmasked_rip (inv inx : Bool) : (s.afterUnmasked inv inx).rip = s.rip := rfl
@[simp] theorem afterUnmasked_rflags (inv inx : Bool) : (s.afterUnmasked inv inx).rflags = s.rflags := rfl
@[simp] theorem afterUnmasked_es (inv inx : Bool) : (s.afterUnmasked inv inx).es = s.es := rfl
@[simp] theorem afterUnmasked_cs (inv inx : Bool) : (s.afterUnmasked inv inx).cs = s.cs := rfl
@[simp] theorem afterUnmasked_ss (inv inx : Bool) : (s.afterUnmasked inv inx).ss = s.ss := rfl
@[simp] theorem afterUnmasked_ds (inv inx : Bool) : (s.afterUnmasked inv inx).ds = s.ds := rfl
@[simp] theorem afterUnmasked_fs (inv inx : Bool) : (s.afterUnmasked inv inx).fs = s.fs := rfl
@[simp] theorem afterUnmasked_gs (inv inx : Bool) : (s.afterUnmasked inv inx).gs = s.gs := rfl
@[simp] theorem afterUnmasked_cr0 (inv inx : Bool) : (s.afterUnmasked inv inx).cr0 = s.cr0 := rfl
@[simp] theorem afterUnmasked_cr2 (inv inx : Bool) : (s.afterUnmasked inv inx).cr2 = s.cr2 := rfl
@[simp] theorem afterUnmasked_cr4 (inv inx : Bool) : (s.afterUnmasked inv inx).cr4 = s.cr4 := rfl
@[simp] theorem afterUnmasked_xcr0 (inv inx : Bool) : (s.afterUnmasked inv inx).xcr0 = s.xcr0 := rfl
@[simp] theorem afterUnmasked_efer (inv inx : Bool) : (s.afterUnmasked inv inx).efer = s.efer := rfl
@[simp] theorem afterUnmasked_x87 (inv inx : Bool) : (s.afterUnmasked inv inx).x87 = s.x87 := rfl
@[simp] theorem afterUnmasked_mem (inv inx : Bool) : (s.afterUnmasked inv inx).mem = s.mem := rfl
@[simp] theorem afterUnmasked_pages (inv inx : Bool) : (s.afterUnmasked inv inx).pages = s.pages := rfl
@[simp] theorem afterUnmasked_devicePages (inv inx : Bool) : (s.afterUnmasked inv inx).devicePages = s.devicePages := rfl
@[simp] theorem afterUnmasked_draws (inv inx : Bool) : (s.afterUnmasked inv inx).draws = s.draws + 1 := rfl
@[simp] theorem afterUnmasked_mode (inv inx : Bool) : (s.afterUnmasked inv inx).mode = s.mode := rfl
@[simp] theorem afterUnmasked_realOrV86 (inv inx : Bool) : (s.afterUnmasked inv inx).realOrV86 = s.realOrV86 := rfl
@[simp] theorem afterUnmasked_cplIs3 (inv inx : Bool) : (s.afterUnmasked inv inx).cplIs3 = s.cplIs3 := rfl
@[simp] theorem afterUnmasked_alignCheck (inv inx : Bool) : (s.afterUnmasked inv inx).alignCheck = s.alignCheck := rfl
@[simp] theorem afterUnmasked_cr0TS (inv inx : Bool) : (s.afterUnmasked inv inx).cr0TS = s.cr0TS := rfl
@[simp] theorem afterUnmasked_cr4OSXMMEXCPT (inv inx : Bool) : (s.afterUnmasked inv inx).cr4OSXMMEXCPT = s.cr4OSXMMEXCPT := rfl
@[simp] theorem afterUnmasked_decodeEnv (inv inx : Bool) : (s.afterUnmasked inv inx).decodeEnv = s.decodeEnv := rfl
@[simp] theorem afterUnmasked_vreg (inv inx : Bool) (m : BitVec 5) : (s.afterUnmasked inv inx).vreg m = s.vreg m := rfl
@[simp] theorem afterUnmasked_k (inv inx : Bool) (m : BitVec 3) : (s.afterUnmasked inv inx).k m = s.k m := rfl
@[simp] theorem afterUnmasked_reg (inv inx : Bool) (m : BitVec 4) : (s.afterUnmasked inv inx).reg m = s.reg m := rfl

/-! ### `withFetchWord` -/

@[simp] theorem withFetchWord_impl (nbits w : Nat) : (s.withFetchWord nbits w).impl = s.impl := rfl
@[simp] theorem withFetchWord_zmm (nbits w : Nat) : (s.withFetchWord nbits w).zmm = s.zmm := rfl
@[simp] theorem withFetchWord_kreg (nbits w : Nat) : (s.withFetchWord nbits w).kreg = s.kreg := rfl
@[simp] theorem withFetchWord_mxcsr (nbits w : Nat) : (s.withFetchWord nbits w).mxcsr = s.mxcsr := rfl
@[simp] theorem withFetchWord_gpr (nbits w : Nat) : (s.withFetchWord nbits w).gpr = s.gpr := rfl
@[simp] theorem withFetchWord_rip (nbits w : Nat) : (s.withFetchWord nbits w).rip = s.rip := rfl
@[simp] theorem withFetchWord_rflags (nbits w : Nat) : (s.withFetchWord nbits w).rflags = s.rflags := rfl
@[simp] theorem withFetchWord_es (nbits w : Nat) : (s.withFetchWord nbits w).es = s.es := rfl
@[simp] theorem withFetchWord_cs (nbits w : Nat) : (s.withFetchWord nbits w).cs = s.cs := rfl
@[simp] theorem withFetchWord_ss (nbits w : Nat) : (s.withFetchWord nbits w).ss = s.ss := rfl
@[simp] theorem withFetchWord_ds (nbits w : Nat) : (s.withFetchWord nbits w).ds = s.ds := rfl
@[simp] theorem withFetchWord_fs (nbits w : Nat) : (s.withFetchWord nbits w).fs = s.fs := rfl
@[simp] theorem withFetchWord_gs (nbits w : Nat) : (s.withFetchWord nbits w).gs = s.gs := rfl
@[simp] theorem withFetchWord_cr0 (nbits w : Nat) : (s.withFetchWord nbits w).cr0 = s.cr0 := rfl
@[simp] theorem withFetchWord_cr2 (nbits w : Nat) : (s.withFetchWord nbits w).cr2 = s.cr2 := rfl
@[simp] theorem withFetchWord_cr4 (nbits w : Nat) : (s.withFetchWord nbits w).cr4 = s.cr4 := rfl
@[simp] theorem withFetchWord_xcr0 (nbits w : Nat) : (s.withFetchWord nbits w).xcr0 = s.xcr0 := rfl
@[simp] theorem withFetchWord_efer (nbits w : Nat) : (s.withFetchWord nbits w).efer = s.efer := rfl
@[simp] theorem withFetchWord_x87 (nbits w : Nat) : (s.withFetchWord nbits w).x87 = s.x87 := rfl
@[simp] theorem withFetchWord_mem (nbits w : Nat) : (s.withFetchWord nbits w).mem = placeBytes s s.mem 0 (tableBytes nbits w) := rfl
@[simp] theorem withFetchWord_pages (nbits w : Nat) : (s.withFetchWord nbits w).pages = s.pages := rfl
@[simp] theorem withFetchWord_devicePages (nbits w : Nat) : (s.withFetchWord nbits w).devicePages = s.devicePages := rfl
@[simp] theorem withFetchWord_draws (nbits w : Nat) : (s.withFetchWord nbits w).draws = s.draws := rfl
@[simp] theorem withFetchWord_mode (nbits w : Nat) : (s.withFetchWord nbits w).mode = s.mode := rfl
@[simp] theorem withFetchWord_realOrV86 (nbits w : Nat) : (s.withFetchWord nbits w).realOrV86 = s.realOrV86 := rfl
@[simp] theorem withFetchWord_cplIs3 (nbits w : Nat) : (s.withFetchWord nbits w).cplIs3 = s.cplIs3 := rfl
@[simp] theorem withFetchWord_alignCheck (nbits w : Nat) : (s.withFetchWord nbits w).alignCheck = s.alignCheck := rfl
@[simp] theorem withFetchWord_cr0TS (nbits w : Nat) : (s.withFetchWord nbits w).cr0TS = s.cr0TS := rfl
@[simp] theorem withFetchWord_cr4OSXMMEXCPT (nbits w : Nat) : (s.withFetchWord nbits w).cr4OSXMMEXCPT = s.cr4OSXMMEXCPT := rfl
@[simp] theorem withFetchWord_decodeEnv (nbits w : Nat) : (s.withFetchWord nbits w).decodeEnv = s.decodeEnv := rfl
@[simp] theorem withFetchWord_mxIE (nbits w : Nat) : (s.withFetchWord nbits w).mxIE = s.mxIE := rfl
@[simp] theorem withFetchWord_mxPE (nbits w : Nat) : (s.withFetchWord nbits w).mxPE = s.mxPE := rfl
@[simp] theorem withFetchWord_mxDAZ (nbits w : Nat) : (s.withFetchWord nbits w).mxDAZ = s.mxDAZ := rfl
@[simp] theorem withFetchWord_mxIM (nbits w : Nat) : (s.withFetchWord nbits w).mxIM = s.mxIM := rfl
@[simp] theorem withFetchWord_mxPM (nbits w : Nat) : (s.withFetchWord nbits w).mxPM = s.mxPM := rfl
@[simp] theorem withFetchWord_convert (nbits w : Nat) (b : Word64) : (s.withFetchWord nbits w).convert b = s.convert b := rfl
@[simp] theorem withFetchWord_vreg (nbits w : Nat) (m : BitVec 5) : (s.withFetchWord nbits w).vreg m = s.vreg m := rfl
@[simp] theorem withFetchWord_k (nbits w : Nat) (m : BitVec 3) : (s.withFetchWord nbits w).k m = s.k m := rfl
@[simp] theorem withFetchWord_reg (nbits w : Nat) (m : BitVec 4) : (s.withFetchWord nbits w).reg m = s.reg m := rfl

/-! ### State.afterInit -/

@[simp] theorem afterInit_impl : s.afterInit.impl = s.impl := rfl
@[simp] theorem afterInit_zmm : s.afterInit.zmm = s.zmm := rfl
@[simp] theorem afterInit_kreg : s.afterInit.kreg = s.kreg := rfl
@[simp] theorem afterInit_mxcsr : s.afterInit.mxcsr = s.mxcsr := rfl
@[simp] theorem afterInit_x87 : s.afterInit.x87 = s.x87 := rfl
@[simp] theorem afterInit_mem : s.afterInit.mem = s.mem := rfl
@[simp] theorem afterInit_pages : s.afterInit.pages = s.pages := rfl
@[simp] theorem afterInit_devicePages : s.afterInit.devicePages = s.devicePages := rfl
@[simp] theorem afterInit_draws : s.afterInit.draws = s.draws := rfl
@[simp] theorem afterInit_gpr : s.afterInit.gpr = State.reset.gpr := rfl
@[simp] theorem afterInit_rip : s.afterInit.rip = State.reset.rip := rfl
@[simp] theorem afterInit_rflags : s.afterInit.rflags = State.reset.rflags := rfl
@[simp] theorem afterInit_es : s.afterInit.es = State.reset.es := rfl
@[simp] theorem afterInit_cs : s.afterInit.cs = State.reset.cs := rfl
@[simp] theorem afterInit_ss : s.afterInit.ss = State.reset.ss := rfl
@[simp] theorem afterInit_ds : s.afterInit.ds = State.reset.ds := rfl
@[simp] theorem afterInit_fs : s.afterInit.fs = State.reset.fs := rfl
@[simp] theorem afterInit_gs : s.afterInit.gs = State.reset.gs := rfl
@[simp] theorem afterInit_cr2 : s.afterInit.cr2 = State.reset.cr2 := rfl
@[simp] theorem afterInit_cr4 : s.afterInit.cr4 = State.reset.cr4 := rfl
@[simp] theorem afterInit_xcr0 : s.afterInit.xcr0 = State.reset.xcr0 := rfl
@[simp] theorem afterInit_efer : s.afterInit.efer = State.reset.efer := rfl
@[simp] theorem afterInit_cr0 :
    s.afterInit.cr0 = (State.reset.cr0 &&& ~~~cacheControlBits) ||| (s.cr0 &&& cacheControlBits) := rfl

/-! ### Reading a vector register after a write -/

@[simp] theorem vreg_setVreg_same (n : BitVec 5) (v : VWord) : (s.setVreg n v).vreg n = v := by
  simp [vreg, setVreg]

theorem vreg_setVreg_ne {n m : BitVec 5} (h : m ≠ n) (v : VWord) : (s.setVreg n v).vreg m = s.vreg m := by
  have : n.toNat ≠ m.toNat := fun e => h (BitVec.eq_of_toNat_eq e.symm)
  simp [vreg, setVreg, this]

end Sys2Proof.Machine.State
end

