-- ==== Sys2Proof/Laws/Answers.lean ====
section
/-! SUPPORT. What each shared operation can answer, said once (execution order, exception protocol, exception taking). -/

namespace Sys2Proof.Machine

/-! ## Answer -/

@[simp] theorem Answer.bind_ok {α β : Type} (a : α) (f : α → Answer β) : (Answer.ok a).bind f = f a := rfl
@[simp] theorem Answer.bind_raise {α β : Type} (x : Exception) (f : α → Answer β) : (Answer.raise x).bind f = .raise x := rfl
@[simp] theorem Answer.bind_refuse {α β : Type} (r : Refusal) (f : α → Answer β) : (Answer.refuse r).bind f = .refuse r := rfl
@[simp] theorem Answer.run_ok {α : Type} (a : α) (s : State) (k : α → Outcome) : (Answer.ok a).run s k = k a := rfl
@[simp] theorem Answer.run_raise {α : Type} (x : Exception) (s : State) (k : α → Outcome) :
    (Answer.raise x).run s k = takeException x s := rfl
@[simp] theorem Answer.run_refuse {α : Type} (r : Refusal) (s : State) (k : α → Outcome) :
    (Answer.refuse r).run s k = .refused r := rfl

theorem Answer.bind_eq_ok {α β : Type} {a : Answer α} {f : α → Answer β} {b : β} (h : a.bind f = .ok b) :
    ∃ v, a = .ok v ∧ f v = .ok b := by
  cases a with
  | ok v => exact ⟨v, rfl, h⟩
  | raise x => cases h
  | refuse r => cases h

/-! ## Taking an exception -/

theorem takeException_ne_next (x : Exception) (s t : State) : takeException x s ≠ .next t := by
  cases x <;> simp [takeException]

theorem takeException_ne_refused (x : Exception) (s : State) (r : Refusal) : takeException x s ≠ .refused r := by
  cases x <;> simp [takeException]

/-- The exception taken, and the state it leaves: only CR2 can differ, and only for a page fault. -/
theorem takeException_eq_fault {x y : Exception} {s t : State} (h : takeException x s = .fault (.exception y t)) :
    y = x ∧ ((∃ code a, x = .pageFault code a ∧ t = { s with cr2 := a }) ∨ ((∀ code a, x ≠ .pageFault code a) ∧ t = s)) := by
  cases x <;> (simp only [takeException, Host.Outcome.fault.injEq, Fault.exception.injEq] at h; obtain ⟨rfl, rfl⟩ := h; simp)

/-- Every state an exception leaves is the state before, with CR2 perhaps written. -/
theorem takeException_state {x y : Exception} {s t : State} (h : takeException x s = .fault (.exception y t)) :
    t = { s with cr2 := t.cr2 } := by
  rcases (takeException_eq_fault h).2 with ⟨_, _, _, rfl⟩ | ⟨_, rfl⟩ <;> rfl

/-! ## The exception protocol -/

/-- The element results that the form's write step is given. -/
def State.results (s : State) (elems : List (Option Word64)) : List (Option (BitVec 32)) :=
  (s.convertAll elems).map fun c => c.map Conv.result

theorem anyInvalid_iff (s : State) (elems : List (Option Word64)) :
    anyInvalid (s.convertAll elems) = true ↔ s.someInvalid elems := by
  simp only [anyInvalid, State.convertAll, List.any_map, List.any_eq_true, State.someInvalid]
  constructor
  · rintro ⟨e, he, h⟩
    cases e with
    | none => simp at h
    | some x => exact ⟨x, he, by simpa using h⟩
  · rintro ⟨x, hx, h⟩
    exact ⟨some x, hx, by simpa using h⟩

theorem anyInexact_iff (s : State) (elems : List (Option Word64)) :
    anyInexact (s.convertAll elems) = true ↔ s.someInexact elems := by
  simp only [anyInexact, State.convertAll, List.any_map, List.any_eq_true, State.someInexact]
  constructor
  · rintro ⟨e, he, h⟩
    cases e with
    | none => simp at h
    | some x => exact ⟨x, he, by simpa using h⟩
  · rintro ⟨x, hx, h⟩
    exact ⟨some x, hx, by simpa using h⟩

theorem retire_sae (len : Nat) (write : List (Option (BitVec 32)) → State → State) (elems : List (Option Word64)) (s : State) :
    retire len true write elems s = .next ((write (s.results elems) s).advance len) := rfl

theorem retire_masked {len : Nat} {write : List (Option (BitVec 32)) → State → State} {elems : List (Option Word64)} {s : State}
    (h : s.unmasked (anyInvalid (s.convertAll elems)) (anyInexact (s.convertAll elems)) = false) :
    retire len false write elems s =
      .next ((write (s.results elems)
        (s.setFlags (anyInvalid (s.convertAll elems)) (anyInexact (s.convertAll elems)))).advance len) := by
  simp [retire, h, State.results]

theorem retire_unmasked {len : Nat} {write : List (Option (BitVec 32)) → State → State} {elems : List (Option Word64)} {s : State}
    (h : s.unmasked (anyInvalid (s.convertAll elems)) (anyInexact (s.convertAll elems)) = true) :
    retire len false write elems s = raiseSimd s (anyInvalid (s.convertAll elems)) (anyInexact (s.convertAll elems)) := by
  simp [retire, h]

/-- Everything the protocol can answer: a completion with or without flags, or the report of an unmasked condition. -/
theorem retire_cases (len : Nat) (sae : Bool) (write : List (Option (BitVec 32)) → State → State)
    (elems : List (Option Word64)) (s : State) :
    (sae = true ∧ retire len sae write elems s = .next ((write (s.results elems) s).advance len)) ∨
    (sae = false ∧ retire len sae write elems s =
      .next ((write (s.results elems)
        (s.setFlags (anyInvalid (s.convertAll elems)) (anyInexact (s.convertAll elems)))).advance len)) ∨
    (sae = false ∧ s.unmasked (anyInvalid (s.convertAll elems)) (anyInexact (s.convertAll elems)) = true ∧
      retire len sae write elems s = raiseSimd s (anyInvalid (s.convertAll elems)) (anyInexact (s.convertAll elems))) := by
  cases sae with
  | true => exact .inl ⟨rfl, retire_sae ..⟩
  | false =>
    cases h : s.unmasked (anyInvalid (s.convertAll elems)) (anyInexact (s.convertAll elems)) with
    | true => exact .inr (.inr ⟨rfl, rfl, retire_unmasked h⟩)
    | false => exact .inr (.inl ⟨rfl, retire_masked h⟩)

/-! ## The order of checks -/

/-- Past every check, an execution is its protocol. -/
theorem execForm_ready {s : State} {len vl : Nat} {ud sae : Bool} {elems : List (Option Word64)}
    {write : List (Option (BitVec 32)) → State → State} (hlen : len ≤ maxInstrLength) (hud : ud = false) (hts : s.cr0TS = false)
    (hvl : vl ≤ s.impl.maxvl.bits) :
    execForm s len vl ud sae (.ok elems) write = retire len sae write elems s := by
  have h1 : ¬ maxInstrLength < len := by omega
  have h2 : ¬ s.impl.maxvl.bits < vl := by omega
  simp [execForm, h1, h2, hud, hts]

/-- An execution that completes passed every check, read its operand, and met no unmasked condition. -/
theorem execForm_next {s t : State} {len vl : Nat} {ud sae : Bool} {source : Answer (List (Option Word64))}
    {write : List (Option (BitVec 32)) → State → State} (h : execForm s len vl ud sae source write = .next t) :
    len ≤ maxInstrLength ∧ ud = false ∧ s.cr0TS = false ∧ vl ≤ s.impl.maxvl.bits ∧
      ∃ elems, source = .ok elems ∧ retire len sae write elems s = .next t := by
  unfold execForm at h
  split at h
  · exact absurd h (takeException_ne_next _ _ _)
  split at h
  · exact absurd h (takeException_ne_next _ _ _)
  split at h
  · exact absurd h (takeException_ne_next _ _ _)
  split at h
  · cases h
  cases source with
  | ok elems => exact ⟨by omega, by simp_all, by simp_all, by omega, elems, rfl, h⟩
  | raise x => exact absurd h (takeException_ne_next _ _ _)
  | refuse r => cases h

/-- An execution that ends in an exception leaves the state before it, but for MXCSR, CR2 and the count of draws. -/
theorem execForm_fault {s t : State} {x : Exception} {len vl : Nat} {ud sae : Bool} {source : Answer (List (Option Word64))}
    {write : List (Option (BitVec 32)) → State → State}
    (h : execForm s len vl ud sae source write = .fault (.exception x t)) :
    t = { s with cr2 := t.cr2 } ∨
      ∃ elems, source = .ok elems ∧ sae = false ∧
        s.unmasked (anyInvalid (s.convertAll elems)) (anyInexact (s.convertAll elems)) = true ∧
        raiseSimd s (anyInvalid (s.convertAll elems)) (anyInexact (s.convertAll elems)) = .fault (.exception x t) := by
  unfold execForm at h
  split at h
  · exact .inl (takeException_state h)
  split at h
  · exact .inl (takeException_state h)
  split at h
  · exact .inl (takeException_state h)
  split at h
  · cases h
  cases source with
  | ok elems =>
    simp only [Answer.run_ok] at h
    rcases retire_cases len sae write elems s with ⟨_, e⟩ | ⟨_, e⟩ | ⟨hs, hu, e⟩
    · rw [e] at h; cases h
    · rw [e] at h; cases h
    · exact .inr ⟨elems, rfl, hs, hu, e ▸ h⟩
  | raise y => exact .inl (takeException_state h)
  | refuse r => cases h

/-! ## Every form at once -/

/-- Every execution is the shared order of checks, with a write step that only writes the destination register. -/
theorem exec_eq_execForm (i : Instr) :
    ∃ f : VWord → List (Option (BitVec 32)) → VWord, ∀ s,
      exec i s = execForm s i.length (Instr.vl i) (s.undefinedFor i) (Instr.suppressed i) (s.source i)
        fun rs t => t.setVreg (Instr.destination i) (f (t.vreg (Instr.destination i)) rs) := by
  cases i with
  | cvttpd2dq o => exact ⟨destLegacy, fun _ => rfl⟩
  | vcvttpd2dqVex128 o => exact ⟨fun _ rs => destVex rs, fun _ => rfl⟩
  | vcvttpd2dqVex256 o => exact ⟨fun _ rs => destVex rs, fun _ => rfl⟩
  | vcvttpd2dqEvex128 o => exact ⟨fun old rs => destEvex old o.zeroing rs, fun _ => rfl⟩
  | vcvttpd2dqEvex256 o => exact ⟨fun old rs => destEvex old o.zeroing rs, fun _ => rfl⟩
  | vcvttpd2dqEvex512 o => exact ⟨fun old rs => destEvex old o.zeroing rs, fun _ => rfl⟩

/-- What a completed execution did: every check passed, the source was read, one vector register was written, and without `{sae}` the
detected conditions went into MXCSR. -/
theorem exec_next {i : Instr} {s t : State} (h : exec i s = .next t) :
    s.ready i ∧ ∃ elems v, s.source i = .ok elems ∧
      ((Instr.suppressed i = true ∧ t = (s.setVreg (Instr.destination i) v).advance i.length) ∨
        (Instr.suppressed i = false ∧
          t = ((s.setFlags (anyInvalid (s.convertAll elems)) (anyInexact (s.convertAll elems))).setVreg
            (Instr.destination i) v).advance i.length)) := by
  obtain ⟨f, he⟩ := exec_eq_execForm i
  rw [he] at h
  obtain ⟨h1, h2, h3, h4, elems, h5, h6⟩ := execForm_next h
  have old (ie pe : Bool) : (s.setFlags ie pe).vreg (Instr.destination i) = s.vreg (Instr.destination i) := rfl
  refine ⟨⟨h1, h2, h3, h4⟩, elems, f (s.vreg (Instr.destination i)) (s.results elems), h5, ?_⟩
  rcases retire_cases i.length (Instr.suppressed i)
      (fun rs t => t.setVreg (Instr.destination i) (f (t.vreg (Instr.destination i)) rs)) elems s with
    ⟨hs, e⟩ | ⟨hs, e⟩ | ⟨hs, hu, e⟩
  · rw [e] at h6; cases h6; exact .inl ⟨hs, rfl⟩
  · rw [e] at h6; cases h6; exact .inr ⟨hs, by rw [old]⟩
  · rw [e, raiseSimd] at h6; exact absurd h6 (takeException_ne_next _ _ _)

end Sys2Proof.Machine
end

