-- ==== Sys2Proof/Laws/Decode.lean ====
section
/-! SUPPORT. The parts of decoding and encoding: each part is read back from its bytes, and what each part of the decoder can answer. -/

namespace Sys2Proof

theorem hasPrefix_iff {p pre} : hasPrefix p pre = true ↔ p ∈ pre := by simp [hasPrefix]

theorem hasRex_iff {pre} : hasRex pre = true ↔ ∃ w, .rex w ∈ pre := by
  induction pre with
  | nil => simp [hasRex]
  | cons p t ih => cases p <;> simp [hasRex, ih]

/-- The `mod` field of a ModRM byte. -/
theorem fieldByte_mod (hi : BitVec 2) (m l : BitVec 3) : (fieldByte hi m l).extractLsb' 6 2 = hi := by revert hi m l; decide

theorem fieldByte_reg (hi : BitVec 2) (m l : BitVec 3) : (fieldByte hi m l).extractLsb' 3 3 = m := by revert hi m l; decide

theorem fieldByte_rm (hi : BitVec 2) (m l : BitVec 3) : (fieldByte hi m l).extractLsb' 0 3 = l := by revert hi m l; decide

/-- A two-byte displacement is read back. -/
theorem takeD16_leBytes (d : BitVec 16) (r) : takeD16 (leBytes d 2 ++ r) = some (d, r) := by
  simp only [leBytes, List.cons_append, List.nil_append, takeD16]
  congr 2
  apply BitVec.eq_of_getLsbD_eq; intro k hk
  simp only [BitVec.getLsbD_append, BitVec.getLsbD_extractLsb', BitVec.getLsbD_ushiftRight]
  by_cases h : k < 8
  · simp [h]
  · simp [h, show k - 8 < 8 by omega, show 8 + (k-8) = k by omega]

/-- A four-byte displacement is read back. -/
theorem takeD32_leBytes (d : BitVec 32) (r) : takeD32 (leBytes d 4 ++ r) = some (d, r) := by
  simp only [leBytes, List.cons_append, List.nil_append, takeD32]
  congr 2
  apply BitVec.eq_of_getLsbD_eq; intro k hk
  simp only [BitVec.getLsbD_append, BitVec.getLsbD_extractLsb', BitVec.getLsbD_ushiftRight]
  by_cases h : k < 8
  · simp [h]
  by_cases h1 : k < 16
  · simp [h, show k - 8 < 8 by omega, show 8 + (k-8) = k by omega]
  by_cases h2 : k < 24
  · simp [h, show ¬ k - 8 < 8 by omega, show k-8-8 < 8 by omega, show 8 + (8 + (k-8-8)) = k by omega]
  · simp [h, show ¬ k - 8 < 8 by omega, show ¬ k-8-8 < 8 by omega, show k -8-8-8 < 8 by omega, show 8 + (8 + (8+ (k-8-8-8))) = k by omega]

/-- A displacement is read back under its own `mod`. -/
theorem takeDisp_bytes (needed) (d : Disp) (h : dispOk needed d = true) (r) : takeDisp d.modField (d.bytes ++ r) = some (d, r) := by
  cases d with
  | none => rfl
  | d8 v => rfl
  | d16 v => simp [dispOk] at h
  | d32 v => simp [takeDisp, Disp.modField, Disp.bytes, takeD32_leBytes]

theorem takeDisp16_bytes (needed) (d : Disp) (h : disp16Ok needed d = true) (r) : takeDisp16 d.modField (d.bytes ++ r) = some (d, r) := by
  cases d with
  | none => rfl
  | d8 v => rfl
  | d32 v => simp [disp16Ok] at h
  | d16 v => simp [takeDisp16, Disp.modField, Disp.bytes, takeD16_leBytes]

theorem ofBool_append_low3 (n : BitVec 4) : BitVec.ofBool (n.getLsbD 3) ++ low3 n = n := by revert n; decide

theorem modField_zero {needed d} (h : dispOk needed d = true) : d.modField = 0 → needed = false := by
  cases d <;> simp_all [dispOk, Disp.modField]

theorem modField_ne_three (d : Disp) : d.modField ≠ 3 := by cases d <;> simp [Disp.modField]

theorem modField16_zero {needed d} (h : disp16Ok needed d = true) : d.modField = 0 → needed = false := by
  cases d <;> simp_all [disp16Ok, Disp.modField]

/-- A memory operand's bytes start with a ModRM byte that is no register form. -/
theorem memBytes_head (m : MemRef) (reg : BitVec 3) : ∃ h t, m.bytes reg = h :: t ∧ modrmIsReg h = false ∧ modrmReg h = reg := by
  have key : ∀ (d : BitVec 2) (l : BitVec 3), d ≠ 3 → modrmIsReg (fieldByte d reg l) = false ∧ modrmReg (fieldByte d reg l) = reg := by
    intro d l hd; simp [modrmIsReg, modrmReg, fieldByte_mod, fieldByte_reg]; exact hd
  cases m <;> refine ⟨_, _, rfl, ?_⟩ <;> apply key <;> first | exact modField_ne_three _ | decide

/-- A memory operand is read back from its bytes. -/
theorem decodeMem_bytes (mode asz) (ext : Bool) (m : MemRef) (reg : BitVec 3) (x b : Bool) (hx : x = (ext && m.extX)) (hb : b = (ext && m.extB)) (h : memOk mode asz ext m = true) (hasz : mode = .long64 → asz ≠ .a16) (r : List Byte) :
   ∃ hd t, m.bytes reg ++ r = hd :: t ∧ decodeMem mode asz x b hd t = some (m, r) := by
  cases m with
  | base bb d =>
    refine ⟨_, _, rfl, ?_⟩
    simp only [memOk, gprOk, Bool.and_eq_true, decide_eq_true_eq, Bool.or_eq_true, Bool.not_eq_true'] at h
    obtain ⟨⟨⟨h1, h2⟩, h3⟩, h4⟩ := h
    have hbb : BitVec.ofBool b ++ low3 bb = bb := by
      have : b = bb.getLsbD 3 := by rw [hb]; simp only [MemRef.extB]; rcases h2 with h2 | h2 <;> rw [h2] <;> simp
      rw [this, ofBool_append_low3]
    have hz := modField_zero h4
    simp only [decodeMem, fieldByte_mod, fieldByte_rm, List.append_eq]
    cases asz with
    | a16 => simp at h1
    | a32 | a64 =>
      simp only [decodeMem32, h3, if_false]
      rw [if_neg, takeDisp_bytes _ _ h4]; simp [hbb]
      rintro ⟨c1, c2⟩; have := hz c1; simp [c2] at this
  | sib sc ix bb d =>
    refine ⟨_, _, rfl, ?_⟩
    simp only [memOk, gprOk, Bool.and_eq_true, decide_eq_true_eq, Bool.or_eq_true, Bool.not_eq_true'] at h
    obtain ⟨⟨⟨h1, h2⟩, h3⟩, h4⟩ := h
    have hbb : BitVec.ofBool b ++ low3 bb = bb := by
      have : b = bb.getLsbD 3 := by rw [hb]; simp only [MemRef.extB]; rcases h3 with h2 | h2 <;> rw [h2] <;> simp
      rw [this, ofBool_append_low3]
    have hix : BitVec.ofBool x ++ low3 ix = ix := by
      have : x = ix.getLsbD 3 := by rw [hx]; simp only [MemRef.extX]; rcases h2 with h2 | h2 <;> rw [h2] <;> simp
      rw [this, ofBool_append_low3]
    have hz := modField_zero h4
    simp only [decodeMem, fieldByte_mod, fieldByte_rm, List.append_eq, List.cons_append]
    cases asz with
    | a16 => simp at h1
    | a32 | a64 =>
      simp only [decodeMem32, if_true, decodeSib, fieldByte_mod, fieldByte_rm, fieldByte_reg, hix, hbb]
      rw [if_neg, takeDisp_bytes _ _ h4]; simp
      rintro ⟨c1, c2⟩; have := hz c2; simp [c1] at this
  | sibNoBase sc ix d =>
    refine ⟨_, _, rfl, ?_⟩
    simp only [memOk, gprOk, Bool.and_eq_true, decide_eq_true_eq, Bool.or_eq_true, Bool.not_eq_true'] at h
    obtain ⟨h1, h2⟩ := h
    have hix : BitVec.ofBool x ++ low3 ix = ix := by
      have : x = ix.getLsbD 3 := by rw [hx]; simp only [MemRef.extX]; rcases h2 with h2 | h2 <;> rw [h2] <;> simp
      rw [this, ofBool_append_low3]
    simp only [decodeMem, fieldByte_mod, fieldByte_rm, List.append_eq, List.cons_append]
    cases asz with
    | a16 => simp at h1
    | a32 | a64 =>
      simp only [decodeMem32, if_true, decodeSib, fieldByte_mod, fieldByte_rm, fieldByte_reg, hix]
      simp [takeD32_leBytes]
  | ripRel d =>
    refine ⟨_, _, rfl, ?_⟩
    simp only [memOk, decide_eq_true_eq] at h
    simp only [decodeMem, fieldByte_mod, fieldByte_rm, List.append_eq]
    cases asz with
    | a16 => exact absurd rfl (hasz h)
    | a32 | a64 => simp [decodeMem32, takeD32_leBytes, h]
  | disp32 d =>
    refine ⟨_, _, rfl, ?_⟩
    simp only [memOk, Bool.and_eq_true, decide_eq_true_eq] at h
    simp only [decodeMem, fieldByte_mod, fieldByte_rm, List.append_eq]
    cases asz with
    | a16 => simp at h
    | a32 | a64 => simp [decodeMem32, takeD32_leBytes, h.1]
  | addr16 rm d =>
    refine ⟨_, _, rfl, ?_⟩
    simp only [memOk, Bool.and_eq_true, decide_eq_true_eq] at h
    obtain ⟨rfl, h4⟩ := h
    have hz := modField16_zero h4
    simp only [decodeMem, fieldByte_mod, fieldByte_rm, decodeMem16, List.append_eq]
    rw [if_neg, takeDisp16_bytes _ _ h4]; simp
    rintro ⟨c1, c2⟩; have := hz c1; simp [c2] at this
  | disp16 d =>
    refine ⟨_, _, rfl, ?_⟩
    simp only [memOk, decide_eq_true_eq] at h
    subst h
    simp [decodeMem, fieldByte_mod, fieldByte_rm, decodeMem16, takeD16_leBytes]

theorem addrSizeOf_long64 (mode pre) : mode = Config.Mode.long64 → addrSizeOf mode pre ≠ .a16 := by
  rintro rfl; simp only [addrSizeOf]; split <;> simp

theorem regNumber_bits (n : BitVec 5) : regNumber (n.getLsbD 4) (n.getLsbD 3) (low3 n) = n := by revert n; decide

/-- A source is read back from its bytes. -/
theorem decodeRm_bytes (mode pre) (ext : Bool) (lim : Nat) (src : RmSource) (reg : BitVec 3) (x b : Bool) (hlim : lim = if ext then 16 else 8) (hx : x = (ext && src.extX) ∨ (∃ n, src = .reg n)) (hb : b = (ext && src.extB)) (h : srcOk mode (addrSizeOf mode pre) ext lim src = true) (r : List Byte) :
   ∃ hd t, src.bytes reg ++ r = hd :: t ∧ modrmReg hd = reg ∧ decodeRm mode (addrSizeOf mode pre) x b hd t = some (src, r) := by
  cases src with
  | reg n =>
    refine ⟨_, _, rfl, fieldByte_reg .., ?_⟩
    simp only [decodeRm, modrmIsReg, fieldByte_mod, fieldByte_rm, List.append_eq, List.nil_append]
    simp only [srcOk, vregOk, decide_eq_true_eq] at h
    rw [hb]; simp only [RmSource.extB]
    have : ∀ n : BitVec 5, n.toNat < 8 → regNumber false false (low3 n) = n := by decide
    have : ∀ n : BitVec 5, n.toNat < 16 → regNumber false (n.getLsbD 3) (low3 n) = n := by decide
    cases ext <;> simp_all
  | mem m =>
    rcases hx with hx | ⟨n, hx⟩
    rotate_left
    · cases hx
    obtain ⟨hd, t, e, e2⟩ := decodeMem_bytes mode (addrSizeOf mode pre) ext m reg x b hx hb h (addrSizeOf_long64 _ _) r
    obtain ⟨h2, t2, f, f1, f2⟩ := memBytes_head m reg
    refine ⟨hd, t, e, ?_⟩
    have : hd = h2 := by rw [f] at e; simp at e; exact e.1.symm
    subst this
    refine ⟨f2, ?_⟩
    simp [decodeRm, f1, e2]

theorem prefixOf_prefixByte (mode) (p : LegacyPrefix) (h : mode = .long64 ∨ ∀ w, p ≠ .rex w) : prefixOf mode (prefixByte p) = some p := by
  cases p with
  | rex w => 
    rcases h with rfl | h
    · revert w; decide
    · exact absurd rfl (h w)
  | segment n => cases n <;> cases mode <;> rfl
  | opSize => rfl
  | addrSize => rfl
  | lock => rfl
  | repne => rfl
  | rep => rfl

/-- Prefixes are read back, up to a byte that is none. -/
theorem splitPrefixes_bytes (mode) (pre : List LegacyPrefix) (h : prefixesOk mode pre = true) (b : Byte) (hb : prefixOf mode b = none) (r) : splitPrefixes mode (pre.map prefixByte ++ b :: r) = (pre, b :: r) := by
  induction pre with
  | nil => simp [splitPrefixes, hb]
  | cons p t ih =>
    have hp : mode = .long64 ∨ ∀ w, p ≠ .rex w := by
      simp only [prefixesOk, Bool.or_eq_true, decide_eq_true_eq, Bool.not_eq_true'] at h
      rcases h with h | h
      · exact .inl h
      · right; rintro w rfl; simp [hasRex] at h
    have ht : prefixesOk mode t = true := by
      simp only [prefixesOk, Bool.or_eq_true, decide_eq_true_eq, Bool.not_eq_true'] at h ⊢
      rcases h with h | h
      · exact .inl h
      · right; cases p <;> simp_all [hasRex]
    simp [splitPrefixes, prefixOf_prefixByte mode p hp, ih ht]

theorem splitRex_snoc (pre w) : splitRex (pre ++ [.rex w]) = (pre, some w) := by
  induction pre with
  | nil => rfl
  | cons p t ih =>
    cases t with
    | nil => cases p <;> simp [splitRex]
    | cons q t => 
      have : ∀ p (l : List LegacyPrefix), l ≠ [] → splitRex (p :: l) = (p :: (splitRex l).1, (splitRex l).2) := by
        intro p l hl; cases l with
        | nil => exact absurd rfl hl
        | cons a l => cases p <;> rfl
      rw [List.cons_append, this _ _ (by simp), ih]

theorem splitRex_of_none (pre) (h : (splitRex pre).2 = none) : (splitRex pre).1 = pre := by
  induction pre with
  | nil => rfl
  | cons p t ih =>
    cases t with
    | nil => cases p <;> simp_all [splitRex]
    | cons q t =>
      have : splitRex (p :: q :: t) = (p :: (splitRex (q::t)).1, (splitRex (q::t)).2) := by cases p <;> rfl
      rw [this] at h ⊢
      rw [ih h]

theorem hasPrefix_append (p pre q) : hasPrefix p (pre ++ [q]) = (hasPrefix p pre || decide (p = q)) := by
  rw [Bool.eq_iff_iff]; simp [hasPrefix_iff]

theorem addrSizeOf_append_rex (mode pre w) : addrSizeOf mode (pre ++ [.rex w]) = addrSizeOf mode pre := by
  simp [addrSizeOf, hasPrefix_append]

theorem takeD16_split {bs d r} (h : takeD16 bs = some (d, r)) : ∃ hd, bs = hd ++ r ∧ hd.length = 2 := by
  unfold takeD16 at h; split at h
  · rename_i a b _; simp at h; exact ⟨[a, b], by simp [h.2], rfl⟩
  · cases h

theorem takeD32_split {bs d r} (h : takeD32 bs = some (d, r)) : ∃ hd, bs = hd ++ r ∧ hd.length = 4 := by
  unfold takeD32 at h; split at h
  · rename_i a b c d _; simp at h; exact ⟨[a, b, c, d], by simp [h.2], rfl⟩
  · cases h

theorem takeD8_split {bs d r} (h : takeD8 bs = some (d, r)) : ∃ v hd, d = .d8 v ∧ bs = hd ++ r ∧ hd.length = 1 := by
  unfold takeD8 at h; split at h
  · rename_i a _; simp at h; exact ⟨a, [a], h.1.symm, by simp [h.2], rfl⟩
  · cases h

/-- What reading a displacement can answer. -/
theorem takeDisp_split {md : BitVec 2} {bs d r} (h : takeDisp md bs = some (d, r)) : (∃ hd, bs = hd ++ r ∧ hd.length = d.length) ∧ ∀ n, (n = true → md ≠ 0) → dispOk n d = true := by
  unfold takeDisp at h
  split at h
  · simp at h; obtain ⟨rfl, rfl⟩ := h; refine ⟨⟨[], rfl, rfl⟩, fun n hn => ?_⟩; cases n <;> simp_all [dispOk]
  split at h
  · obtain ⟨v, hd, rfl, h1, h2⟩ := takeD8_split h; exact ⟨⟨hd, h1, h2⟩, fun _ _ => rfl⟩
  · obtain ⟨⟨a, b⟩, h1, h2⟩ := Option.map_eq_some_iff.1 h
    simp at h2; obtain ⟨rfl, rfl⟩ := h2
    obtain ⟨hd, e1, e2⟩ := takeD32_split h1
    exact ⟨⟨hd, e1, e2⟩, fun _ _ => rfl⟩

theorem takeDisp16_split {md : BitVec 2} {bs d r} (h : takeDisp16 md bs = some (d, r)) : (∃ hd, bs = hd ++ r ∧ hd.length = d.length) ∧ ∀ n, (n = true → md ≠ 0) → disp16Ok n d = true := by
  unfold takeDisp16 at h
  split at h
  · simp at h; obtain ⟨rfl, rfl⟩ := h; refine ⟨⟨[], rfl, rfl⟩, fun n hn => ?_⟩; cases n <;> simp_all [disp16Ok]
  split at h
  · obtain ⟨v, hd, rfl, h1, h2⟩ := takeD8_split h; exact ⟨⟨hd, h1, h2⟩, fun _ _ => rfl⟩
  · obtain ⟨⟨a, b⟩, h1, h2⟩ := Option.map_eq_some_iff.1 h
    simp at h2; obtain ⟨rfl, rfl⟩ := h2
    obtain ⟨hd, e1, e2⟩ := takeD16_split h1
    exact ⟨⟨hd, e1, e2⟩, fun _ _ => rfl⟩

theorem low3_ofBool_append (b : Bool) (x : BitVec 3) : low3 (BitVec.ofBool b ++ x) = x ∧ (BitVec.ofBool b ++ x : BitVec 4).getLsbD 3 = b := by revert b x; decide

/-- What reading a memory operand can answer: an encodable one, which took its length. -/
theorem decodeMem_split {mode asz} {ext x b : Bool} {md : Byte} {bs m r} (hx : x = true → ext = true) (hb : b = true → ext = true) (h : decodeMem mode asz x b md bs = some (m, r)) :
  (∃ hd, bs = hd ++ r ∧ hd.length = m.length) ∧ memOk mode asz ext m = true := by
  have g1 : ∀ (c : Bool) (y : BitVec 3), (c = true → ext = true) → gprOk ext (BitVec.ofBool c ++ y) = true := by
    intro c y hc; unfold gprOk; rw [(low3_ofBool_append c y).2]; cases c <;> cases ext <;> simp_all
  unfold decodeMem at h
  cases asz with
  | a16 =>
    simp only [decodeMem16] at h
    split at h
    · obtain ⟨⟨a, b⟩, h1, h2⟩ := Option.map_eq_some_iff.1 h
      simp at h2; obtain ⟨rfl, rfl⟩ := h2
      exact ⟨takeD16_split h1, by simp [memOk]⟩
    · rename_i hc
      obtain ⟨⟨a, b⟩, h1, h2⟩ := Option.map_eq_some_iff.1 h
      simp at h2; obtain ⟨rfl, rfl⟩ := h2
      have := takeDisp16_split h1
      refine ⟨this.1, ?_⟩
      simp only [memOk, decide_true, Bool.true_and]
      apply this.2; intro h h2; exact hc ⟨h2, by simpa using h⟩
  | a32 | a64 =>
    simp only [decodeMem32] at h
    split at h
    · unfold decodeSib at h
      split at h
      · cases h
      · simp only at h
        split at h
        · obtain ⟨⟨a, b⟩, h1, h2⟩ := Option.map_eq_some_iff.1 h
          simp at h2; obtain ⟨rfl, rfl⟩ := h2
          obtain ⟨hd, e1, e2⟩ := takeD32_split h1
          refine ⟨⟨_ :: hd, by rw [e1]; rfl, by simp [e2, MemRef.length]⟩, ?_⟩
          simp [memOk, g1 _ _ hx]
        · rename_i hc
          obtain ⟨⟨a, b⟩, h1, h2⟩ := Option.map_eq_some_iff.1 h
          simp at h2; obtain ⟨rfl, rfl⟩ := h2
          obtain ⟨⟨hd, e1, e2⟩, e3⟩ := takeDisp_split h1
          refine ⟨⟨_ :: hd, by rw [e1]; rfl, by simp [e2, MemRef.length]; omega⟩, ?_⟩
          simp only [memOk, g1 _ _ hx, g1 _ _ hb, (low3_ofBool_append _ _).1]
          simp
          apply e3; intro h h2; exact hc ⟨by simpa using h, h2⟩
    split at h
    · obtain ⟨⟨a, b⟩, h1, h2⟩ := Option.map_eq_some_iff.1 h
      simp at h2; obtain ⟨rfl, rfl⟩ := h2
      obtain ⟨hd, e1, e2⟩ := takeD32_split h1
      split
      · exact ⟨⟨hd, e1, e2⟩, by simp [memOk, *]⟩
      · exact ⟨⟨hd, e1, e2⟩, by simp [memOk, *]⟩
    · rename_i h4 hc
      obtain ⟨⟨a, b⟩, h1, h2⟩ := Option.map_eq_some_iff.1 h
      simp at h2; obtain ⟨rfl, rfl⟩ := h2
      obtain ⟨⟨hd, e1, e2⟩, e3⟩ := takeDisp_split h1
      refine ⟨⟨hd, e1, e2⟩, ?_⟩
      have h5 : dispOk (md.extractLsb' 0 3 == 5#3) a = true := by
        apply e3; intro h h2; exact hc ⟨h2, by simpa using h⟩
      simp only [memOk, g1 _ _ hb, (low3_ofBool_append _ _).1, ne_eq, h4, h5]
      rfl

/-- The value of a register number. -/
theorem regNumber_toNat (a b : Bool) (x : BitVec 3) : (regNumber a b x).toNat = (if a then 16 else 0) + (if b then 8 else 0) + x.toNat := by revert a b x; decide

/-- What reading a source can answer. -/
theorem decodeRm_split {mode asz} {ext x b : Bool} {md : Byte} {bs m r} (lim : Nat) (hlim : lim = if ext then 16 else 8) (hx : x = true → ext = true) (hb : b = true → ext = true) (h : decodeRm mode asz x b md bs = some (m, r)) :
  (∃ hd, md :: bs = hd ++ r ∧ hd.length = m.length) ∧ srcOk mode asz ext lim m = true := by
  unfold decodeRm at h
  split at h
  · simp at h; obtain ⟨rfl, rfl⟩ := h
    refine ⟨⟨[md], rfl, rfl⟩, ?_⟩
    simp only [srcOk, vregOk, regNumber_toNat, hlim, decide_eq_true_eq]
    have := (md.extractLsb' 0 3).isLt
    cases b <;> cases ext <;> simp_all
    all_goals omega
  · obtain ⟨⟨a, b⟩, h1, h2⟩ := Option.map_eq_some_iff.1 h
    simp at h2; obtain ⟨rfl, rfl⟩ := h2
    obtain ⟨⟨hd, e1, e2⟩, e3⟩ := decodeMem_split hx hb h1
    exact ⟨⟨md :: hd, by rw [e1]; rfl, by simp [e2, RmSource.length]; omega⟩, e3⟩

theorem prefixOf_not_rex (mode : Config.Mode) (hm : mode ≠ .long64) : ∀ b : Byte, (match prefixOf mode b with | some (.rex _) => false | _ => true) = true := by
  cases mode
  · exact absurd rfl hm
  all_goals decide

theorem prefixOf_ne_rex {mode b p} (h : prefixOf mode b = some p) (hm : mode ≠ .long64) : ∀ w, p ≠ .rex w := by
  intro w hw; subst hw
  have := prefixOf_not_rex mode hm b
  rw [h] at this; simp at this

/-- What splitting off the prefixes can answer. -/
theorem splitPrefixes_split (mode) : ∀ bs, ∃ hd, bs = hd ++ (splitPrefixes mode bs).2 ∧ hd.length = (splitPrefixes mode bs).1.length ∧ prefixesOk mode (splitPrefixes mode bs).1 = true := by
  intro bs
  induction bs with
  | nil => exact ⟨[], rfl, rfl, by cases mode <;> rfl⟩
  | cons b t ih =>
    unfold splitPrefixes
    cases hp : prefixOf mode b with
    | none => exact ⟨[], rfl, rfl, by cases mode <;> rfl⟩
    | some p =>
      obtain ⟨hd, e1, e2, e3⟩ := ih
      refine ⟨b :: hd, by simp; exact e1, by simp [e2], ?_⟩
      simp only [prefixesOk, Bool.or_eq_true, decide_eq_true_eq, Bool.not_eq_true'] at e3 ⊢
      rcases e3 with h | h
      · exact .inl h
      · by_cases hm : mode = .long64
        · exact .inl hm
        · right
          have := prefixOf_ne_rex hp hm
          cases p with
          | rex w => exact absurd rfl (this w)
          | _ => exact h

/-- The effective REX byte is the last prefix. -/
theorem splitRex_of_some {l w} (h : (splitRex l).2 = some w) : l = (splitRex l).1 ++ [.rex w] := by
  induction l with
  | nil => simp [splitRex] at h
  | cons p t ih =>
    cases t with
    | nil => cases p <;> simp_all [splitRex]
    | cons q t =>
      have : splitRex (p :: q :: t) = (p :: (splitRex (q::t)).1, (splitRex (q::t)).2) := by cases p <;> rfl
      rw [this] at h ⊢
      rw [List.cons_append, ← ih h]

theorem prefixesOk_left {mode pre q} (h : prefixesOk mode (pre ++ q) = true) : prefixesOk mode pre = true := by
  simp only [prefixesOk, Bool.or_eq_true, decide_eq_true_eq, Bool.not_eq_true'] at h ⊢
  rcases h with h | h
  · exact .inl h
  · right
    rw [Bool.eq_false_iff] at h ⊢
    intro hc; apply h; rw [hasRex_iff] at hc ⊢
    obtain ⟨w, hw⟩ := hc; exact ⟨w, by simp [hw]⟩

end Sys2Proof
end

