-- ==== Sys2Proof/Laws/Memory.lean ====
section
/-! SUPPORT. The laws of memory: read after write, and that every memory operation keeps the canonical form. -/

namespace Sys2Proof.Machine

variable {m : List Host.Cell}

theorem memRead_of_lt (addr : Nat) (h : ∀ c ∈ m, addr < c.1) : memRead m addr = unlistedByte := by
  induction m with
  | nil => rfl
  | cons c rest ih =>
    have : c.1 ≠ addr := by have := h c (by simp); omega
    simp [memRead, this, ih fun d hd => h d (by simp [hd])]

theorem memErase_subset (addr : Nat) : ∀ c ∈ memErase m addr, c ∈ m := by
  induction m with
  | nil => simp [memErase]
  | cons c rest ih =>
    intro d hd
    simp only [memErase] at hd
    split at hd
    · simp [hd]
    · rcases List.mem_cons.1 hd with rfl | hd
      · simp
      · simp [ih d hd]

theorem memInsert_mem (addr : Nat) (b : Byte) : ∀ c ∈ memInsert m addr b, c = (addr, b) ∨ c ∈ m := by
  induction m with
  | nil => simp [memInsert]
  | cons c rest ih =>
    intro d hd
    simp only [memInsert] at hd
    split at hd
    · simpa using hd
    · split at hd
      · rcases List.mem_cons.1 hd with rfl | hd <;> simp_all
      · rcases List.mem_cons.1 hd with rfl | hd
        · simp
        · rcases ih d hd with h | h <;> simp [h]

theorem memErase_wf (addr : Nat) (h : memWf m) : memWf (memErase m addr) := by
  refine ⟨?_, fun c hc => h.2 c (memErase_subset addr c hc)⟩
  have hs := h.1
  clear h
  induction m with
  | nil => exact hs
  | cons c rest ih =>
    simp only [memErase]
    split
    · exact (List.pairwise_cons.1 hs).2
    · refine List.pairwise_cons.2 ⟨fun d hd => (List.pairwise_cons.1 hs).1 d (memErase_subset addr d hd), ih ?_⟩
      exact (List.pairwise_cons.1 hs).2

theorem memInsert_wf (addr : Nat) {b : Byte} (hb : b ≠ unlistedByte) (h : memWf m) : memWf (memInsert m addr b) := by
  refine ⟨?_, fun c hc => ?_⟩
  · have hs := h.1
    clear h
    induction m with
    | nil => simp [memInsert]
    | cons c rest ih =>
      have ⟨h1, h2⟩ := List.pairwise_cons.1 hs
      simp only [memInsert]
      split
      · refine List.pairwise_cons.2 ⟨fun d hd => ?_, hs⟩
        rcases List.mem_cons.1 hd with rfl | hd
        · assumption
        · exact Nat.lt_trans (by assumption) (h1 d hd)
      · split
        · refine List.pairwise_cons.2 ⟨fun d hd => ?_, h2⟩
          have := h1 d hd
          simp_all
        · refine List.pairwise_cons.2 ⟨fun d hd => ?_, ih h2⟩
          rcases memInsert_mem addr b d hd with rfl | hd
          · simp; omega
          · exact h1 d hd
  · rcases memInsert_mem addr b c hc with rfl | hc
    · exact hb
    · exact h.2 c hc

/-- A write keeps the canonical form. -/
theorem memWrite_wf (addr : Nat) (b : Byte) (h : memWf m) : memWf (memWrite m addr b) := by
  unfold memWrite
  split
  · exact memErase_wf addr h
  · exact memInsert_wf addr (by assumption) h

theorem memRead_memErase (addr x : Nat) (h : memWf m) :
    memRead (memErase m addr) x = if x = addr then unlistedByte else memRead m x := by
  obtain ⟨hs, hv⟩ := h
  induction m with
  | nil => simp [memErase, memRead]
  | cons c rest ih =>
    have ⟨h1, h2⟩ := List.pairwise_cons.1 hs
    have ih := ih h2 fun d hd => hv d (by simp [hd])
    simp only [memErase]
    by_cases hc : c.1 = addr
    · by_cases hx : x = addr
      · subst hc; subst hx; simpa using memRead_of_lt _ h1
      · simp [hc, hx, memRead, Ne.symm hx]
    · by_cases hx : c.1 = x
      · have : x ≠ addr := hx ▸ hc
        simp [memRead, hx, this]
      · simp [hc, memRead, hx, ih]

theorem memRead_memInsert (addr x : Nat) (b : Byte) (h : memWf m) :
    memRead (memInsert m addr b) x = if x = addr then b else memRead m x := by
  obtain ⟨hs, hv⟩ := h
  induction m with
  | nil =>
    by_cases hx : x = addr
    · simp [memInsert, memRead, hx]
    · simp [memInsert, memRead, hx, Ne.symm hx]
  | cons c rest ih =>
    have ⟨h1, h2⟩ := List.pairwise_cons.1 hs
    have ih := ih h2 fun d hd => hv d (by simp [hd])
    simp only [memInsert]
    by_cases hx : x = addr
    · subst hx
      split
      · simp [memRead]
      · split
        · simp [memRead]
        · simp_all [memRead]
    · split
      · simp [memRead, Ne.symm hx]
      · split
        · simp_all [memRead, Ne.symm hx]
        · by_cases hcx : c.1 = x <;> simp [memRead, hcx, hx, ih]

/-- Reading after a write: the written byte at its address, every other byte as before. -/
theorem memRead_memWrite (addr x : Nat) (b : Byte) (h : memWf m) :
    memRead (memWrite m addr b) x = if x = addr then b else memRead m x := by
  unfold memWrite
  split
  · rename_i hb
    rw [hb]
    exact memRead_memErase addr x h
  · exact memRead_memInsert addr x b h

/-- Placing an instruction's byte keeps the canonical form. -/
theorem placeByte_wf (s : State) (i : Nat) (b : Byte) (h : memWf m) : memWf (placeByte s i b m) := by
  unfold placeByte
  split
  · exact memWrite_wf _ _ h
  · exact h

/-- Placing an instruction's bytes keeps the canonical form. -/
theorem placeBytes_wf (s : State) (bs : List Byte) : ∀ (i : Nat) (m : List Host.Cell), memWf m → memWf (placeBytes s m i bs) := by
  induction bs with
  | nil => intro i m h; exact h
  | cons b bs ih => intro i m h; exact ih _ _ (placeByte_wf s i b h)

theorem reset_memWf : memWf State.reset.mem := by decide

end Sys2Proof.Machine
end

