-- ==== Sys2Proof/Laws/Operands.lean ====
section
/-! SUPPORT. What the operand reads can answer, part by part, and that they do not depend on MXCSR. -/

namespace Sys2Proof.Machine

theorem any_id_of_mem {mask : List Bool} (h : true ∈ mask) : mask.any id = true := List.any_eq_true.2 ⟨true, h, rfl⟩

/-- Steps along a linear address add up. -/
theorem linearAdd_add (s : State) (la : Word64) (i j : Nat) : linearAdd s (linearAdd s la i) j = linearAdd s la (i + j) := by
  unfold linearAdd
  split
  · rw [BitVec.add_assoc]; congr 1; simp [BitVec.ofNat_add]
  · apply BitVec.eq_of_toNat_eq
    simp only [BitVec.toNat_setWidth, BitVec.toNat_add, BitVec.toNat_ofNat]
    omega

/-- A linear address is already cut to its width. -/
theorem linearAdd_linear (s : State) (r ea) : linearAdd s (s.linear r ea) 0 = s.linear r ea := by
  rw [State.linear, linearAdd_add]

/-- Bytes that can all be read, read together. -/
theorem readBytes_eq (s : State) (b : Nat → Byte) (n : Nat) : ∀ la, (∀ i < n, readByte s .data (linearAdd s la (i)) = .ok (b i)) → linearAdd s la 0 = la → readBytes s la n = .ok ((List.range n).map b) := by
  induction n generalizing b with
  | zero => intro la _ _; rfl
  | succ n ih =>
    intro la h h0
    have e := h 0 (by omega)
    rw [h0] at e
    have := ih (fun i => b (i+1)) (linearAdd s la 1) (fun i hi => by rw [linearAdd_add, Nat.add_comm]; exact h (i+1) (by omega)) (by rw [linearAdd_add])
    rw [readBytes, e, Answer.bind_ok, this, Answer.bind_ok, List.range_succ_eq_map]
    simp

/-- Byte `i` of a little-endian word. -/
theorem leWord_extract (bs : List Byte) : bs.length ≤ 8 → ∀ i < bs.length, some ((leWord bs).extractLsb' (8*i) 8) = bs[i]? := by
  induction bs with
  | nil => simp
  | cons b t ih =>
    intro hl i hi
    cases i with
    | zero =>
      simp only [List.getElem?_cons_zero, Option.some.injEq, leWord]
      apply BitVec.eq_of_getLsbD_eq
      intro k hk
      simp [hk]
      intro; omega
    | succ i =>
      simp at hl hi
      rw [List.getElem?_cons_succ, ← ih (by omega) i hi]
      simp only [leWord, Option.some.injEq]
      apply BitVec.eq_of_getLsbD_eq
      intro k hk
      simp only [BitVec.getLsbD_extractLsb', BitVec.getLsbD_or, BitVec.getLsbD_shiftLeft, BitVec.getLsbD_setWidth, hk]
      have : b.getLsbD (8*(i+1)+k) = false := BitVec.getLsbD_of_ge _ _ (by omega)
      rw [this, show 8*(i+1)+k-8 = 8*i+k by omega]
      simp [show 8*(i+1)+k < 64 by omega]; omega

/-- The address check of a memory operand, byte by byte. -/
theorem elementsOk_iff (s : State) (r ea) (mask : List Bool) : ∀ j0, s.elementsOk r ea j0 mask = true ↔ ∀ j, mask[j]? = some true → ∀ i < 8, s.byteOk r ea (8*(j0+j)+i) = true := by
  induction mask with
  | nil => intro j0; simp [State.elementsOk]
  | cons b t ih =>
    intro j0
    rw [State.elementsOk, Bool.and_eq_true, ih]
    constructor
    · rintro ⟨h1, h2⟩ j hj i hi
      cases j with
      | zero => 
        simp at hj; subst hj
        simp only [Bool.not_true, Bool.false_or, List.all_eq_true, List.mem_range] at h1
        exact h1 i hi
      | succ j =>
        have := h2 j (by simpa using hj) i hi
        rwa [show j0 + 1 + j = j0 + (j+1) by omega] at this
    · intro h
      refine ⟨?_, fun j hj i hi => ?_⟩
      · cases b
        · simp
        · simp only [Bool.not_true, Bool.false_or, List.all_eq_true, List.mem_range]
          exact fun i hi => h 0 rfl i hi
      · have := h (j+1) (by simpa using hj) i hi
        rwa [show j0 + (j+1) = j0 + 1 + j by omega] at this

/-- What reading elements can answer: one entry for each mask bit, present where the bit is set. -/
theorem readElements_ok (s : State) (mask : List Bool) : ∀ la elems, readElements s la mask = .ok elems → elems.length = mask.length ∧ ∀ j : Nat, (∃ x, elems[j]? = some (some x)) ↔ mask[j]? = some true := by
  induction mask with
  | nil => intro la e h; simp [readElements] at h; subst h; simp
  | cons b t ih =>
    intro la e h
    cases b
    · simp only [readElements] at h
      obtain ⟨vs, h1, h2⟩ := Answer.bind_eq_ok h
      simp at h2; subst h2
      have := ih _ _ h1
      refine ⟨by simp [this.1], fun j => ?_⟩
      cases j with
      | zero => simp
      | succ j => simpa using this.2 j
    · simp only [readElements] at h
      obtain ⟨v, h0, h⟩ := Answer.bind_eq_ok h
      obtain ⟨vs, h1, h2⟩ := Answer.bind_eq_ok h
      simp at h2; subst h2
      have := ih _ _ h1
      refine ⟨by simp [this.1], fun j => ?_⟩
      cases j with
      | zero => simp
      | succ j => simpa using this.2 j

/-- Elements that can all be read, read together. -/
theorem readElements_eq (s : State) (mask : List Bool) : ∀ (la : Word64) (q : Nat → Word64), linearAdd s la 0 = la → (∀ j, mask[j]? = some true → readQuad s (linearAdd s la (8*j)) = .ok (q j)) → readElements s la mask = .ok (mask.mapIdx fun j e => if e then some (q j) else none) := by
  induction mask with
  | nil => intro la q _ _; rfl
  | cons b t ih =>
    intro la q h0 h
    have := ih (linearAdd s la 8) (fun j => q (j+1)) (by rw [linearAdd_add]) (fun j hj => by rw [linearAdd_add, show 8 + 8*j = 8*(j+1) by omega]; exact h (j+1) (by simpa using hj))
    cases b
    · simp [readElements, this, List.mapIdx_cons]
    · have h1 := h 0 rfl
      simp only [Nat.mul_zero, h0] at h1
      simp [readElements, this, List.mapIdx_cons, h1]

/-- An answer that is no value stays as it is, whatever would go on with it. -/
theorem Answer.bind_stop {α β γ : Type} {a : Answer α} (h : ∀ v, a ≠ .ok v) (f : α → Answer β) (g : β → Answer γ) (k : α → Answer γ) :
    (a.bind f).bind g = a.bind k := by
  cases a with
  | ok v => exact absurd rfl (h v)
  | raise _ => rfl
  | refuse _ => rfl

/-- So what would go on with it does not matter. -/
theorem Answer.bind_stop_eq {α β : Type} {a : Answer α} (h : ∀ v, a ≠ .ok v) (f g : α → Answer β) : a.bind f = a.bind g := by
  cases a with
  | ok v => exact absurd rfl (h v)
  | raise _ => rfl
  | refuse _ => rfl

/-- The first byte that cannot be read stops a read of several. -/
theorem readBytes_stop (s : State) (f : Byte → Answer (List Byte)) (n : Nat) : ∀ la k, k < n → linearAdd s la 0 = la →
    (∀ i < k, ∃ b, readByte s .data (linearAdd s la i) = .ok b) → (∀ b, readByte s .data (linearAdd s la k) ≠ .ok b) →
    readBytes s la n = (readByte s .data (linearAdd s la k)).bind f := by
  induction n with
  | zero => intro la k hk; omega
  | succ n ih =>
    intro la k hk h0 hok hstop
    cases k with
    | zero =>
      rw [h0] at hstop ⊢
      exact Answer.bind_stop_eq hstop _ _
    | succ k =>
      obtain ⟨b, hb⟩ := hok 0 (by omega)
      rw [h0] at hb
      have step (i : Nat) : linearAdd s (linearAdd s la 1) i = linearAdd s la (i + 1) := by rw [linearAdd_add, Nat.add_comm]
      have := ih (linearAdd s la 1) k (by omega) (by rw [linearAdd_add]) (fun i hi => by rw [step]; exact hok (i + 1) (by omega))
        (by rw [step]; exact hstop)
      rw [step] at this
      rw [readBytes, hb, Answer.bind_ok, this]
      exact Answer.bind_stop hstop _ _ _

/-- The same for one element. -/
theorem readQuad_stop (s : State) (f : Byte → Answer Word64) {la : Word64} {k : Nat} (hk : k < 8) (h0 : linearAdd s la 0 = la)
    (hok : ∀ i < k, ∃ b, readByte s .data (linearAdd s la i) = .ok b) (hstop : ∀ b, readByte s .data (linearAdd s la k) ≠ .ok b) :
    readQuad s la = (readByte s .data (linearAdd s la k)).bind f := by
  rw [readQuad, readBytes_stop s (fun _ => .ok []) 8 la k hk h0 hok hstop]
  exact Answer.bind_stop hstop _ _ _

/-- Bytes that can all be read are an element. -/
theorem readQuad_ok (s : State) {la : Word64} (h0 : linearAdd s la 0 = la)
    (hok : ∀ i < 8, ∃ b, readByte s .data (linearAdd s la i) = .ok b) : ∃ v, readQuad s la = .ok v := by
  choose! b hb using hok
  exact ⟨_, by rw [readQuad, readBytes_eq s b 8 la hb h0, Answer.bind_ok]⟩

/-- The first byte of an enabled element that cannot be read stops the read of a full-width operand; disabled elements do not matter. -/
theorem readElements_stop (s : State) (f : Byte → Answer (List (Option Word64))) (k : Nat) (hk : k < 8) (mask : List Bool) :
    ∀ (la : Word64) (j : Nat), linearAdd s la 0 = la → mask[j]? = some true →
      (∀ j', mask[j']? = some true → ∀ k' < 8, 8 * j' + k' < 8 * j + k → ∃ b, readByte s .data (linearAdd s la (8 * j' + k')) = .ok b) →
      (∀ b, readByte s .data (linearAdd s la (8 * j + k)) ≠ .ok b) →
      readElements s la mask = (readByte s .data (linearAdd s la (8 * j + k))).bind f := by
  induction mask with
  | nil => intro la j _ hj; simp at hj
  | cons e t ih =>
    intro la j h0 hj hok hstop
    cases j with
    | zero =>
      simp only [List.getElem?_cons_zero, Option.some.injEq] at hj
      subst hj
      simp only [Nat.mul_zero, Nat.zero_add] at hok hstop ⊢
      rw [readElements, readQuad_stop s (fun _ => .ok 0) hk h0 (fun i hi => by simpa using hok 0 rfl i (by omega) (by omega)) hstop]
      exact Answer.bind_stop hstop _ _ _
    | succ j =>
      have step (p : Nat) : linearAdd s (linearAdd s la 8) p = linearAdd s la (p + 8) := by rw [linearAdd_add, Nat.add_comm]
      have e1 : 8 * j + k + 8 = 8 * (j + 1) + k := by omega
      have := ih (linearAdd s la 8) j (by rw [linearAdd_add]) (by simpa using hj)
        (fun j' hj' k' hk' hlt => by
          rw [step, show 8 * j' + k' + 8 = 8 * (j' + 1) + k' by omega]
          exact hok (j' + 1) (by simpa using hj') k' hk' (by omega))
        (by rw [step, e1]; exact hstop)
      rw [step, e1] at this
      cases e with
      | false => rw [readElements, this]; exact Answer.bind_stop hstop _ _ _
      | true =>
        obtain ⟨v, hv⟩ := readQuad_ok s h0 fun i hi => by simpa using hok 0 rfl i hi (by omega)
        rw [readElements, hv, Answer.bind_ok, this]; exact Answer.bind_stop hstop _ _ _

theorem readBytes_withMxcsr (s : State) (m : BitVec 32) (n : Nat) : ∀ la, readBytes { s with mxcsr := m } la n = readBytes s la n := by
  induction n with
  | zero => intro la; rfl
  | succ n ih =>
    intro la
    have h1 : readByte { s with mxcsr := m } .data la = readByte s .data la := rfl
    have h2 : linearAdd { s with mxcsr := m } la 1 = linearAdd s la 1 := rfl
    simp only [readBytes, h1, h2, ih]

theorem readElements_withMxcsr (s : State) (m : BitVec 32) (mask : List Bool) : ∀ la, readElements { s with mxcsr := m } la mask = readElements s la mask := by
  induction mask with
  | nil => intro la; rfl
  | cons b t ih =>
    intro la
    have h2 : linearAdd { s with mxcsr := m } la 8 = linearAdd s la 8 := rfl
    cases b <;> simp only [readElements, readQuad, readBytes_withMxcsr, h2, ih]

theorem elementsOk_withMxcsr (s : State) (m : BitVec 32) (r ea) (mask : List Bool) : ∀ j, State.elementsOk { s with mxcsr := m } r ea j mask = s.elementsOk r ea j mask := by
  induction mask with
  | nil => intro j; rfl
  | cons b t ih => intro j; rw [State.elementsOk, State.elementsOk, ih]; rfl

theorem effectiveAddress_withMxcsr (s : State) (m : BitVec 32) (pre len n mm) : State.effectiveAddress { s with mxcsr := m } pre len n mm = s.effectiveAddress pre len n mm := by
  cases mm <;> rfl

theorem vectorOperand_withMxcsr (s : State) (m : BitVec 32) (pre len n al mm mask) : State.vectorOperand { s with mxcsr := m } pre len n al mm mask = s.vectorOperand pre len n al mm mask := by
  simp only [State.vectorOperand, effectiveAddress_withMxcsr, elementsOk_withMxcsr, readElements_withMxcsr]; rfl

theorem broadcastOperand_withMxcsr (s : State) (m : BitVec 32) (pre len mm mask) : State.broadcastOperand { s with mxcsr := m } pre len mm mask = s.broadcastOperand pre len mm mask := by
  simp only [State.broadcastOperand, effectiveAddress_withMxcsr, elementsOk_withMxcsr, readQuad, readBytes_withMxcsr]; rfl

theorem rmElements_withMxcsr (s : State) (m : BitVec 32) (pre len n al mask src) : State.rmElements { s with mxcsr := m } pre len n al mask src = s.rmElements pre len n al mask src := by
  cases src <;> simp only [State.rmElements, vectorOperand_withMxcsr]; rfl

theorem evexElements_withMxcsr (s : State) (m : BitVec 32) (pre len n mask src) : State.evexElements { s with mxcsr := m } pre len n mask src = s.evexElements pre len n mask src := by
  cases src <;> simp only [State.evexElements, rmElements_withMxcsr, broadcastOperand_withMxcsr]; rfl

/-- Reading the source does not depend on MXCSR. -/
theorem source_withMxcsr (s : State) (m : BitVec 32) (i) : State.source { s with mxcsr := m } i = s.source i := by
  cases i <;> simp only [State.source, rmElements_withMxcsr, evexElements_withMxcsr] <;> rfl

end Sys2Proof.Machine
end

