-- ==== Sys2Proof/Laws/PerInstr.lean ====
section
/-! SUPPORT. A law about every instruction as syntax: its encoding has the length that rule R91 counts. -/

namespace Sys2Proof.Laws.Encoding

theorem leBytes_length {w : Nat} (n : Nat) : ∀ v : BitVec w, (leBytes v n).length = n := by
  induction n with
  | zero => intro v; rfl
  | succ n ih => intro v; simp [leBytes, ih]

theorem disp_length (d : Disp) : d.bytes.length = d.length := by
  cases d <;> simp [Disp.bytes, Disp.length, leBytes_length]

theorem mem_length (m : MemRef) (reg : BitVec 3) : (m.bytes reg).length = 1 + m.length := by
  cases m <;> simp [MemRef.bytes, MemRef.length, disp_length, leBytes_length] <;> omega

theorem rm_length (src : RmSource) (reg : BitVec 3) : (src.bytes reg).length = src.length := by
  cases src <;> simp [RmSource.bytes, RmSource.length, mem_length]

/-- The encoding is as long as rule R91 says. -/
def Statement (i : Instr) : Prop := (encode i).length = i.length

theorem cvttpd2dq (o : LegacyOps) : Statement (.cvttpd2dq o) := by
  simp only [Statement, encode, encodeLegacy, Instr.length, LegacyOps.length]
  split <;> simp [rm_length] <;> omega

theorem vex_length (l : Bool) (o : VexOps) : (encodeVex l o).length = o.length := by
  simp only [encodeVex, VexOps.length]
  split <;> simp [rm_length] <;> omega

theorem evex_length (ll : BitVec 2) (o : EvexOps) : (encodeEvex ll o).length = o.length := by
  simp only [encodeEvex, EvexOps.length]
  simp [rm_length]
  omega

theorem vcvttpd2dqVex128 (o : VexOps) : Statement (.vcvttpd2dqVex128 o) := vex_length false o
theorem vcvttpd2dqVex256 (o : VexOps) : Statement (.vcvttpd2dqVex256 o) := vex_length true o
theorem vcvttpd2dqEvex128 (o : EvexOps) : Statement (.vcvttpd2dqEvex128 o) := evex_length 0 o
theorem vcvttpd2dqEvex256 (o : EvexOps) : Statement (.vcvttpd2dqEvex256 o) := evex_length 1 o
theorem vcvttpd2dqEvex512 (o : EvexOps) : Statement (.vcvttpd2dqEvex512 o) := evex_length 2 o

end Sys2Proof.Laws.Encoding
end

