-- ==== Sys2Proof/Laws/Step.lean ====
section
/-! SUPPORT. What a fetch and a step can answer, said once. -/

namespace Sys2Proof.Machine

/-- The bytes that can be fetched, up to the longest instruction, are the head of what a fetch gives. -/
theorem fetchFrom_take (s : State) (bytes : List Byte) : ∀ i n, (∀ j (h : j < bytes.length), fetchByte s (i + j) = .ok bytes[j]) →
    (fetchFrom s i n).1.take bytes.length = bytes.take n := by
  induction bytes with
  | nil => intros; rw [List.length_nil, List.take_zero, List.take_nil]
  | cons b t ih =>
    intro i n h
    cases n with
    | zero => simp [fetchFrom]
    | succ n =>
      have h0 : fetchByte s i = .ok b := h 0 (by simp)
      have := ih (i + 1) n fun j hj => by
        have := h (j + 1) (by simpa using hj)
        rwa [show i + (j + 1) = i + 1 + j by omega] at this
      simp [fetchFrom, h0, this]

/-- Past the fetched bytes lies an exception or a refusal. -/
theorem fetchFrom_past (s : State) (n : Nat) :
    ∀ i, (∃ x, (fetchFrom s i n).2 = takeException x s) ∨ ∃ r, (fetchFrom s i n).2 = .refused r := by
  induction n with
  | zero => exact fun i => .inl ⟨.generalProtection, rfl⟩
  | succ n ih =>
    intro i
    rw [fetchFrom]
    split
    · exact ih _
    · exact .inl ⟨_, rfl⟩
    · exact .inr ⟨_, rfl⟩

/-- Everything a step can do: it runs an instruction, it takes an exception at its own state, or it is refused. -/
theorem step_cases (s : State) :
    (∃ i rest, decode s.decodeEnv (fetch s).1 = .instr i rest ∧ step s = exec i s) ∨
    (∃ x, step s = takeException x s) ∨ ∃ r, step s = .refused r := by
  unfold step
  cases decode s.decodeEnv (fetch s).1 with
  | instr i rest => exact .inl ⟨i, rest, rfl, rfl⟩
  | undefinedOpcode => exact .inr (.inl ⟨.invalidOpcode, rfl⟩)
  | refused r => exact .inr (.inr ⟨_, rfl⟩)
  | truncated => exact .inr (fetchFrom_past s maxInstrLength 0)

end Sys2Proof.Machine
end

