-- ==== Sys2Proof/Laws/Vectors.lean ====
section
/-! SUPPORT. What the destination values hold, doubleword by doubleword and above the result. -/

namespace Sys2Proof.Machine

theorem packDwords_getLsbD (rs : List (BitVec 32)) :
    ∀ k, (packDwords rs).getLsbD k = (decide (k < 512) && (rs.getD (k / 32) 0).getLsbD (k % 32)) := by
  induction rs with
  | nil => intro k; simp [packDwords]
  | cons r rs ih =>
    intro k
    simp only [packDwords, BitVec.getLsbD_or, BitVec.getLsbD_shiftLeft, BitVec.getLsbD_setWidth, ih]
    by_cases hk : k < 32
    · have h0 : k / 32 = 0 := by omega
      have h1 : k % 32 = k := by omega
      simp [hk, h0, h1, show k < 512 by omega]
    · obtain ⟨j, rfl⟩ : ∃ j, k = j + 32 := ⟨k - 32, by omega⟩
      have h0 : (j + 32) / 32 = j / 32 + 1 := by omega
      have h1 : (j + 32) % 32 = j % 32 := by omega
      have h2 : r.getLsbD (j + 32) = false := BitVec.getLsbD_of_ge _ _ (by omega)
      simp only [h0, h1, h2, Nat.add_sub_cancel, List.getD_cons_succ]
      by_cases h : j + 32 < 512
      · simp [h, show j < 512 by omega]
      · simp [h]

/-- Doubleword `j` of packed results is the `j`-th of them, 0 past the last. -/
theorem dword_packDwords (rs : List (BitVec 32)) {j : Nat} (hj : j < 16) : dword (packDwords rs) j = rs.getD j 0 := by
  apply BitVec.eq_of_getLsbD_eq
  intro i hi
  have h0 : (32 * j + i) / 32 = j := by omega
  have h1 : (32 * j + i) % 32 = i := by omega
  simp only [dword, BitVec.getLsbD_extractLsb', packDwords_getLsbD, h0, h1, hi, show 32 * j + i < 512 by omega,
    decide_true, Bool.true_and]

/-- Above the packed results there are zeros. -/
theorem packDwords_shift (rs : List (BitVec 32)) {n : Nat} (hn : 32 * rs.length ≤ n) : packDwords rs >>> n = 0 := by
  apply BitVec.eq_of_getLsbD_eq
  intro i _
  have : rs.length ≤ (n + i) / 32 := by omega
  simp [packDwords_getLsbD, List.getElem?_eq_none this]

/-- Two vector registers with the same sixteen doublewords are equal. -/
theorem eq_of_dword_eq {v w : VWord} (h : ∀ j < 16, dword v j = dword w j) : v = w := by
  apply BitVec.eq_of_getLsbD_eq
  intro k hk
  have := congrArg (fun d : BitVec 32 => d.getLsbD (k % 32)) (h (k / 32) (by omega))
  simp only [dword, BitVec.getLsbD_extractLsb'] at this
  have e : 32 * (k / 32) + k % 32 = k := by omega
  simpa [e, Nat.mod_lt] using this

/-- Form 1 packs at most four doublewords: the bits from 128 up are the old ones. -/
theorem destLegacy_shift (old : VWord) (rs : List (Option (BitVec 32))) (h : rs.length ≤ 4) :
    destLegacy old rs >>> 128 = old >>> 128 := by
  have hp : packDwords (rs.map fun r => r.getD 0) >>> 128 = 0 := packDwords_shift _ (by rw [List.length_map]; omega)
  have ho : ((old >>> 128) <<< 128) >>> 128 = old >>> 128 := by
    apply BitVec.eq_of_getLsbD_eq
    intro i hi
    by_cases h : 128 + i < 512
    · simp [h]
    · simp [h, BitVec.getLsbD_of_ge old (128 + i) (by omega)]
  rw [destLegacy, BitVec.ushiftRight_or_distrib, hp, ho]
  simp

/-- Form 1: the four low doublewords are the results, 0 past the last. -/
theorem dword_destLegacy (old : VWord) (rs : List (Option (BitVec 32))) {j : Nat} (hj : j < 4) :
    dword (destLegacy old rs) j = (rs.map fun r => r.getD 0).getD j 0 := by
  have h0 : dword ((old >>> 128) <<< 128) j = 0 := by
    apply BitVec.eq_of_getLsbD_eq
    intro i hi
    simp [dword, show 32 * j + i < 128 by omega]
  have h1 := dword_packDwords (rs.map fun r => r.getD 0) (j := j) (by omega)
  unfold dword at h0 h1 ⊢
  rw [destLegacy, BitVec.extractLsb'_or, h0, h1]
  simp

theorem dword_destVex (rs : List (Option (BitVec 32))) {j : Nat} (hj : j < 16) :
    dword (destVex rs) j = (rs.map fun r => r.getD 0).getD j 0 := dword_packDwords _ hj

theorem destVex_shift (rs : List (Option (BitVec 32))) {n : Nat} (hn : 32 * rs.length ≤ n) : destVex rs >>> n = 0 :=
  packDwords_shift _ (by simpa using hn)

/-- Forms 4 to 6: an enabled element's result, a disabled one kept or zeroed. -/
theorem dword_destEvex (old : VWord) (zeroing : Bool) (rs : List (Option (BitVec 32))) {j : Nat} (hj : j < rs.length) (h16 : j < 16) :
    dword (destEvex old zeroing rs) j = (rs[j]).getD (if zeroing then 0 else dword old j) := by
  rw [destEvex, dword_packDwords _ h16]
  simp [List.getD, hj]

theorem destEvex_shift (old : VWord) (zeroing : Bool) (rs : List (Option (BitVec 32))) {n : Nat} (hn : 32 * rs.length ≤ n) :
    destEvex old zeroing rs >>> n = 0 :=
  packDwords_shift _ (by simpa using hn)

end Sys2Proof.Machine
end

