-- ==== Sys2Proof/Tests/Slice0.lean ====
section
/-! SUPPORT. The model's own tests: ill-formed terms refused, decoding of words written out from spec/30_encoding.md, single steps from
spec/95_test_vectors.md, and for each statement with hypotheses a state and operands that meet them. -/

namespace Sys2Proof.Tests

set_option Elab.async false

open Sys2Proof.Machine

/-! ## Helpers -/

/-- The code segment of a 64-bit mode at CPL 3. -/
def flatCode : SegReg :=
  { selector := 0x33, base := 0, limit := 0xFFFFFFFF, readable := true, null := false, long := true, big := false }

/-- A flat 32-bit segment. -/
def flatData : SegReg :=
  { selector := 0x2B, base := 0, limit := 0xFFFFFFFF, readable := true, null := false, long := false, big := true }

/-- A 64-bit launch state with everything enabled (rules R201, R202), RIP at 1000H. -/
def launch : State :=
  { State.reset with cr0 := 0x80000033, cr4 := 0x40620, xcr0 := 0xE7, efer := 0x500, cs := flatCode, rip := 0x1000 }

/-- The same in 32-bit protected mode without paging. -/
def launch32 : State :=
  { launch with cr0 := 0x33, efer := 0, cs := { flatData with selector := 0x23 }, ss := flatData, ds := flatData, es := flatData }

/-- 16-bit code in protected mode. -/
def launch16 : State := { launch32 with cs := { launch32.cs with big := false } }

/-- Memory cells for bytes from an address up. -/
def cells : Nat → List Byte → List Host.Cell
  | _, [] => []
  | a, b :: bs => if b = 0 then cells (a + 1) bs else (a, b) :: cells (a + 1) bs

/-- Code at 1000H. -/
def code (s : State) (bs : List Byte) : State := { s with mem := cells 0x1000 bs }

/-- Code at 1000H and data at an address above it. -/
def codeData (s : State) (bs : List Byte) (a : Nat) (data : List Byte) : State :=
  { s with mem := cells 0x1000 bs ++ cells a data }

/-- Doubles side by side, the first least significant. -/
def quads : List Word64 → VWord
  | [] => 0
  | q :: qs => (quads qs <<< 64) ||| q.setWidth 512

/-- A general register set. -/
def withGpr (s : State) (n : Fin 16) (v : Word64) : State := { s with gpr := s.gpr.set n v }

/-- An opmask register set. -/
def withK (s : State) (n : Fin 8) (v : Word64) : State := { s with kreg := s.kreg.set n v }

/-- A feature set without AVX512VL and AVX10.1, and one without AVX512F and AVX10.1. -/
def noVl : Config.Features := { sse2 := true, avx := true, avx512f := true, avx512vl := false, avx10_1 := false }
def noAvx512 : Config.Features := { sse2 := true, avx := true, avx512f := false, avx512vl := false, avx10_1 := false }

/-- A launch state on a machine with other features. -/
def withFeat (f : Config.Features) : State := { launch with impl := { launch.impl with feat := f } }

/-- What a step leaves in a vector register, MXCSR and RIP, if it completes. -/
def completed (o : Outcome) (d : BitVec 5) : Option (VWord × BitVec 32 × Word64) :=
  match o with
  | .next t => some (t.vreg d, t.mxcsr, t.rip)
  | _ => none

/-- The same for the state that an exception leaves, with the exception. -/
def faulted (o : Outcome) (d : BitVec 5) : Option (Exception × VWord × BitVec 32 × Word64) :=
  match o with
  | .fault (.exception x t) => some (x, t.vreg d, t.mxcsr, t.rip)
  | _ => none

/-- The outcome is a next state. -/
def isNext : Outcome → Bool
  | .next _ => true
  | _ => false

/-- The outcome is an exception. -/
def isFault : Outcome → Bool
  | .fault _ => true
  | _ => false

/-- The outcome is a refusal for this reason. -/
def refusedFor (r : Refusal) : Outcome → Bool
  | .refused q => decide (q = r)
  | _ => false

theorem exists_next {o : Outcome} (h : isNext o = true) : ∃ t, o = .next t := by
  cases o with
  | next t => exact ⟨t, rfl⟩
  | fault _ => cases h
  | refused _ => cases h

theorem exists_fault {o : Outcome} (h : isFault o = true) : ∃ x t, o = .fault (.exception x t) := by
  cases o with
  | next _ => cases h
  | fault f => cases f with | exception x t => exact ⟨x, t, rfl⟩
  | refused _ => cases h

/-- A data byte at a linear address can be read. -/
def readable (s : State) (la : Word64) : Bool :=
  match readByte s .data la with
  | .ok _ => true
  | _ => false

theorem exists_byte {s : State} {la : Word64} (h : readable s la = true) : ∃ b, readByte s .data la = .ok b := by
  unfold readable at h
  split at h
  · exact ⟨_, ‹_›⟩
  · cases h

/-- What holds of the elements below a mask's length holds of all that are enabled. -/
theorem of_enabled {mask : List Bool} {P : Nat → Prop} (h : ∀ j < mask.length, mask[j]? = some true → P j) :
    ∀ j, mask[j]? = some true → P j := fun j hj => h j (List.getElem?_eq_some_iff.1 hj).1 hj

/-- 64-bit mode with the default parameters. -/
def env64 : DecodeEnv := { mode := .long64, sae512 := true }

/-! ## Operands used below -/

/-- `xmm1, xmm2` of form 1 (E1). -/
def legReg : LegacyOps := { pre := [.opSize], rex := false, dst := 1, src := .reg 2 }

/-- `xmm0, [rax]` of form 1 (E3). -/
def legMem : LegacyOps := { pre := [.opSize], rex := false, dst := 0, src := .mem (.base 0 .none) }

/-- `xmm1, xmm2` of forms 2 and 3 (E6, E9). -/
def vexReg : VexOps := { pre := [], threeByte := false, vvvv := 15, dst := 1, src := .reg 2 }

/-- `1, [rax]` of forms 2 and 3. -/
def vexMem : VexOps := { vexReg with src := .mem (.base 0 .none) }

/-- `1, 2` of forms 4 to 6 (E16 to E18). -/
def evexReg : EvexOps :=
  { pre := [], vvvv := 15, vHigh := true, dst := 1, aaa := 0, zeroing := false, src := .plain (.reg 2) }

/-- A full-width memory operand at `[rax]` under writemask 1. -/
def evexMem : EvexOps := { evexReg with aaa := 1, src := .plain (.mem (.base 0 .none)) }

/-- A broadcast memory operand at `[rax]` under writemask 2 (E19). -/
def evexBcst : EvexOps := { evexReg with aaa := 2, src := .broadcast (.base 0 .none) }

/-- `{sae}` with register 2 (E22). -/
def evexSae : EvexOps := { evexReg with src := .sae 2 }

/-- The elements of F8 and F9. -/
def eight : VWord :=
  quads [0x3FF8000000000000, 0x7FF8000000000000, 0xBFF8000000000000, 0x7FF0000000000000,
    0x4202A05F20000000, 0x4045000000000000, 0x41E0000000000000, 0xC1E0000000000000]

/-- Eight bytes of 3.0. -/
def three : List Byte := [0, 0, 0, 0, 0, 0, 0x08, 0x40]

/-! ## Ill-formed terms, one for each check -/

theorem test_wf_legacy_prefixes :
    wellFormed .long64 (.cvttpd2dq legReg) = true ∧
    wellFormed .prot32 (.cvttpd2dq { legReg with pre := [.rex 0, .opSize] }) = false ∧
    wellFormed .long64 (.cvttpd2dq { legReg with pre := [.addrSize] }) = false ∧
    wellFormed .long64 (.cvttpd2dq { legReg with pre := [.opSize, .repne] }) = false ∧
    wellFormed .long64 (.cvttpd2dq { legReg with pre := [.rep, .opSize] }) = false ∧
    wellFormed .prot32 (.cvttpd2dq { legReg with rex := true }) = false ∧
    wellFormed .long64 (.cvttpd2dq { legReg with pre := [.opSize, .rex 1] }) = false := by decide +kernel

theorem test_wf_legacy_registers :
    wellFormed .long64 (.cvttpd2dq { legReg with dst := 8 }) = false ∧
    wellFormed .long64 (.cvttpd2dq { legReg with rex := true, dst := 15 }) = true ∧
    wellFormed .long64 (.cvttpd2dq { legReg with rex := true, dst := 16 }) = false ∧
    wellFormed .long64 (.cvttpd2dq { legReg with src := .reg 8 }) = false ∧
    wellFormed .long64 (.cvttpd2dq { legReg with rex := true, src := .reg 16 }) = false := by decide +kernel

theorem test_wf_memory_operands :
    memOk .prot32 .a16 false (.base 3 .none) = false ∧ memOk .long64 .a64 false (.base 8 .none) = false ∧
    memOk .long64 .a64 true (.base 12 .none) = false ∧ memOk .long64 .a64 true (.base 13 .none) = false ∧
    memOk .long64 .a64 true (.base 3 (.d16 0)) = false ∧ memOk .prot32 .a16 false (.sib 0 0 0 .none) = false ∧
    memOk .long64 .a64 false (.sib 0 9 0 .none) = false ∧ memOk .long64 .a64 false (.sib 0 0 9 .none) = false ∧
    memOk .long64 .a64 true (.sib 0 0 5 .none) = false ∧ memOk .prot32 .a16 false (.sibNoBase 0 0 0) = false ∧
    memOk .long64 .a64 false (.sibNoBase 0 8 0) = false ∧ memOk .prot32 .a32 false (.ripRel 0) = false ∧
    memOk .long64 .a64 true (.disp32 0) = false ∧ memOk .prot32 .a16 false (.disp32 0) = false ∧
    memOk .prot32 .a32 false (.addr16 0 .none) = false ∧ memOk .prot32 .a16 false (.addr16 6 .none) = false ∧
    memOk .prot32 .a16 false (.addr16 0 (.d32 0)) = false ∧ memOk .long64 .a64 true (.disp16 0) = false := by decide +kernel

theorem test_wf_vex :
    wellFormed .long64 (.vcvttpd2dqVex128 vexReg) = true ∧
    wellFormed .prot32 (.vcvttpd2dqVex128 { vexReg with pre := [.rex 0] }) = false ∧
    wellFormed .long64 (.vcvttpd2dqVex128 { vexReg with dst := 16 }) = false ∧
    wellFormed .prot32 (.vcvttpd2dqVex256 { vexReg with dst := 8 }) = false ∧
    wellFormed .long64 (.vcvttpd2dqVex256 { vexReg with src := .reg 8 }) = false ∧
    wellFormed .long64 (.vcvttpd2dqVex256 { vexReg with threeByte := true, src := .reg 16 }) = false ∧
    wellFormed .long64 (.vcvttpd2dqVex128 { vexReg with src := .mem (.base 9 .none) }) = false ∧
    wellFormed .prot32 (.vcvttpd2dqVex128 { vexReg with vvvv := 7 }) = false := by decide +kernel

theorem test_wf_evex :
    wellFormed .long64 (.vcvttpd2dqEvex512 { evexReg with dst := 31, src := .plain (.reg 31) }) = true ∧
    wellFormed .prot32 (.vcvttpd2dqEvex128 { evexReg with pre := [.rex 0] }) = false ∧
    wellFormed .prot32 (.vcvttpd2dqEvex256 { evexReg with dst := 8 }) = false ∧
    wellFormed .prot32 (.vcvttpd2dqEvex512 { evexReg with src := .plain (.reg 8) }) = false ∧
    wellFormed .prot32 (.vcvttpd2dqEvex512 { evexReg with vHigh := false }) = false ∧
    wellFormed .long64 (.vcvttpd2dqEvex128 evexSae) = false ∧ wellFormed .long64 (.vcvttpd2dqEvex256 evexSae) = false ∧
    wellFormed .long64 (.vcvttpd2dqEvex512 evexSae) = true := by decide +kernel

/-! ## Words written out from the spec's encodings -/

/-- E5, E15, E30: REX.R with a displacement, SIB with scale 8, REX.W ignored. -/
theorem test_decode_legacy :
    decode env64 [0x66, 0x44, 0x0F, 0xE6, 0x4B, 0x10] =
      .instr (.cvttpd2dq { pre := [.opSize], rex := true, dst := 9, src := .mem (.base 3 (.d8 0x10)) }) [] ∧
    decode env64 [0x66, 0x0F, 0xE6, 0x4C, 0xCC, 0x20] =
      .instr (.cvttpd2dq { legReg with src := .mem (.sib 3 1 4 (.d8 0x20)) }) [] ∧
    decode env64 [0x66, 0x48, 0x0F, 0xE6, 0xCA] = .instr (.cvttpd2dq { legReg with rex := true }) [] := by decide +kernel

/-- E7, E13: the three-byte escape; RIP-relative. -/
theorem test_decode_vex128 :
    decode env64 [0xC4, 0xE1, 0x79, 0xE6, 0xCA] = .instr (.vcvttpd2dqVex128 { vexReg with threeByte := true }) [] ∧
    decode env64 [0xC5, 0xF9, 0xE6, 0x0D, 0x00, 0x01, 0x00, 0x00] =
      .instr (.vcvttpd2dqVex128 { vexReg with src := .mem (.ripRel 0x100) }) [] := by decide +kernel

/-- E12. -/
theorem test_decode_vex256 :
    decode env64 [0xC5, 0xFD, 0xE6, 0x48, 0x20] =
      .instr (.vcvttpd2dqVex256 { vexReg with src := .mem (.base 0 (.d8 0x20)) }) [] := by decide +kernel

/-- E19, E25. -/
theorem test_decode_evex128 :
    decode env64 [0x62, 0xF1, 0xFD, 0x1A, 0xE6, 0x08] = .instr (.vcvttpd2dqEvex128 evexBcst) [] ∧
    decode env64 [0x62, 0xF1, 0xFD, 0x08, 0xE6, 0x48, 0x02] =
      .instr (.vcvttpd2dqEvex128 { evexReg with src := .plain (.mem (.base 0 (.d8 2))) }) [] := by decide +kernel

/-- E17, E27. -/
theorem test_decode_evex256 :
    decode env64 [0x62, 0xF1, 0xFD, 0x28, 0xE6, 0xCA] = .instr (.vcvttpd2dqEvex256 evexReg) [] ∧
    decode env64 [0x62, 0xF1, 0xFD, 0x38, 0xE6, 0x48, 0x01] =
      .instr (.vcvttpd2dqEvex256 { evexReg with src := .broadcast (.base 0 (.d8 1)) }) [] := by decide +kernel

/-- E21, E26. -/
theorem test_decode_evex512 :
    decode env64 [0x62, 0xF1, 0xFD, 0xC9, 0xE6, 0xCA] =
      .instr (.vcvttpd2dqEvex512 { evexReg with aaa := 1, zeroing := true }) [] ∧
    decode env64 [0x62, 0xF1, 0xFD, 0x58, 0xE6, 0x48, 0x01] =
      .instr (.vcvttpd2dqEvex512 { evexReg with src := .broadcast (.base 0 (.d8 1)) }) [] := by decide +kernel

/-- X6, X7, X8, X11, and LES outside 64-bit mode (rule R83). -/
theorem test_decode_refused :
    decode env64 [0x62, 0xF1, 0xFD, 0x68, 0xE6, 0xCA] = .undefinedOpcode ∧
    decode env64 [0x62, 0xF1, 0x7D, 0x08, 0xE6, 0xCA] = .refused .evexW0 ∧
    decode env64 [0x62, 0xF9, 0xFD, 0x08, 0xE6, 0xCA] = .refused .evexReservedBits ∧
    decode env64 [0x62, 0xF1, 0xF9, 0x08, 0xE6, 0xCA] = .refused .evexReservedBits ∧
    decode env64 [0x66, 0xF3, 0x0F, 0xE6, 0xCA] = .refused .wrongMandatoryPrefix ∧
    decode env64 [0x0F, 0xE6, 0xCA] = .refused .wrongMandatoryPrefix ∧
    decode { env64 with mode := .prot32 } [0xC4, 0x01, 0x79, 0xE6, 0xCA] = .refused .otherInstruction := by decide +kernel

/-- The rows of spec/opcode_table.json, every bit outside the row's fixed ones 0, are each its own form. -/
theorem test_decode_table_rows :
    ((decodeTableWord 16 0x0FE6).map Instr.vl = some 128) ∧ ((decodeTableWord 32 0xC40101E6).map Instr.vl = some 128) ∧
    ((decodeTableWord 32 0xC40105E6).map Instr.vl = some 256) ∧ ((decodeTableWord 40 0x62018500E6).map Instr.vl = some 128) ∧
    ((decodeTableWord 40 0x62018520E6).map Instr.vl = some 256) ∧
    ((decodeTableWord 40 0x62018540E6).map Instr.vl = some 512) := by decide +kernel

/-! ## Single steps -/

/-- F1 (elements 42.0, -7.25 over all ones): bits above 127 kept. -/
theorem test_step_legacy_register :
    completed (step (code ((launch.setVreg 2 (quads [0x4045000000000000, 0xC01D000000000000])).setVreg 1 (BitVec.allOnes 512))
      [0x66, 0x0F, 0xE6, 0xCA])) 1 =
    some (((BitVec.allOnes 512 >>> 128) <<< 128) ||| 0xFFFFFFF90000002A, 0x1FA0, 0x1004) := by decide +kernel

/-- F3: the misaligned operand of form 1 raises `#GP(0)` and leaves the registers. -/
theorem test_step_legacy_misaligned :
    faulted (step (withGpr (code launch [0x66, 0x0F, 0xE6, 0x00]) 0 0x8008)) 0 =
    some (.generalProtection, 0, 0x1F80, 0x1000) := by decide +kernel

/-- F4. -/
theorem test_step_vex128_register :
    completed (step (code ((launch.setVreg 2 (quads [0x3FF8000000000000, 0x41E0000000000000])).setVreg 1 (BitVec.allOnes 512))
      [0xC5, 0xF9, 0xE6, 0xCA])) 1 = some (0x8000000000000001, 0x1FA1, 0x1004) := by decide +kernel

/-- F4b: no alignment requirement. -/
theorem test_step_vex128_unaligned :
    completed (step (withGpr (codeData launch [0xC5, 0xF9, 0xE6, 0x08] 0x8001 (three ++ three)) 0 0x8001)) 1 =
    some (0x0000000300000003, 0x1F80, 0x1004) := by decide +kernel

/-- F5. -/
theorem test_step_vex256_register :
    completed (step (code ((launch.setVreg 2
        (quads [0x3FF8000000000000, 0xBFF8000000000000, 0x41DFFFFFFFE00000, 0xC1E0000000100000])).setVreg 1 (BitVec.allOnes 512))
      [0xC5, 0xFD, 0xE6, 0xCA])) 1 =
    some (0x800000007FFFFFFFFFFFFFFF00000001, 0x1FA0, 0x1004) := by decide +kernel

/-- F6: broadcast, merging. -/
theorem test_step_evex128_broadcast :
    completed (step (withK (withGpr (codeData (launch.setVreg 1 (quads [0x1111111122222222, 5]))
      [0x62, 0xF1, 0xFD, 0x1A, 0xE6, 0x08] 0x9000 three) 0 0x9000) 2 2)) 1 =
    some (0x0000000322222222, 0x1F80, 0x1006) := by decide +kernel

/-- F11: bits from `VL/2` up are zeroed. -/
theorem test_step_evex128_register :
    completed (step (code ((launch.setVreg 2 (quads [0x3FF8000000000000, 0x4008000000000000])).setVreg 1 (BitVec.allOnes 512))
      [0x62, 0xF1, 0xFD, 0x08, 0xE6, 0xCA])) 1 = some (0x0000000300000001, 0x1FA0, 0x1006) := by decide +kernel

/-- F7: invalid inputs in disabled elements signal nothing. -/
theorem test_step_evex256_masked :
    completed (step (withK (code ((launch.setVreg 2
        (quads [0x4202A05F20000000, 0x7FF8000000000000, 0x8000000000000000, 0x40F0000000000000])).setVreg 1
        (quads [0xCCCCCCCCDDDDDDDD, 0xAAAAAAAABBBBBBBB, 7])) [0x62, 0xF1, 0xFD, 0x2B, 0xE6, 0xCA]) 3 0xC)) 1 =
    some (0x0001000000000000CCCCCCCCDDDDDDDD, 0x1F80, 0x1006) := by decide +kernel

/-- F8: zeroing. -/
theorem test_step_evex512_zeroing :
    completed (step (withK (code ((launch.setVreg 2 eight).setVreg 1 (BitVec.allOnes 512))
      [0x62, 0xF1, 0xFD, 0xC9, 0xE6, 0xCA]) 1 0xA5)) 1 =
    some (0x80000000000000000000002A0000000000000000FFFFFFFF0000000000000001, 0x1FA0, 0x1006) := by decide +kernel

/-- F10: `{sae}` with everything unmasked. -/
theorem test_step_evex512_sae :
    completed (step { code ((launch.setVreg 2 eight).setVreg 1 (BitVec.allOnes 512))
      [0x62, 0xF1, 0xFD, 0x18, 0xE6, 0xCA] with mxcsr := 0 }) 1 =
    some (0x80000000800000000000002A8000000080000000FFFFFFFF8000000000000001, 0, 0x1006) := by decide +kernel

/-- Straight after reset the row of form 1 is fetched and raises `#UD` (rule R200). -/
theorem test_reset_legacy :
    faulted (step (State.reset.withFetchWord 16 0x0FE6)) 0 = some (.invalidOpcode, 0, 0x1F80, 0xFFF0) := by decide +kernel

/-! ## For each statement with hypotheses, what meets them -/

/-- DecodeInvertsEncode: an extreme well-formed term of each family, one of them in 32-bit mode. -/
theorem witness_DecodeInvertsEncode :
    wellFormed .long64 (.cvttpd2dq
      { pre := [.segment .fs, .opSize, .rex 3, .addrSize], rex := true, dst := 15, src := .mem (.sib 3 15 15 (.d8 0xFC)) }) = true ∧
    wellFormed .prot32 (.vcvttpd2dqVex256
      { pre := [.addrSize], threeByte := true, vvvv := 0, dst := 7, src := .mem (.addr16 6 (.d16 0xFFFF)) }) = true ∧
    wellFormed .long64 (.vcvttpd2dqEvex512 { evexReg with dst := 31, aaa := 7, zeroing := true, src := .sae 31 }) = true := by
  decide +kernel

/-- DecodedIsWellFormed: E28 with a byte after it. -/
theorem witness_DecodedIsWellFormed :
    decode env64 [0x62, 0x81, 0xFD, 0x48, 0xE6, 0xCE, 0x90] =
      .instr (.vcvttpd2dqEvex512 { evexReg with dst := 17, src := .plain (.reg 30) }) [0x90] := by decide +kernel

/-- LegacyByteLayout, first clause: E1. -/
theorem witness_LegacyByteLayout : decode env64 [0x66, 0x0F, 0xE6, 0xCA] = .instr (.cvttpd2dq legReg) [] := by decide +kernel

/-- SaeIgnoresLengthBits: the bytes of E22, with `L'L` 00, 10 and 11. -/
theorem witness_SaeIgnoresLengthBits :
    (0xF1 : Byte).extractLsb' 0 4 = 1 ∧ (0xCA : Byte).extractLsb' 6 2 = 3 ∧ (0x18 : Byte).getLsbD 4 = true ∧
    (0x18 : Byte).extractLsb' 5 2 ≠ 2 ∧ (0x58 : Byte).getLsbD 4 = true ∧ (0x58 : Byte).extractLsb' 5 2 = 2 ∧
    (0x78 : Byte).getLsbD 4 = true ∧ (0x78 : Byte).extractLsb' 5 2 = 3 := by decide +kernel

/-- ReservedLengthRaisesUd: a register and a broadcast form with `L'L` 11; after an FS override, bytes that are form 6 with a broadcast
`[rax + 8]` (64 62 F1 FD 58 E6 48 01); X6 in memory. -/
theorem witness_ReservedLengthRaisesUd :
    ((0x68 : Byte).extractLsb' 5 2 = 3 ∧ (0x68 : Byte).getLsbD 4 = false ∧ (0xCA : Byte).extractLsb' 6 2 = 3 ∧
      (0xF1 : Byte).extractLsb' 0 4 = 1) ∧
    ((0x78 : Byte).extractLsb' 5 2 = 3 ∧ ¬((0x08 : Byte).extractLsb' 6 2 = 3 ∧ (0x78 : Byte).getLsbD 4 = true)) ∧
    (prefixesOk env64.mode [.segment .fs] = true ∧ ¬((0x48 : Byte).extractLsb' 6 2 = 3 ∧ (0x58 : Byte).getLsbD 4 = true) ∧
      decode env64 ([LegacyPrefix.segment .fs].map prefixByte ++ [0x62, 0xF1, 0xFD, 0x58, 0xE6, 0x48, 0x01]) =
        .instr (.vcvttpd2dqEvex512 { evexReg with pre := [.segment .fs], src := .broadcast (.base 0 (.d8 1)) }) []) ∧
    decode (code launch [0x62, 0xF1, 0xFD, 0x68, 0xE6, 0xCA]).decodeEnv
      (fetch (code launch [0x62, 0xF1, 0xFD, 0x68, 0xE6, 0xCA])).1 = .undefinedOpcode := by decide +kernel

/-- StepRunsDecodedInstruction: E1 at RIP. -/
theorem witness_StepRunsDecodedInstruction :
    decode (code launch [0x66, 0x0F, 0xE6, 0xCA]).decodeEnv (fetch (code launch [0x66, 0x0F, 0xE6, 0xCA])).1 =
      .instr (.cvttpd2dq legReg) (List.replicate 11 0) ∧
    wellFormed (code launch [0x66, 0x0F, 0xE6, 0xCA]).mode (.cvttpd2dq legReg) = true := by decide +kernel

/-- E1 five times: twenty bytes. -/
def twenty : List Byte := (List.replicate 5 [0x66, 0x0F, 0xE6, 0xCA]).flatten

/-- CodeAtIsFetched: twenty bytes of code with RIP at their base and at the second instruction, steps that complete and that fault; four bytes up
to offset FFFFH in real-address mode. -/
theorem witness_CodeAtIsFetched :
    ((code launch twenty).codeAt 0x1000 twenty ∧ (code launch twenty).rip = 0x1000 ∧ launch.mode = .long64) ∧
    ({ code launch twenty with rip := 0x1004 } : State).codeAt 0x1000 twenty ∧
    (∃ t, step (code launch twenty) = .next t) ∧ (∃ x t, step { code launch twenty with cr4 := 0 } = .fault (.exception x t)) ∧
    (code launch32 twenty).codeAt 0x1000 twenty ∧
    (({ State.reset with mem := cells 0xFFFFFFFC [0x66, 0x0F, 0xE6, 0xCA] } : State).codeAt 0xFFFC [0x66, 0x0F, 0xE6, 0xCA] ∧
      (0xFFFC : Word64).toNat + 4 ≤ 2 ^ 16) := by
  unfold State.codeAt
  exact ⟨by decide +kernel, by decide +kernel, exists_next (by decide +kernel), exists_fault (by decide +kernel), by decide +kernel⟩

/-- Code of `66` bytes only. -/
def prefixesOnly : State := code launch (List.replicate 16 0x66)

/-- OverlongFetchRaisesGp. -/
theorem witness_OverlongFetchRaisesGp :
    (∀ i < 15, ∃ b, fetchByte prefixesOnly i = .ok b) ∧ decode prefixesOnly.decodeEnv (fetch prefixesOnly).1 = .truncated :=
  ⟨fun i hi => ⟨0x66, (by decide +kernel : ∀ i < 15, fetchByte prefixesOnly i = .ok 0x66) i hi⟩, by decide +kernel⟩

/-- Two bytes of an instruction below the limit of CS. -/
def atLimit : State :=
  { launch32 with cs := { launch32.cs with limit := 0x1001 }, rip := 0x1000, mem := cells 0x1000 [0x66, 0x0F] }

/-- FetchFaultIsReported: the third byte lies outside CS. -/
theorem witness_FetchFaultIsReported :
    (∀ i < 2, ∃ b, fetchByte atLimit i = .ok b) ∧ fetchByte atLimit 2 = .raise .generalProtection ∧
    decode atLimit.decodeEnv (fetch atLimit).1 = .truncated :=
  ⟨fun i hi => ⟨[0x66, 0x0F].getD i 0,
    (by decide +kernel : ∀ i < 2, fetchByte atLimit i = .ok ([0x66, 0x0F].getD i 0)) i hi⟩, by decide +kernel⟩

/-- ExceptionPriority: lengths 16 and 15; CR4.OSFXSR clear; CR0.TS set; a misaligned operand. -/
theorem witness_ExceptionPriority :
    (15 < (Instr.cvttpd2dq { legReg with pre := List.replicate 13 .opSize }).length ∧
      (Instr.cvttpd2dq { legReg with pre := List.replicate 12 .opSize }).length ≤ 15 ∧
      ({ launch with cr4 := 0x40420 } : State).undefinedFor
        (.cvttpd2dq { legReg with pre := List.replicate 12 .opSize }) = true) ∧
    (({ launch with cr0 := 0x8000003B } : State).undefinedFor (.cvttpd2dq legReg) = false ∧
      ({ launch with cr0 := 0x8000003B } : State).cr0TS = true) ∧
    ((withGpr launch 0 0x8008).ready (.cvttpd2dq legMem) ∧
      (withGpr launch 0 0x8008).source (.cvttpd2dq legMem) = .raise .generalProtection) := by
  unfold State.ready; decide +kernel

/-- LegacyUndefinedConditions: one state or operand for each condition. -/
theorem witness_LegacyUndefinedConditions :
    legReg.length ≤ 15 ∧ ({ launch with cr0 := 0x80000037 } : State).cr0EM = true ∧
    ({ launch with cr4 := 0x40420 } : State).cr4OSFXSR = false ∧ LegacyPrefix.lock ∈ [LegacyPrefix.lock, .opSize] ∧
    ({ legReg with pre := [.lock, .opSize] } : LegacyOps).length ≤ 15 ∧
    (withFeat { noVl with sse2 := false }).impl.feat.sse2 = false := by decide +kernel

/-- Virtual-8086 mode. -/
def launchV86 : State := { launch32 with rflags := 0x20002 }

/-- VexUndefinedConditions: the same. -/
theorem witness_VexUndefinedConditions :
    ({ vexReg with pre := [.rex 0] } : VexOps).length ≤ 15 ∧ State.reset.mode = .real ∧ launchV86.mode = .v86 ∧
    ({ launch with cr4 := 0x620 } : State).cr4OSXSAVE = false ∧ ({ launch with xcr0 := 0xE3 } : State).xcr0Avx = false ∧
    (withFeat { noVl with avx := false }).impl.feat.avx = false ∧ LegacyPrefix.opSize ∈ [LegacyPrefix.opSize] ∧
    LegacyPrefix.repne ∈ [LegacyPrefix.repne] ∧ LegacyPrefix.rep ∈ [LegacyPrefix.rep] ∧ LegacyPrefix.lock ∈ [LegacyPrefix.lock] ∧
    LegacyPrefix.rex 0 ∈ [LegacyPrefix.rex 0] := by decide +kernel

/-- EvexUndefinedConditions: those that the VEX forms do not have. -/
theorem witness_EvexUndefinedConditions :
    ({ evexReg with vHigh := false } : EvexOps).length ≤ 15 ∧ ({ evexReg with pre := [.rex 0] } : EvexOps).length ≤ 15 ∧
    ({ launch with xcr0 := 0x67 } : State).xcr0Avx512 = false ∧ ({ launch with xcr0 := 0xE1 } : State).xcr0Avx = false ∧
    ({ evexReg with zeroing := true } : EvexOps).aaa = 0 ∧
    (withFeat noVl).impl.feat.avx512vl = false ∧ (withFeat noVl).impl.feat.avx10_1 = false ∧
    (withFeat noAvx512).impl.feat.avx512f = false ∧ (withFeat noAvx512).impl.feat.avx10_1 = false := by decide +kernel

/-- ReservedVvvvRaisesUd: 1110 (X1, X3) and 0000. -/
theorem witness_ReservedVvvvRaisesUd :
    ({ vexReg with vvvv := 14 } : VexOps).vvvv ≠ 15 ∧ ({ vexReg with vvvv := 0 } : VexOps).length ≤ 15 ∧
    ({ evexReg with vvvv := 14 } : EvexOps).vvvv ≠ 15 ∧ ({ evexReg with vvvv := 0 } : EvexOps).length ≤ 15 := by decide +kernel

/-- F15 and F17: elements and MXCSR. -/
def f15 : State := { launch.setVreg 2 (quads [0x41E0000000000000, 0]) with mxcsr := 0x1F00 }
def f17 : State := { launch.setVreg 2 (quads [0x3FF8000000000000, 0x41E0000000000000]) with mxcsr := 0x0F80 }

/-- UnmaskedConditionFaults: unmasked Invalid (F15), unmasked Precision (F17). -/
theorem witness_UnmaskedConditionFaults :
    (f15.ready (.cvttpd2dq legReg) ∧ Instr.suppressed (.cvttpd2dq legReg) = false ∧
      f15.source (.cvttpd2dq legReg) = .ok [some 0x41E0000000000000, some 0] ∧
      f15.someInvalid [some 0x41E0000000000000, some 0] ∧ f15.mxIM = false) ∧
    (f17.ready (.cvttpd2dq legReg) ∧
      f17.source (.cvttpd2dq legReg) = .ok [some 0x3FF8000000000000, some 0x41E0000000000000] ∧
      f17.someInexact [some 0x3FF8000000000000, some 0x41E0000000000000] ∧ f17.mxPM = false) := by
  rw [← anyInvalid_iff, ← anyInexact_iff]
  unfold State.ready; decide +kernel

/-- RAX points at a page that is not present. -/
def unmapped : State := { withGpr launch 0 0x9000 with pages := [(9, .notPresent)] }

/-- FaultsArePrecise: `#UD` after reset, and a page fault. -/
theorem witness_FaultsArePrecise :
    (∃ x t, exec (.cvttpd2dq legReg) State.reset = .fault (.exception x t)) ∧
    ∃ x t, exec (.vcvttpd2dqVex128 vexMem) unmapped = .fault (.exception x t) :=
  ⟨exists_fault (by decide +kernel), exists_fault (by decide +kernel)⟩

/-- RegisterSourceElements and WritemaskBits: the last element. -/
theorem witness_lastElement : (7 : Nat) < (List.replicate 8 true).length ∧ (7 : Nat) < 8 := by decide

/-- ElementsFollowMask: every element enabled; the second of two. -/
theorem witness_ElementsFollowMask :
    launch.source (.cvttpd2dq legReg) = .ok [some 0, some 0] ∧
    (withK launch 2 2).source (.vcvttpd2dqEvex128 { evexReg with aaa := 2 }) = .ok [none, some 0] := by decide +kernel

/-- RAX points at 3.0; only the second element of mask 2 is enabled. -/
def atThree : State := withK (withGpr { launch with mem := cells 0x9000 three } 0 0x9000) 2 2

/-- QuadIsLittleEndian: eight readable bytes. -/
theorem witness_QuadIsLittleEndian :
    ∀ i < 8, readByte atThree .data (linearAdd atThree (atThree.linear .ds 0x9000) i) = .ok (three.getD i 0) := by decide +kernel

/-- F14: 32 readable bytes below a page that is not present. -/
def belowUnmapped : State :=
  { withK (withGpr launch 0 0x9FE0) 1 0xF with
    mem := cells 0x9FE0 (three ++ three ++ three ++ three), pages := [(10, .notPresent)] }

/-- Its mask. -/
def lowFour : List Bool := [true, true, true, true, false, false, false, false]

/-- MemoryOperandElements: four enabled elements readable, the others not mapped (F14); an aligned operand of form 1. -/
theorem witness_MemoryOperandElements :
    (true ∈ lowFour ∧ ∀ j, lowFour[j]? = some true →
      (∀ i < 8, belowUnmapped.byteOk .ds (belowUnmapped.effectiveAddress [] 6 64 (.base 0 .none)) (8 * j + i) = true) ∧
        readQuad belowUnmapped (linearAdd belowUnmapped
          (belowUnmapped.linear .ds (belowUnmapped.effectiveAddress [] 6 64 (.base 0 .none))) (8 * j)) = .ok 0x4008000000000000) ∧
    belowUnmapped.operandSegment [] (.base 0 .none) = .ds ∧
    (atThree.linear .ds (atThree.effectiveAddress [.opSize] 4 1 (.base 0 .none))).toNat % 16 = 0 := by
  refine ⟨⟨by decide, fun j hj => ?_⟩, by decide +kernel, by decide +kernel⟩
  have h8 : j < 8 := (List.getElem?_eq_some_iff.1 hj).1
  exact (by decide +kernel : ∀ j < 8, lowFour[j]? = some true →
    (∀ i < 8, belowUnmapped.byteOk .ds (belowUnmapped.effectiveAddress [] 6 64 (.base 0 .none)) (8 * j + i) = true) ∧
      readQuad belowUnmapped (linearAdd belowUnmapped
        (belowUnmapped.linear .ds (belowUnmapped.effectiveAddress [] 6 64 (.base 0 .none))) (8 * j)) = .ok 0x4008000000000000) j h8 hj

/-- BroadcastReadsOnce and BroadcastOperandReads: F6. -/
theorem witness_BroadcastReadsOnce :
    true ∈ atThree.enabledElements (.vcvttpd2dqEvex128 evexBcst) ∧
    atThree.source (.vcvttpd2dqEvex128 evexBcst) = .ok [none, some 0x4008000000000000] ∧
    (∀ i < 8, atThree.byteOk .ds (atThree.effectiveAddress [] 6 8 (.base 0 .none)) i = true) ∧
    readQuad atThree (atThree.linear .ds (atThree.effectiveAddress [] 6 8 (.base 0 .none))) = .ok 0x4008000000000000 ∧
    ({ atThree with cr0 := 0x80040033, rflags := 0x40002 } : State).alignCheck = true ∧
    (atThree.linear .ds (atThree.effectiveAddress [] 6 8 (.base 0 .none))).toNat % 8 = 0 := by decide +kernel

/-- AllMaskedOffReadsNothing: a full-width and a broadcast operand, each addressable (not mapped) and with the last byte not canonical. -/
theorem witness_AllMaskedOffReadsNothing :
    (unmapped.ready (.vcvttpd2dqEvex512 evexMem) ∧ true ∉ unmapped.enabledElements (.vcvttpd2dqEvex512 evexMem) ∧
      ∀ k < 64, unmapped.byteOk .ds (unmapped.effectiveAddress [] 6 64 (.base 0 .none)) k = true) ∧
    (unmapped.ready (.vcvttpd2dqEvex128 evexBcst) ∧ true ∉ unmapped.enabledElements (.vcvttpd2dqEvex128 evexBcst) ∧
      ∀ k < 8, unmapped.byteOk .ds (unmapped.effectiveAddress [] 6 8 (.base 0 .none)) k = true) ∧
    ((withGpr launch 0 0x7FFFFFFFFFF9).ready (.vcvttpd2dqEvex128 evexBcst) ∧
      true ∉ (withGpr launch 0 0x7FFFFFFFFFF9).enabledElements (.vcvttpd2dqEvex128 evexBcst) ∧
      (withGpr launch 0 0x7FFFFFFFFFF9).byteOk .ds
        ((withGpr launch 0 0x7FFFFFFFFFF9).effectiveAddress [] 6 8 (.base 0 .none)) 7 = false) ∧
    ((withGpr launch 0 0x7FFFFFFFFFC1).ready (.vcvttpd2dqEvex512 evexMem) ∧
      true ∉ (withGpr launch 0 0x7FFFFFFFFFC1).enabledElements (.vcvttpd2dqEvex512 evexMem) ∧
      (withGpr launch 0 0x7FFFFFFFFFC1).byteOk .ds
        ((withGpr launch 0 0x7FFFFFFFFFC1).effectiveAddress [] 6 64 (.base 0 .none)) 63 = false) := by
  unfold State.ready; decide +kernel

/-- LegacyMisalignedRaisesGp: F3. -/
theorem witness_LegacyMisalignedRaisesGp :
    (withGpr launch 0 0x8008).ready (.cvttpd2dq legMem) ∧
    (∀ k < 16, (withGpr launch 0 0x8008).byteOk .ds
      ((withGpr launch 0 0x8008).effectiveAddress [.opSize] 4 1 (.base 0 .none)) k = true) ∧
    ((withGpr launch 0 0x8008).linear .ds
      ((withGpr launch 0 0x8008).effectiveAddress [.opSize] 4 1 (.base 0 .none))).toNat % 16 ≠ 0 := by
  unfold State.ready; decide +kernel

/-- F21. -/
def f21 : State := { withGpr launch 0 0x9001 with cr0 := 0x80040033, rflags := 0x40002 }

/-- BroadcastMisalignedRaisesAc: F21. -/
theorem witness_BroadcastMisalignedRaisesAc :
    f21.ready (.vcvttpd2dqEvex128 { evexBcst with aaa := 0 }) ∧
    true ∈ f21.enabledElements (.vcvttpd2dqEvex128 { evexBcst with aaa := 0 }) ∧ f21.alignCheck = true ∧
    (∀ k < 8, f21.byteOk .ds (f21.effectiveAddress [] 6 8 (.base 0 .none)) k = true) ∧
    readQuad f21 (f21.linear .ds (f21.effectiveAddress [] 6 8 (.base 0 .none))) = .ok 0 ∧
    (f21.linear .ds (f21.effectiveAddress [] 6 8 (.base 0 .none))).toNat % 8 ≠ 0 := by
  unfold State.ready; decide +kernel

/-- BadAddressFaults: the last byte of an operand is the first that is not canonical (form 1 through DS, form 2 through SS, form 6, and a
broadcast operand of form 4), and outside a 32-bit segment's limit. -/
theorem witness_BadAddressFaults :
    ((withGpr launch 0 0x7FFFFFFFFFF1).ready (.cvttpd2dq legMem) ∧
      Instr.fullOperand (.cvttpd2dq legMem) = some ([.opSize], 1, .base 0 .none) ∧
      ((withGpr launch 0 0x7FFFFFFFFFF1).enabledElements (.cvttpd2dq legMem))[1]? = some true ∧
      (withGpr launch 0 0x7FFFFFFFFFF1).byteOk .ds 0x7FFFFFFFFFF1 (8 * 1 + 7) = false ∧
      (withGpr launch 0 0x7FFFFFFFFFF1).byteOk .ds 0x7FFFFFFFFFF1 (8 * 1 + 6) = true) ∧
    ((withGpr launch 4 0x7FFFFFFFFFF1).operandSegment [] (.sib 0 4 4 .none) = .ss ∧
      (withGpr launch 4 0x7FFFFFFFFFF1).effectiveAddress [] 5 1 (.sib 0 4 4 .none) = 0x7FFFFFFFFFF1) ∧
    ((withK (withGpr launch 0 0x7FFFFFFFFFC1) 1 0x80).ready (.vcvttpd2dqEvex512 evexMem) ∧
      Instr.fullOperand (.vcvttpd2dqEvex512 evexMem) = some ([], 64, .base 0 .none) ∧
      ((withK (withGpr launch 0 0x7FFFFFFFFFC1) 1 0x80).enabledElements (.vcvttpd2dqEvex512 evexMem))[7]? = some true ∧
      (withK (withGpr launch 0 0x7FFFFFFFFFC1) 1 0x80).byteOk .ds 0x7FFFFFFFFFC1 (8 * 7 + 7) = false) ∧
    ((withK (withGpr launch 0 0x7FFFFFFFFFF9) 2 2).ready (.vcvttpd2dqEvex128 evexBcst) ∧
      Instr.broadcastOperand (.vcvttpd2dqEvex128 evexBcst) = some ([], .base 0 .none) ∧
      true ∈ (withK (withGpr launch 0 0x7FFFFFFFFFF9) 2 2).enabledElements (.vcvttpd2dqEvex128 evexBcst) ∧
      (withK (withGpr launch 0 0x7FFFFFFFFFF9) 2 2).effectiveAddress [] 6 8 (.base 0 .none) = 0x7FFFFFFFFFF9 ∧
      (withK (withGpr launch 0 0x7FFFFFFFFFF9) 2 2).byteOk .ds 0x7FFFFFFFFFF9 7 = false) ∧
    (({ withGpr launch32 0 0xFFF1 with ds := { flatData with limit := 0xFFFF } } : State).ready (.vcvttpd2dqVex128 vexMem) ∧
      ({ withGpr launch32 0 0xFFF1 with ds := { flatData with limit := 0xFFFF } } : State).byteOk .ds 0xFFF1 15 = false) := by
  unfold State.ready; decide +kernel

/-- CanonicalAddressBits: both sides of the boundary, with 4-level and 5-level paging. -/
theorem witness_CanonicalAddressBits :
    canonical launch 0x7FFFFFFFFFFF = true ∧ canonical launch 0x800000000000 = false ∧
    canonical launch 0xFFFF800000000000 = true ∧
    canonical { launch with cr4 := 0x41620 } 0xFFFFFFFFFFFFFF = true ∧
    canonical { launch with cr4 := 0x41620 } 0x100000000000000 = false := by decide +kernel

/-- OperandByteChecks: both sides of each bound, in each mode; a segment that is not readable and one that is null. -/
theorem witness_OperandByteChecks :
    (launch.mode = .long64 ∧ launch.byteOk .ds 0x7FFFFFFFFFF8 7 = true ∧ launch.byteOk .ds 0x7FFFFFFFFFF8 8 = false) ∧
    (State.reset.mode = .real ∧ State.reset.byteOk .ss 0xFFF0 15 = true ∧ State.reset.byteOk .ss 0xFFF0 16 = false) ∧
    (launchV86.mode = .v86 ∧ launchV86.byteOk .ds 0xFFF0 15 = true ∧ launchV86.byteOk .ds 0xFFF0 16 = false) ∧
    (launch32.mode = .prot32 ∧
      ({ launch32 with ds := { flatData with limit := 0x1FFF } } : State).byteOk .ds 0x1FF0 15 = true ∧
      ({ launch32 with ds := { flatData with limit := 0x1FFF } } : State).byteOk .ds 0x1FF0 16 = false ∧
      ({ launch32 with ds := { flatData with readable := false } } : State).byteOk .ds 0 0 = false ∧
      ({ launch32 with ss := { flatData with null := true } } : State).byteOk .ss 0 0 = false) ∧
    launch16.mode = .prot16 := by decide +kernel

/-- PageFaultRecords: a page not present; a supervisor page at CPL 3; an operand that raises. -/
theorem witness_PageFaultRecords :
    (unmapped.cr0PE = true ∧ unmapped.cr0PG = true ∧ pageEntry unmapped.pages ((0x9FFF : Word64).toNat / 4096) = some .notPresent) ∧
    (pageEntry [(9, PageEntry.mapped 9 false)] 9 = some (.mapped 9 false) ∧ launch.cplIs3 = true) ∧
    (unmapped.ready (.vcvttpd2dqVex128 vexMem) ∧
      unmapped.source (.vcvttpd2dqVex128 vexMem) = .raise (.pageFault 4 0x9000)) := by
  unfold State.ready; decide +kernel

/-- F14 with K1 = 1FH. -/
def f14 : State := withK belowUnmapped 1 0x1F

/-- The broadcast operand of `evexBcst` goes from 9FFCH into the page at A000H. -/
def straddling : State := withK (withGpr { launch with pages := [(10, .notPresent)] } 0 0x9FFC) 2 2

/-- The page at A000H is a device, and linear page 11 is mapped to it. -/
def device : State := { withGpr launch 0 0x9FF8 with pages := [(11, .mapped 10 true)], devicePages := [10] }

/-- UnreadableByteStops: the fifth element of F14; a broadcast operand whose fifth byte is not mapped; the second element of form 2 in a device page;
form 1 at the device page; the device page without paging, by its own number and through another. -/
theorem witness_UnreadableByteStops :
    (f14.ready (.vcvttpd2dqEvex512 evexMem) ∧ (f14.enabledElements (.vcvttpd2dqEvex512 evexMem))[4]? = some true ∧
      Instr.fullOperand (.vcvttpd2dqEvex512 evexMem) = some ([], 64, .base 0 .none) ∧
      f14.effectiveAddress [] 6 64 (.base 0 .none) = 0x9FE0 ∧ f14.operandSegment [] (.base 0 .none) = .ds ∧
      readByte f14 .data (linearAdd f14 (f14.linear .ds 0x9FE0) (8 * 4 + 0)) = .raise (.pageFault 4 0xA000)) ∧
    (∀ j, (f14.enabledElements (.vcvttpd2dqEvex512 evexMem))[j]? = some true → ∀ k < 8, f14.byteOk .ds 0x9FE0 (8 * j + k) = true ∧
      (8 * j + k < 8 * 4 + 0 → ∃ b, readByte f14 .data (linearAdd f14 (f14.linear .ds 0x9FE0) (8 * j + k)) = .ok b)) ∧
    (straddling.ready (.vcvttpd2dqEvex128 evexBcst) ∧ true ∈ straddling.enabledElements (.vcvttpd2dqEvex128 evexBcst) ∧
      Instr.broadcastOperand (.vcvttpd2dqEvex128 evexBcst) = some ([], .base 0 .none) ∧
      straddling.effectiveAddress [] 6 8 (.base 0 .none) = 0x9FFC ∧
      readByte straddling .data (linearAdd straddling (straddling.linear .ds 0x9FFC) 4) = .raise (.pageFault 4 0xA000)) ∧
    (∀ k < 8, straddling.byteOk .ds 0x9FFC k = true ∧
      (k < 4 → ∃ b, readByte straddling .data (linearAdd straddling (straddling.linear .ds 0x9FFC) k) = .ok b)) ∧
    (device.ready (.vcvttpd2dqVex128 vexMem) ∧ (device.enabledElements (.vcvttpd2dqVex128 vexMem))[1]? = some true ∧
      Instr.fullOperand (.vcvttpd2dqVex128 vexMem) = some ([], 1, .base 0 .none) ∧
      device.effectiveAddress [] 4 1 (.base 0 .none) = 0x9FF8 ∧
      readByte device .data (linearAdd device (device.linear .ds 0x9FF8) (8 * 1 + 0)) = .refuse .deviceAccess ∧
      refusedFor .deviceAccess (exec (.vcvttpd2dqVex128 vexMem) device) = true) ∧
    ((withGpr device 0 0xA000).ready (.cvttpd2dq legMem) ∧ ((withGpr device 0 0xA000).linear .ds 0xA000).toNat % 16 = 0 ∧
      readByte (withGpr device 0 0xA000) .data 0xA000 = .refuse .deviceAccess) ∧
    ((launch32.cr0PG = false ∧ pageEntry device.pages (0xA000 / 4096) = none ∧ 0xA000 / 4096 ∈ device.devicePages) ∧
      device.cr0PE = true ∧ device.cr0PG = true ∧ pageEntry device.pages (0xB000 / 4096) = some (.mapped 10 true) ∧
      10 ∈ device.devicePages) := by
  unfold State.ready
  refine ⟨by decide +kernel, of_enabled fun j hj he k hk => ?_, by decide +kernel, fun k hk => ?_, by decide +kernel, by decide +kernel,
    by decide +kernel⟩
  · have := (by decide +kernel : ∀ j < 8, (f14.enabledElements (.vcvttpd2dqEvex512 evexMem))[j]? = some true → ∀ k < 8,
      f14.byteOk .ds 0x9FE0 (8 * j + k) = true ∧
        (8 * j + k < 8 * 4 + 0 → readable f14 (linearAdd f14 (f14.linear .ds 0x9FE0) (8 * j + k)) = true)) j hj he k hk
    exact ⟨this.1, fun h => exists_byte (this.2 h)⟩
  · have := (by decide +kernel : ∀ k < 8, straddling.byteOk .ds 0x9FFC k = true ∧
      (k < 4 → readable straddling (linearAdd straddling (straddling.linear .ds 0x9FFC) k) = true)) k hk
    exact ⟨this.1, fun h => exists_byte (this.2 h)⟩

/-- LinearAddresses: an FS base that wraps in 64-bit mode, where the DS base does not count; a DS base that wraps in 32-bit mode. -/
theorem witness_LinearAddresses :
    (launch.mode = .long64 ∧
      ({ launch with fs := { flatData with base := 0xFFFFFFFFFFFFF000 } } : State).linear .fs 0x2000 = 0x1000 ∧
      ({ launch with ds := { flatData with base := 0xFFFFFFFFFFFFF000 } } : State).linear .ds 0x2000 = 0x2000) ∧
    (launch32.mode ≠ .long64 ∧
      ({ launch32 with ds := { flatData with base := 0xFFFFF000 } } : State).linear .ds 0x2000 = 0x1000) := by decide +kernel

/-- EffectiveAddressesInLong64, ThirtyTwoBitAddresses and SixteenBitAddresses: each mode, with a `67` prefix byte and without; an index that counts. -/
theorem witness_effectiveAddresses :
    (launch.mode = .long64 ∧ launch32.mode = .prot32 ∧ launch16.mode = .prot16 ∧ State.reset.mode = .real ∧ launchV86.mode = .v86) ∧
    (12 : BitVec 4) ≠ 4 ∧ LegacyPrefix.addrSize ∈ [LegacyPrefix.addrSize] ∧ LegacyPrefix.addrSize ∉ [LegacyPrefix.opSize] := by
  decide +kernel

/-- LastSegmentOverrideWins: other prefix bytes after the last override in 32-bit mode; ES after FS in 64-bit mode; no override; SS only, in
64-bit mode. -/
theorem witness_LastSegmentOverrideWins :
    (launch32.mode ≠ .long64 ∧ ∀ q, LegacyPrefix.segment q ∉ [LegacyPrefix.opSize]) ∧
    (launch.mode = .long64 ∧ LegacyPrefix.segment .fs ∉ [LegacyPrefix.segment .es] ∧
      LegacyPrefix.segment .gs ∉ [LegacyPrefix.segment .es]) ∧
    (∀ q, LegacyPrefix.segment q ∉ ([] : List LegacyPrefix)) ∧
    (LegacyPrefix.segment .fs ∉ [LegacyPrefix.segment .ss] ∧ LegacyPrefix.segment .gs ∉ [LegacyPrefix.segment .ss]) :=
  ⟨⟨by decide +kernel, fun q => by cases q <;> decide⟩, by decide +kernel, fun q => by cases q <;> decide, by decide⟩

/-- The exact value of a normal double, from its fields. -/
theorem valueOf_normal {b : Word64} (s : Bool) (e f : Nat) (hs : signOf b = s) (he : expOf b = e) (hf : fracOf b = f)
    (h0 : e ≠ 0) (h1 : e ≠ 2047) :
    valueOf b = (if s then -1 else 1) * (((2 ^ 52 + f : Nat) : ℚ) * 2 ^ ((e : ℤ) - 1075)) := by
  simp [valueOf, significand, hs, he, hf, h0, h1]

/-- ConversionTruncatesExactValue: an infinity; 2^31 and -2^31 - 1, which are outside the range; 2^31 - 1 and -2^31, which are its ends. -/
theorem witness_ConversionTruncatesExactValue :
    expOf 0x7FF0000000000000 = 2047 ∧
    truncRat (valueOf 0x41E0000000000000) > 2 ^ 31 - 1 ∧ truncRat (valueOf 0xC1E0000000200000) < -2 ^ 31 ∧
    truncRat (valueOf 0x41DFFFFFFFC00000) = 2 ^ 31 - 1 ∧ truncRat (valueOf 0xC1E0000000000000) = -2 ^ 31 := by
  have h1 : valueOf 0x41E0000000000000 = ((2147483648 : ℤ) : ℚ) := by
    rw [valueOf_normal false 1054 0 (by decide +kernel) (by decide +kernel) (by decide +kernel) (by decide) (by decide)]; norm_num
  have h2 : valueOf 0xC1E0000000200000 = ((-2147483649 : ℤ) : ℚ) := by
    rw [valueOf_normal true 1054 2097152 (by decide +kernel) (by decide +kernel) (by decide +kernel) (by decide) (by decide)]; norm_num
  have h3 : valueOf 0x41DFFFFFFFC00000 = ((2147483647 : ℤ) : ℚ) := by
    rw [valueOf_normal false 1053 4503599623176192 (by decide +kernel) (by decide +kernel) (by decide +kernel) (by decide) (by decide)]
    norm_num
  have h4 : valueOf 0xC1E0000000000000 = ((-2147483648 : ℤ) : ℚ) := by
    rw [valueOf_normal true 1054 0 (by decide +kernel) (by decide +kernel) (by decide +kernel) (by decide) (by decide)]; norm_num
  refine ⟨by decide +kernel, ?_, ?_, ?_, ?_⟩
  · rw [h1, truncRat, Int.floor_intCast, Int.ceil_intCast]; simp
  · rw [h2, truncRat, Int.floor_intCast, Int.ceil_intCast]; simp
  · rw [h3, truncRat, Int.floor_intCast, Int.ceil_intCast]; simp
  · rw [h4, truncRat, Int.floor_intCast, Int.ceil_intCast]; simp

/-- BitLevelConversion: `x` = -1, 0, 30, 31 (each sign and both sides of `2^21`) and 32. -/
theorem witness_BitLevelConversion :
    expOf 0x3FE0000000000000 = 1022 ∧ expOf 0x3FF0000000000000 = 1023 ∧ expOf 0x41DFFFFFFFC00000 = 1053 ∧
    (expOf 0xC1E00000001FFFFF = 1054 ∧ signOf 0xC1E00000001FFFFF = true ∧ fracOf 0xC1E00000001FFFFF = 2 ^ 21 - 1) ∧
    (expOf 0xC1E0000000200000 = 1054 ∧ fracOf 0xC1E0000000200000 = 2 ^ 21) ∧
    (expOf 0x41E0000000000000 = 1054 ∧ signOf 0x41E0000000000000 = false) ∧ expOf 0x41F0000000000000 = 1055 := by decide +kernel

/-- OnlyDazAndMasksMatter: another `RC` and another sticky flag (F20). -/
theorem witness_OnlyDazAndMasksMatter :
    (0x7F82 : BitVec 32).getLsbD 6 = launch.mxcsr.getLsbD 6 ∧ (0x7F82 : BitVec 32).getLsbD 7 = launch.mxcsr.getLsbD 7 ∧
    (0x7F82 : BitVec 32).getLsbD 12 = launch.mxcsr.getLsbD 12 ∧ ∃ t, exec (.cvttpd2dq legReg) launch = .next t :=
  ⟨by decide +kernel, by decide +kernel, by decide +kernel, exists_next (by decide +kernel)⟩

/-- F4's source register. -/
def f4 : State := launch.setVreg 2 (quads [0x3FF8000000000000, 0x41E0000000000000])

/-- LegacyCompletes and Vex128Completes: an inexact and an invalid element, both masked. -/
theorem witness_twoElementsComplete :
    f4.legacyEnabled = true ∧ LegacyPrefix.lock ∉ legReg.pre ∧ legReg.length ≤ 15 ∧
    f4.source (.cvttpd2dq legReg) = .ok [some 0x3FF8000000000000, some 0x41E0000000000000] ∧
    f4.vexEnabled = true ∧ badEscapePrefix vexReg.pre = false ∧ vexReg.vvvv = 15 ∧ vexReg.length ≤ 15 ∧
    f4.source (.vcvttpd2dqVex128 vexReg) = .ok [some 0x3FF8000000000000, some 0x41E0000000000000] ∧
    (true = true ↔ (f4.convert 0x3FF8000000000000).invalid = true ∨ (f4.convert 0x41E0000000000000).invalid = true) ∧
    (true = true ↔ (f4.convert 0x3FF8000000000000).inexact = true ∨ (f4.convert 0x41E0000000000000).inexact = true) ∧
    f4.mxIM = true ∧ f4.mxPM = true := by decide +kernel

/-- Vex256Completes: four zeros, with every condition unmasked. -/
theorem witness_Vex256Completes :
    ({ launch with mxcsr := 0 } : State).vexEnabled = true ∧ badEscapePrefix vexReg.pre = false ∧ vexReg.vvvv = 15 ∧
    vexReg.length ≤ 15 ∧ 256 ≤ launch.impl.maxvl.bits ∧
    ({ launch with mxcsr := 0 } : State).source (.vcvttpd2dqVex256 vexReg) = .ok [some 0, some 0, some 0, some 0] ∧
    (false = true ↔ ∃ x ∈ [(0 : Word64), 0, 0, 0], (({ launch with mxcsr := 0 } : State).convert x).invalid = true) ∧
    (false = true ↔ ∃ x ∈ [(0 : Word64), 0, 0, 0], (({ launch with mxcsr := 0 } : State).convert x).inexact = true) := by
  simp only [List.mem_cons, List.not_mem_nil, or_false, or_self, exists_eq_left]; decide +kernel

/-- F7's state. -/
def f7 : State :=
  withK (launch.setVreg 2 (quads [0x4202A05F20000000, 0x7FF8000000000000, 0x8000000000000000, 0x40F0000000000000])) 3 0xC

/-- F7's operands. -/
def evexF7 : EvexOps := { evexReg with aaa := 3, zeroing := true }

/-- What an element enabled and one disabled look like to forms 4 to 6. -/
def f7Elements : List (Option Word64) := [none, none, some 0x8000000000000000, some 0x40F0000000000000]

/-- Evex128Completes, Evex256Completes, Evex512Completes: the form's enabling, no reserved field, a partial mask, no condition. -/
theorem witness_evexComplete :
    f7.evexEnabled ((f7.impl.feat.avx512vl && f7.impl.feat.avx512f) || f7.impl.feat.avx10_1) = true ∧
    f7.evexEnabled (f7.impl.feat.avx512f || f7.impl.feat.avx10_1) = true ∧
    (badEscapePrefix evexF7.pre = false ∧ evexF7.vvvv = 15 ∧ evexF7.vHigh = true ∧ evexF7.aaa ≠ 0 ∧ evexF7.length ≤ 15) ∧
    (256 ≤ f7.impl.maxvl.bits ∧ f7.impl.maxvl = .vl512 ∧ EvexSource.isSae evexF7.src = false) ∧
    f7.source (.vcvttpd2dqEvex128 evexF7) = .ok [none, none] ∧ f7.source (.vcvttpd2dqEvex256 evexF7) = .ok f7Elements ∧
    f7.source (.vcvttpd2dqEvex512 evexF7) = .ok (f7Elements ++ [none, none, none, none]) ∧
    (false = true ↔ f7.someInvalid f7Elements) ∧ (false = true ↔ f7.someInexact f7Elements) := by
  rw [← anyInvalid_iff, ← anyInexact_iff]; decide +kernel

/-- SaeCompletesUnmasked: F10. -/
theorem witness_SaeCompletesUnmasked :
    ({ launch with mxcsr := 0 } : State).evexEnabled (launch.impl.feat.avx512f || launch.impl.feat.avx10_1) = true ∧
    badEscapePrefix evexSae.pre = false ∧ evexSae.vvvv = 15 ∧ evexSae.vHigh = true ∧ evexSae.zeroing = false ∧
    evexSae.length ≤ 15 ∧ launch.impl.maxvl = .vl512 ∧ evexSae.src = .sae 2 := by decide +kernel

/-- OnlyInvalidAndPrecisionFlags: a completion with and without `{sae}`, and a SIMD fault. -/
theorem witness_OnlyInvalidAndPrecisionFlags :
    (∃ t, exec (.cvttpd2dq legReg) f4 = .next t) ∧ (∃ t, exec (.vcvttpd2dqEvex512 evexSae) f15 = .next t) ∧
    Instr.suppressed (.vcvttpd2dqEvex512 evexSae) = true ∧
    ∃ x t, exec (.cvttpd2dq { legReg with pre := [.lock, .opSize] }) f4 = .fault (.exception x t) :=
  ⟨exists_next (by decide +kernel), exists_next (by decide +kernel), by decide +kernel, exists_fault (by decide +kernel)⟩

/-- CompletionFrame: each form completes somewhere. -/
theorem witness_CompletionFrame :
    (∃ t, exec (.cvttpd2dq legReg) launch = .next t) ∧ (∃ t, exec (.vcvttpd2dqVex128 vexReg) launch = .next t) ∧
    (∃ t, exec (.vcvttpd2dqVex256 vexReg) launch = .next t) ∧ (∃ t, exec (.vcvttpd2dqEvex128 evexReg) launch = .next t) ∧
    (∃ t, exec (.vcvttpd2dqEvex256 evexReg) launch = .next t) ∧ ∃ t, exec (.vcvttpd2dqEvex512 evexReg) launch = .next t :=
  ⟨exists_next (by decide +kernel), exists_next (by decide +kernel), exists_next (by decide +kernel),
    exists_next (by decide +kernel), exists_next (by decide +kernel), exists_next (by decide +kernel)⟩

/-- NoStepWritesMemory and StepKeepsSystemState: a step that completes and one that ends in an exception. -/
theorem witness_stepAnswers :
    (∃ t, step (code launch [0x66, 0x0F, 0xE6, 0xCA]) = .next t) ∧ ∃ x t, step prefixesOnly = .fault (.exception x t) :=
  ⟨exists_next (by decide +kernel), exists_fault (by decide +kernel)⟩

/-- Real-address mode with CR4.OSFXSR set, IP at its last values. -/
def realEnd : State := { State.reset with cr4 := 0x200, rip := 0xFFFE }

/-- InstructionPointerAdvance: form 1 at the end of the instruction pointer's range in each mode. -/
theorem witness_InstructionPointerAdvance :
    (launch.mode = .long64 ∧ isNext (exec (.cvttpd2dq legReg) { launch with rip := 0xFFFFFFFFFFFFFFFE }) = true) ∧
    (launch32.mode = .prot32 ∧ isNext (exec (.cvttpd2dq legReg) { launch32 with rip := 0xFFFFFFFE }) = true) ∧
    (({ launch32 with cs := { launch32.cs with big := false } } : State).mode = .prot16 ∧
      isNext (exec (.cvttpd2dq legReg) { launch32 with cs := { launch32.cs with big := false }, rip := 0xFFFE }) = true) ∧
    (realEnd.mode = .real ∧ isNext (exec (.cvttpd2dq legReg) realEnd) = true) ∧
    (launchV86.mode = .v86 ∧ isNext (exec (.cvttpd2dq legReg) { launchV86 with rip := 0xFFFE }) = true) := by decide +kernel

/-- StepKeepsInvariant: a state that meets the invariant and steps. -/
theorem witness_StepKeepsInvariant :
    (code launch [0x66, 0x0F, 0xE6, 0xCA]).Inv ∧ ∃ t, step (code launch [0x66, 0x0F, 0xE6, 0xCA]) = .next t := by
  refine ⟨⟨by decide +kernel, by decide +kernel, fun n => ?_, fun h => ?_, by unfold State.mxcsrReservedZero; decide +kernel⟩,
    exists_next (by decide +kernel)⟩
  · have h0 : (code launch [0x66, 0x0F, 0xE6, 0xCA]).vreg n = 0 := by simp [code, launch, State.vreg, State.reset]
    rw [h0]; exact BitVec.zero_ushiftRight
  · simp [code, launch, State.reset, Config.Implementation.recommended] at h

/-- InitKeepsVectorState, last clause: the launch state meets the invariant (the state of the theorem above). -/
theorem witness_InitKeepsVectorState : (code launch [0x66, 0x0F, 0xE6, 0xCA]).Inv := witness_StepKeepsInvariant.1

/-- ResetStateRunsNoForm: each form of register operands. -/
theorem witness_ResetStateRunsNoForm :
    (Instr.cvttpd2dq legReg).length ≤ 15 ∧ (Instr.vcvttpd2dqVex256 vexReg).length ≤ 15 ∧
    (Instr.vcvttpd2dqEvex512 evexReg).length ≤ 15 := by decide +kernel

/-- A machine with AVX10.1 and 256-bit registers. -/
def narrow : State := { launch with impl := { launch.impl with maxvl := .vl256 } }

/-- FormsWiderThanMaxvlRefused: form 6 on 256-bit registers. -/
theorem witness_FormsWiderThanMaxvlRefused :
    (Instr.vcvttpd2dqEvex512 evexReg).length ≤ 15 ∧ narrow.undefinedFor (.vcvttpd2dqEvex512 evexReg) = false ∧
    narrow.cr0TS = false ∧ narrow.impl.maxvl.bits < Instr.vl (.vcvttpd2dqEvex512 evexReg) := by decide +kernel

end Sys2Proof.Tests
end

/-! PROOFS. The scope family (spec/00_scope.md): the elements a read operand has, and the machines whose `MAXVL` is below a form's `VL`. -/
namespace Sys2Proof.Machine

/-! ### Elements present exactly where the mask has them, said as one equation of lists -/

/-- The pattern of the present elements is the mask, said as one equation and said element by element. -/
theorem map_isSome_eq_iff {elems : List (Option Word64)} {mask : List Bool} :
    elems.map Option.isSome = mask ↔
      elems.length = mask.length ∧ ∀ j : Nat, (∃ x, elems[j]? = some (some x)) ↔ mask[j]? = some true := by
  constructor
  · rintro rfl
    simp [Option.isSome_iff_exists]
  · rintro ⟨hlen, hpresent⟩
    refine List.ext_getElem (by simpa using hlen) fun j hj hj' => ?_
    have hj₀ : j < elems.length := by simpa using hj
    have hpresent := hpresent j
    simp only [List.getElem?_eq_getElem hj₀, List.getElem?_eq_getElem hj', Option.some.injEq] at hpresent
    rw [List.getElem_map, Bool.eq_iff_iff, Option.isSome_iff_exists, hpresent]

theorem isSome_ite_some (b : Bool) (v : Word64) : (if b then some v else none).isSome = b := by cases b <;> rfl

theorem map_isSome_registerElements (v : VWord) (mask : List Bool) : (registerElements v mask).map Option.isSome = mask := by
  refine List.ext_getElem (by simp [registerElements]) fun j _ _ => ?_
  simp [registerElements, isSome_ite_some]

/-- One value, handed to every enabled element. -/
theorem map_isSome_broadcast (v : Word64) (mask : List Bool) :
    (mask.map fun e => if e then some v else none).map Option.isSome = mask := by
  simp [Function.comp_def, isSome_ite_some]

/-- With no element enabled, no element is present. -/
theorem map_isSome_none {mask : List Bool} (hoff : mask.any id = false) :
    (mask.map fun _ => (none : Option Word64)).map Option.isSome = mask := by
  have hfalse : ∀ e ∈ mask, e = false := by simpa using hoff
  simpa using (List.eq_replicate_of_mem hfalse).symm

/-! ### Each kind of operand, then the source of an instruction (rules R117, R150) -/

theorem map_isSome_vectorOperand {s : State} {pre : List LegacyPrefix} {len n : Nat} {aligned : Bool} {m : MemRef} {mask : List Bool}
    {elems : List (Option Word64)} (h : s.vectorOperand pre len n aligned m mask = .ok elems) : elems.map Option.isSome = mask := by
  simp only [State.vectorOperand] at h
  split_ifs at h with hon
  · exact map_isSome_eq_iff.2 (readElements_ok s mask _ elems h)
  · cases h; exact map_isSome_none (by simpa using hon)

theorem map_isSome_broadcastOperand {s : State} {pre : List LegacyPrefix} {len : Nat} {m : MemRef} {mask : List Bool}
    {elems : List (Option Word64)} (h : s.broadcastOperand pre len m mask = .ok elems) : elems.map Option.isSome = mask := by
  simp only [State.broadcastOperand] at h
  split_ifs at h with hon
  · obtain ⟨v, -, hv⟩ := Answer.bind_eq_ok h
    cases hv
  · obtain ⟨v, -, hv⟩ := Answer.bind_eq_ok h
    cases hv; exact map_isSome_broadcast v mask
  · cases h; exact map_isSome_none (by simpa using hon)

theorem map_isSome_rmElements {s : State} {pre : List LegacyPrefix} {len n : Nat} {aligned : Bool} {mask : List Bool} {src : RmSource}
    {elems : List (Option Word64)} (h : s.rmElements pre len n aligned mask src = .ok elems) : elems.map Option.isSome = mask := by
  cases src with
  | reg r => cases h; exact map_isSome_registerElements _ mask
  | mem m => exact map_isSome_vectorOperand h

theorem map_isSome_evexElements {s : State} {pre : List LegacyPrefix} {len n : Nat} {mask : List Bool} {src : EvexSource}
    {elems : List (Option Word64)} (h : s.evexElements pre len n mask src = .ok elems) : elems.map Option.isSome = mask := by
  cases src with
  | plain src => exact map_isSome_rmElements h
  | sae r => cases h; exact map_isSome_registerElements _ mask
  | broadcast m => exact map_isSome_broadcastOperand h

theorem map_isSome_source {s : State} {i : Instr} {elems : List (Option Word64)} (h : s.source i = .ok elems) :
    elems.map Option.isSome = s.enabledElements i := by
  cases i with
  | cvttpd2dq | vcvttpd2dqVex128 | vcvttpd2dqVex256 => exact map_isSome_rmElements h
  | vcvttpd2dqEvex128 | vcvttpd2dqEvex256 | vcvttpd2dqEvex512 => exact map_isSome_evexElements h

@[simp] theorem writemask_length (s : State) (aaa : BitVec 3) (kl : Nat) : (s.writemask aaa kl).length = kl := by
  simp [State.writemask]

/-- A form has `VL/64` elements (rule R9). -/
theorem enabledElements_length (s : State) (i : Instr) : (s.enabledElements i).length = Instr.vl i / 64 := by
  cases i <;> simp [State.enabledElements, Instr.vl]

/-- Settles O20: every kind of operand answers elements whose pattern is the mask, and the mask has `VL/64` entries. -/
theorem elementsFollowMask : Obligations.ElementsFollowMask := by
  intro i s elems h
  obtain ⟨hlen, hpresent⟩ := map_isSome_eq_iff.1 (map_isSome_source h)
  exact ⟨hlen.trans (enabledElements_length s i), hpresent⟩

/-! ### A form wider than `MAXVL` -/

/-- Past the length, `#UD` and `#NM` checks, a form wider than `MAXVL` is refused before its operand is read. -/
theorem execForm_tooWide {s : State} {len vl : Nat} {ud sae : Bool} {source : Answer (List (Option Word64))}
    {write : List (Option (BitVec 32)) → State → State} (hlen : len ≤ maxInstrLength) (hud : ud = false) (hts : s.cr0TS = false)
    (hvl : s.impl.maxvl.bits < vl) : execForm s len vl ud sae source write = .refused .vectorLengthAboveMaxvl := by
  simp [execForm, Nat.not_lt.2 hlen, hud, hts, hvl]

/-- Settles O60: every form runs through `execForm`, which refuses there. -/
theorem formsWiderThanMaxvlRefused : Obligations.FormsWiderThanMaxvlRefused := by
  intro i s hlen hud hts hvl
  obtain ⟨f, hexec⟩ := exec_eq_execForm i
  rw [hexec]
  exact execForm_tooWide hlen hud hts hvl

end Sys2Proof.Machine

/-! PROOFS. The state family (spec/10_state.md): what an execution and a step can leave, the fetch, segments and linear addresses, reset and INIT. -/
namespace Sys2Proof.Machine

/-! ### MXCSR after flags were set (rule R25) -/

/-- Every bit of MXCSR after flags were set: only bits 0 (IE) and 5 (PE) can have changed, and only upwards. -/
theorem orFlags_getLsbD (m : BitVec 32) (ie pe : Bool) (k : Nat) :
    (orFlags m ie pe).getLsbD k = (m.getLsbD k || (ie && decide (k = 0)) || (pe && decide (k = 5))) := by
  have h1 : (1#32).getLsbD k = decide (k = 0) := by simp [BitVec.getLsbD_one]
  have h32 : (32#32).getLsbD k = decide (k = 5) := by
    rw [show 32#32 = BitVec.twoPow 32 5 from rfl, BitVec.getLsbD_twoPow]
    simp [eq_comm]
  cases ie <;> cases pe <;> simp [orFlags, BitVec.getLsbD_or, h1, h32]

theorem orFlags_getLsbD_of_ne (m : BitVec 32) (ie pe : Bool) {k : Nat} (h0 : k ≠ 0) (h5 : k ≠ 5) :
    (orFlags m ie pe).getLsbD k = m.getLsbD k := by
  simp [orFlags_getLsbD, h0, h5]

@[simp] theorem setFlags_mxIE (s : State) (ie pe : Bool) : (s.setFlags ie pe).mxIE = (s.mxIE || ie) := by
  rw [State.mxIE, State.setFlags_mxcsr, orFlags_getLsbD]; simp [State.mxIE]

@[simp] theorem setFlags_mxPE (s : State) (ie pe : Bool) : (s.setFlags ie pe).mxPE = (s.mxPE || pe) := by
  rw [State.mxPE, State.setFlags_mxcsr, orFlags_getLsbD]; simp [State.mxPE]

/-! ### What an execution leaves: one equation for a completion, two cases for an exception -/

/-- The value that a form writes to its destination (rules R130, R140, R141, R150). -/
def Instr.destValue (i : Instr) (old : VWord) (rs : List (Option (BitVec 32))) : VWord :=
  match i with
  | .cvttpd2dq _ => destLegacy old rs
  | .vcvttpd2dqVex128 _ | .vcvttpd2dqVex256 _ => destVex rs
  | .vcvttpd2dqEvex128 o | .vcvttpd2dqEvex256 o | .vcvttpd2dqEvex512 o => destEvex old o.zeroing rs

/-- Every form is the shared order of checks, with its own destination value. -/
theorem exec_eq_destValue (i : Instr) (s : State) :
    exec i s = execForm s i.length (Instr.vl i) (s.undefinedFor i) (Instr.suppressed i) (s.source i)
      fun rs t => t.setVreg (Instr.destination i) (Instr.destValue i (t.vreg (Instr.destination i)) rs) := by
  cases i <;> rfl

/-- `INV` or `INX` of rule R117 is unmasked. -/
def State.someUnmasked (s : State) (elems : List (Option Word64)) : Bool :=
  s.unmasked (anyInvalid (s.convertAll elems)) (anyInexact (s.convertAll elems))

/-- The state with the flags that a completing execution sets: none with `{sae}` (rules R117, R118). -/
def State.flagged (s : State) (i : Instr) (elems : List (Option Word64)) : State :=
  if Instr.suppressed i then s else s.setFlags (anyInvalid (s.convertAll elems)) (anyInexact (s.convertAll elems))

/-- The state that a completing execution leaves. -/
def State.completed (s : State) (i : Instr) (elems : List (Option Word64)) : State :=
  ((s.flagged i elems).setVreg (Instr.destination i)
    (Instr.destValue i (s.vreg (Instr.destination i)) (s.results elems))).advance i.length

/-- An instruction completes exactly if nothing stops it before its operand is read, the operand can be read, and `{sae}` or the masks keep the
detected conditions from being raised. -/
theorem exec_next_iff {i : Instr} {s t : State} :
    exec i s = .next t ↔ s.ready i ∧ ∃ elems, s.source i = .ok elems ∧
      (Instr.suppressed i = true ∨ s.someUnmasked elems = false) ∧ t = s.completed i elems := by
  rw [exec_eq_destValue]
  constructor
  · intro h
    obtain ⟨hlen, hud, hts, hvl, elems, hsource, hretire⟩ := execForm_next h
    refine ⟨⟨hlen, hud, hts, hvl⟩, elems, hsource, ?_⟩
    unfold State.completed State.flagged State.someUnmasked
    cases hsae : Instr.suppressed i with
    | true =>
      rw [hsae, retire_sae] at hretire
      cases hretire; exact ⟨.inl rfl, rfl⟩
    | false =>
      rw [hsae] at hretire
      cases hun : s.unmasked (anyInvalid (s.convertAll elems)) (anyInexact (s.convertAll elems)) with
      | true => rw [retire_unmasked hun] at hretire; exact absurd hretire (takeException_ne_next _ _ _)
      | false => rw [retire_masked hun] at hretire; cases hretire; exact ⟨.inr rfl, rfl⟩
  · rintro ⟨⟨hlen, hud, hts, hvl⟩, elems, hsource, hmask, rfl⟩
    rw [hsource, execForm_ready hlen hud hts hvl]
    unfold State.completed State.flagged
    cases hsae : Instr.suppressed i with
    | true => rfl
    | false =>
      rw [retire_masked (hmask.resolve_left (by simp [hsae]))]; rfl

/-- Everything an execution can answer: an exception at its own state, a refusal, or its exception protocol. -/
theorem execForm_cases (s : State) (len vl : Nat) (ud sae : Bool) (source : Answer (List (Option Word64)))
    (write : List (Option (BitVec 32)) → State → State) :
    (∃ x, execForm s len vl ud sae source write = takeException x s) ∨
    (∃ r, execForm s len vl ud sae source write = .refused r) ∨
    ∃ elems, source = .ok elems ∧ execForm s len vl ud sae source write = retire len sae write elems s := by
  unfold execForm
  split_ifs
  · exact .inl ⟨_, rfl⟩
  · exact .inl ⟨_, rfl⟩
  · exact .inl ⟨_, rfl⟩
  · exact .inr (.inl ⟨_, rfl⟩)
  · cases source with
    | ok elems => exact .inr (.inr ⟨elems, rfl, rfl⟩)
    | raise x => exact .inl ⟨x, rfl⟩
    | refuse r => exact .inr (.inl ⟨r, rfl⟩)

/-- The report of an unmasked condition: `#XM` or `#UD`, at the state with the drawn flags. -/
theorem raiseSimd_eq_fault {s t : State} {inv inx : Bool} {x : Exception} (h : raiseSimd s inv inx = .fault (.exception x t)) :
    (x = .simdFloatingPoint ∨ x = .invalidOpcode) ∧ t = s.afterUnmasked inv inx := by
  unfold raiseSimd at h
  cases hos : s.cr4OSXMMEXCPT <;> rw [hos] at h <;> cases h <;> simp

/-- An execution that ends in an exception took it at its own state, or reported an unmasked condition without `{sae}`. -/
theorem exec_fault {i : Instr} {s t : State} {x : Exception} (h : exec i s = .fault (.exception x t)) :
    takeException x s = .fault (.exception x t) ∨
      (Instr.suppressed i = false ∧ (x = .simdFloatingPoint ∨ x = .invalidOpcode) ∧ ∃ inv inx, t = s.afterUnmasked inv inx) := by
  rw [exec_eq_destValue] at h
  rcases execForm_cases s i.length (Instr.vl i) (s.undefinedFor i) (Instr.suppressed i) (s.source i)
      (fun rs t => t.setVreg (Instr.destination i) (Instr.destValue i (t.vreg (Instr.destination i)) rs)) with
    ⟨y, e⟩ | ⟨r, e⟩ | ⟨elems, -, e⟩
  · rw [e] at h
    obtain ⟨rfl, -⟩ := takeException_eq_fault h
    exact .inl h
  · rw [e] at h; cases h
  · rw [e] at h
    rcases retire_cases i.length (Instr.suppressed i)
        (fun rs t => t.setVreg (Instr.destination i) (Instr.destValue i (t.vreg (Instr.destination i)) rs)) elems s with
      ⟨-, e'⟩ | ⟨-, e'⟩ | ⟨hsae, -, e'⟩
    · rw [e'] at h; cases h
    · rw [e'] at h; cases h
    · rw [e'] at h
      obtain ⟨hx, ht⟩ := raiseSimd_eq_fault h
      exact .inr ⟨hsae, hx, _, _, ht⟩

/-! ### What a completion leaves, field by field -/

theorem flagged_of_suppressed {i : Instr} (hsae : Instr.suppressed i = true) (s : State) (elems : List (Option Word64)) :
    s.flagged i elems = s := if_pos hsae

theorem flagged_of_not_suppressed {i : Instr} (hsae : Instr.suppressed i = false) (s : State) (elems : List (Option Word64)) :
    s.flagged i elems = s.setFlags (anyInvalid (s.convertAll elems)) (anyInexact (s.convertAll elems)) :=
  if_neg (by simp [hsae])

/-- Setting flags touches MXCSR alone. -/
theorem flagged_eq (s : State) (i : Instr) (elems : List (Option Word64)) :
    s.flagged i elems = { s with mxcsr := (s.flagged i elems).mxcsr } := by
  cases hsae : Instr.suppressed i with
  | true => rw [flagged_of_suppressed hsae]
  | false => rw [flagged_of_not_suppressed hsae]; rfl

@[simp] theorem completed_mxcsr (s : State) (i : Instr) (elems : List (Option Word64)) :
    (s.completed i elems).mxcsr = (s.flagged i elems).mxcsr := rfl

@[simp] theorem completed_mxIE (s : State) (i : Instr) (elems : List (Option Word64)) :
    (s.completed i elems).mxIE = (s.flagged i elems).mxIE := rfl

@[simp] theorem completed_mxPE (s : State) (i : Instr) (elems : List (Option Word64)) :
    (s.completed i elems).mxPE = (s.flagged i elems).mxPE := rfl

theorem flagged_getLsbD_of_ne (s : State) (i : Instr) (elems : List (Option Word64)) {k : Nat} (h0 : k ≠ 0) (h5 : k ≠ 5) :
    (s.flagged i elems).mxcsr.getLsbD k = s.mxcsr.getLsbD k := by
  cases hsae : Instr.suppressed i with
  | true => rw [flagged_of_suppressed hsae]
  | false => rw [flagged_of_not_suppressed hsae]; exact orFlags_getLsbD_of_ne _ _ _ h0 h5

/-- A completion writes the vector file, MXCSR and RIP. -/
theorem completed_eq (s : State) (i : Instr) (elems : List (Option Word64)) :
    s.completed i elems =
      { s with zmm := (s.completed i elems).zmm, mxcsr := (s.completed i elems).mxcsr, rip := (s.advance i.length).rip } := by
  unfold State.completed
  rw [flagged_eq]
  rfl

@[simp] theorem completed_vreg_destination (s : State) (i : Instr) (elems : List (Option Word64)) :
    (s.completed i elems).vreg (Instr.destination i) = Instr.destValue i (s.vreg (Instr.destination i)) (s.results elems) := by
  simp [State.completed]

theorem completed_vreg_of_ne (s : State) {i : Instr} (elems : List (Option Word64)) {n : BitVec 5} (hn : n ≠ Instr.destination i) :
    (s.completed i elems).vreg n = s.vreg n := by
  rw [State.completed, State.advance_vreg, State.vreg_setVreg_ne _ hn, flagged_eq]
  rfl

/-- Settles O18: an exception is taken at the state before, or reports an unmasked condition, which touches MXCSR and the count of draws alone. -/
theorem faultsArePrecise : Obligations.FaultsArePrecise := by
  intro i s t x h
  rcases exec_fault h with htake | ⟨-, hx, inv, inx, rfl⟩
  · rcases takeException_eq_fault htake with ⟨-, ⟨code, a, rfl, rfl⟩ | ⟨-, rfl⟩⟩
    · exact ⟨rfl, .inl ⟨code, rfl⟩, fun hne => absurd rfl hne⟩
    · exact ⟨rfl, .inr rfl, fun hne => absurd rfl hne⟩
  · exact ⟨rfl, .inr rfl, fun _ => hx⟩

/-- Settles O51: a completion writes the destination, MXCSR and RIP, and of MXCSR the bits IE and PE. -/
theorem completionFrame : Obligations.CompletionFrame := by
  intro i s t h
  obtain ⟨-, elems, -, -, rfl⟩ := exec_next_iff.1 h
  have hframe := completed_eq s i elems
  refine ⟨?_, fun n hn => completed_vreg_of_ne s elems hn, fun k h0 h5 => flagged_getLsbD_of_ne s i elems h0 h5, fun a => ?_⟩
  · rw [hframe]
  · rw [hframe]

/-- Settles O50: a completion ORs IE and PE of the enabled elements, a report of an unmasked condition ORs the drawn flags. -/
theorem onlyInvalidAndPrecisionFlags : Obligations.OnlyInvalidAndPrecisionFlags := by
  intro i s t
  refine ⟨fun h => ?_, fun x h => ?_⟩
  · obtain ⟨-, elems, hsource, -, rfl⟩ := exec_next_iff.1 h
    refine ⟨fun hsae => ?_, fun hsae => ⟨elems, hsource, fun k h0 h5 => flagged_getLsbD_of_ne s i elems h0 h5, ?_, ?_⟩⟩
    · rw [completed_mxcsr, flagged_of_suppressed hsae]
    · rw [completed_mxIE, flagged_of_not_suppressed hsae, setFlags_mxIE, Bool.or_eq_true, anyInvalid_iff]
    · rw [completed_mxPE, flagged_of_not_suppressed hsae, setFlags_mxPE, Bool.or_eq_true, anyInexact_iff]
  · rcases exec_fault h with htake | ⟨hsae, -, inv, inx, rfl⟩
    · rw [takeException_state htake]
      exact ⟨fun _ _ _ => rfl, id, id, fun _ => rfl⟩
    · refine ⟨fun k h0 h5 => orFlags_getLsbD_of_ne _ _ _ h0 h5, fun hie => ?_, fun hpe => ?_, fun hs => by simp [hsae] at hs⟩
      · exact (setFlags_mxIE s _ _).trans (by rw [hie, Bool.true_or])
      · exact (setFlags_mxPE s _ _).trans (by rw [hpe, Bool.true_or])

/-! ### RIP (rule R28) -/

theorem advance_rip_long64 {s : State} (hmode : s.mode = .long64) (len : Nat) :
    (s.advance len).rip = s.rip + BitVec.ofNat 64 len := by
  simp [State.advance, hmode]

theorem advance_rip_prot32 {s : State} (hmode : s.mode = .prot32) (len : Nat) :
    (s.advance len).rip = ((s.rip + BitVec.ofNat 64 len).setWidth 32).setWidth 64 := by
  simp [State.advance, hmode]

theorem advance_rip_narrow {s : State} (hmode : s.mode = .prot16 ∨ s.mode = .real ∨ s.mode = .v86) (len : Nat) :
    (s.advance len).rip = ((s.rip + BitVec.ofNat 64 len).setWidth 16).setWidth 64 := by
  rcases hmode with hmode | hmode | hmode <;> simp [State.advance, hmode]

/-- A sum cut to 32 or 16 bits is the sum modulo that power. -/
theorem toNat_cut_add (v : Word64) (len w : Nat) (hw : w ≤ 64) :
    (((v + BitVec.ofNat 64 len).setWidth w).setWidth 64).toNat = (v.toNat + len) % 2 ^ w := by
  have hlt : (v.toNat + len) % 2 ^ w < 2 ^ 64 :=
    (Nat.mod_lt _ (Nat.two_pow_pos w)).trans_le (Nat.pow_le_pow_right (by decide) hw)
  rw [BitVec.toNat_setWidth, BitVec.toNat_setWidth, BitVec.toNat_add, BitVec.toNat_ofNat, Nat.add_mod_mod,
    Nat.mod_mod_of_dvd _ (Nat.pow_dvd_pow 2 hw), Nat.mod_eq_of_lt hlt]

/-- Settles O53: the completed state's RIP is that of `State.advance`, read in each mode. -/
theorem instructionPointerAdvance : Obligations.InstructionPointerAdvance := by
  intro i s t h
  obtain ⟨-, elems, -, -, rfl⟩ := exec_next_iff.1 h
  have hrip : (s.completed i elems).rip = (s.advance i.length).rip := by rw [completed_eq]
  rw [hrip]
  refine ⟨fun hmode => ?_, fun hmode => ?_, fun hmode => ?_⟩
  · rw [advance_rip_long64 hmode, BitVec.toNat_add, BitVec.toNat_ofNat, Nat.add_mod_mod]
  · rw [advance_rip_prot32 hmode, toNat_cut_add _ _ _ (by decide)]
  · rw [advance_rip_narrow hmode, toNat_cut_add _ _ _ (by decide)]

/-! ### What a step leaves -/

/-- The state that a step leaves: a completed instruction's, or the state before with drawn flags or with CR2 written. -/
theorem step_leaves {s t : State} (h : step s = .next t ∨ ∃ x, step s = .fault (.exception x t)) :
    (∃ i rest elems, decode s.decodeEnv (fetch s).1 = .instr i rest ∧ s.ready i ∧ s.source i = .ok elems ∧ t = s.completed i elems) ∨
    (∃ inv inx, t = s.afterUnmasked inv inx) ∨ t = { s with cr2 := t.cr2 } := by
  rcases step_cases s with ⟨i, rest, hdecode, hstep⟩ | ⟨y, hstep⟩ | ⟨r, hstep⟩
  · rw [hstep] at h
    rcases h with h | ⟨x, h⟩
    · obtain ⟨hready, elems, hsource, -, ht⟩ := exec_next_iff.1 h
      exact .inl ⟨i, rest, elems, hdecode, hready, hsource, ht⟩
    · rcases exec_fault h with htake | ⟨-, -, hdraw⟩
      · exact .inr (.inr (takeException_state htake))
      · exact .inr (.inl hdraw)
  · rw [hstep] at h
    rcases h with h | ⟨x, h⟩
    · exact absurd h (takeException_ne_next _ _ _)
    · exact .inr (.inr (takeException_state h))
  · rw [hstep] at h; simp at h

/-- A step writes the vector file, MXCSR, RIP, CR2 and the count of draws at most. -/
theorem step_frame {s t : State} (h : step s = .next t ∨ ∃ x, step s = .fault (.exception x t)) :
    ∃ zmm mxcsr rip cr2 draws, t = { s with zmm, mxcsr, rip, cr2, draws } := by
  rcases step_leaves h with ⟨i, -, elems, -, -, -, rfl⟩ | ⟨inv, inx, rfl⟩ | ht
  · exact ⟨_, _, _, _, _, completed_eq s i elems⟩
  · exact ⟨_, _, _, _, _, rfl⟩
  · exact ⟨_, _, _, _, _, ht⟩

/-- Settles O54: none of these fields is among those that a step writes. -/
theorem stepKeepsSystemState : Obligations.StepKeepsSystemState := by
  intro s t h
  obtain ⟨zmm, mxcsr, rip, cr2, draws, rfl⟩ := step_frame h
  exact ⟨rfl, rfl, rfl, rfl, rfl, rfl, rfl, rfl, rfl, rfl, rfl, rfl, fun r => by cases r <;> rfl⟩

/-! ### The invariant (rules R20, R21, R24, R32) -/

/-- No machine has vector registers narrower than 128 bits. -/
theorem maxvl_bits_ge (v : Config.MaxVl) : 128 ≤ v.bits := by cases v <;> decide

/-- Results that fit below bit `n`, over an old value that does, give a destination that does. -/
theorem destValue_shift (i : Instr) {old : VWord} {rs : List (Option (BitVec 32))} {n : Nat} (h128 : 128 ≤ n) (hrs : 32 * rs.length ≤ n)
    (hold : old >>> n = 0) : Instr.destValue i old rs >>> n = 0 := by
  cases i with
  | cvttpd2dq =>
    have hpack : packDwords (rs.map fun r => r.getD 0) >>> n = 0 := packDwords_shift _ (by simpa using hrs)
    have hkept : ((old >>> 128) <<< 128) >>> n = old >>> n := by
      apply BitVec.eq_of_getLsbD_eq
      intro k _
      by_cases hk : n + k < 512
      · simp [hk, show ¬ n + k < 128 by omega, show 128 + (n + k - 128) = n + k by omega]
      · simp [hk, BitVec.getLsbD_of_ge old (n + k) (by omega)]
    rw [Instr.destValue, destLegacy, BitVec.ushiftRight_or_distrib, hpack, hkept, hold, BitVec.or_self]
  | vcvttpd2dqVex128 | vcvttpd2dqVex256 => exact destVex_shift rs hrs
  | vcvttpd2dqEvex128 | vcvttpd2dqEvex256 | vcvttpd2dqEvex512 => exact destEvex_shift _ _ rs hrs

theorem results_length (s : State) (elems : List (Option Word64)) : (s.results elems).length = elems.length := by
  simp [State.results, State.convertAll]

/-- Half of `VL` bits of results fit where `VL` does. -/
theorem completed_vectorsFit {s : State} {i : Instr} {elems : List (Option Word64)} (hready : s.ready i) (hsource : s.source i = .ok elems)
    (hfit : s.vectorsFit) : (s.completed i elems).vectorsFit := by
  obtain ⟨-, -, -, hvl⟩ := hready
  have himpl : (s.completed i elems).impl = s.impl := by rw [completed_eq]
  intro n
  rw [himpl]
  by_cases hn : n = Instr.destination i
  · subst hn
    rw [completed_vreg_destination]
    refine destValue_shift i (maxvl_bits_ge _) ?_ (hfit _)
    have hlen := (elementsFollowMask i s elems hsource).1
    rw [results_length, hlen]
    omega
  · rw [completed_vreg_of_ne s elems hn]; exact hfit n

/-- Forms 1 to 3 name registers 0 to 15 only: bit 4 of a register number is an EVEX bit (rules R74, R81, R86). -/
def Instr.destinationNameable : Instr → Prop
  | .cvttpd2dq o => o.dst.toNat < 16
  | .vcvttpd2dqVex128 o | .vcvttpd2dqVex256 o => o.dst.toNat < 16
  | .vcvttpd2dqEvex128 _ | .vcvttpd2dqEvex256 _ | .vcvttpd2dqEvex512 _ => True

/-- The same of what the decoder answers. -/
def DecodesNameable : Decoded → Prop
  | .instr i _ => Instr.destinationNameable i
  | .undefinedOpcode | .refused _ | .truncated => True

theorem regNumber_false_lt (mid : Bool) (low : BitVec 3) : (regNumber false mid low).toNat < 16 := by
  revert mid low; decide

theorem decodeLegacy_nameable (env : DecodeEnv) (pre : List LegacyPrefix) (bs : List Byte) :
    DecodesNameable (decodeLegacy env pre bs) := by
  unfold decodeLegacy
  split
  · trivial
  · dsimp only
    split_ifs
    · trivial
    · split
      · trivial
      · exact regNumber_false_lt _ _

theorem decodeVex_nameable (env : DecodeEnv) (pre : List LegacyPrefix) (threeByte r x b : Bool) (last : Byte) (bs : List Byte) :
    DecodesNameable (decodeVex env pre threeByte r x b last bs) := by
  unfold decodeVex
  split
  · trivial
  · split_ifs <;> trivial
  · split
    · trivial
    · split
      · trivial
      · dsimp only
        split <;> exact regNumber_false_lt _ _

theorem decodeVex2_nameable (env : DecodeEnv) (pre : List LegacyPrefix) (bs : List Byte) : DecodesNameable (decodeVex2 env pre bs) := by
  unfold decodeVex2
  split
  · trivial
  · split_ifs
    · trivial
    · exact decodeVex_nameable ..

theorem decodeVex3_nameable (env : DecodeEnv) (pre : List LegacyPrefix) (bs : List Byte) : DecodesNameable (decodeVex3 env pre bs) := by
  unfold decodeVex3
  split
  · trivial
  · split_ifs <;> trivial
  · split_ifs
    · trivial
    · trivial
    · exact decodeVex_nameable ..

theorem evexByLength_nameable (ll : BitVec 2) (o : EvexOps) (rest : List Byte) : DecodesNameable (evexByLength ll o rest) := by
  unfold evexByLength
  split_ifs <;> trivial

theorem decodeEvexBody_nameable (env : DecodeEnv) (pre : List LegacyPrefix) (p0 p1 p2 modrm : Byte) (bs : List Byte) :
    DecodesNameable (decodeEvexBody env pre p0 p1 p2 modrm bs) := by
  unfold decodeEvexBody
  dsimp only
  split
  · split
    · split <;> trivial
    · exact evexByLength_nameable ..
  · split
    · trivial
    · exact evexByLength_nameable ..

theorem decodeEvex_nameable (env : DecodeEnv) (pre : List LegacyPrefix) (bs : List Byte) : DecodesNameable (decodeEvex env pre bs) := by
  unfold decodeEvex
  split
  · split_ifs
    · trivial
    · trivial
    · trivial
    · trivial
    · trivial
    · exact decodeEvexBody_nameable ..
  · split_ifs <;> trivial
  · trivial

/-- The decoder gives forms 1 to 3 no destination past register 15. -/
theorem decode_nameable (env : DecodeEnv) (bs : List Byte) : DecodesNameable (decode env bs) := by
  unfold decode decodeAfterPrefixes
  split
  · trivial
  · split_ifs
    · exact decodeVex2_nameable ..
    · exact decodeVex3_nameable ..
    · exact decodeEvex_nameable ..
    · split
      · trivial
      · split_ifs
        · exact decodeLegacy_nameable ..
        · trivial
    · trivial

theorem evexUd_feature {s : State} {feat : Bool} {o : EvexOps} (h : s.evexUd feat o = false) : feat = true := by
  simp only [State.evexUd, Bool.or_eq_false_iff, Bool.not_eq_false'] at h
  tauto

/-- Without AVX512F and AVX10.1 every form that is not `#UD` has its destination among registers 0 to 15 (rules R21, R174). -/
theorem destination_lt_of_defined {s : State} {i : Instr} (hname : Instr.destinationNameable i) (hdef : s.undefinedFor i = false)
    (hfeat : (s.impl.feat.avx512f || s.impl.feat.avx10_1) = false) : (Instr.destination i).toNat < 16 := by
  obtain ⟨hf, h10⟩ := Bool.or_eq_false_iff.1 hfeat
  cases i with
  | cvttpd2dq | vcvttpd2dqVex128 | vcvttpd2dqVex256 => exact hname
  | vcvttpd2dqEvex128 o | vcvttpd2dqEvex256 o =>
    have hvl : evexFeatVl s.impl.feat = true := evexUd_feature hdef
    simp [evexFeatVl, hf, h10] at hvl
  | vcvttpd2dqEvex512 o =>
    have h512 : evexFeat512 s.impl.feat = true := evexUd_feature hdef
    simp [evexFeat512, hf, h10] at h512

theorem completed_highVectorsZero {s : State} {i : Instr} (elems : List (Option Word64)) (hready : s.ready i)
    (hname : Instr.destinationNameable i) (hzero : s.highVectorsZero) : (s.completed i elems).highVectorsZero := by
  obtain ⟨-, hdef, -, -⟩ := hready
  have himpl : (s.completed i elems).impl = s.impl := by rw [completed_eq]
  intro hfeat n hn
  rw [himpl] at hfeat
  have hdst := destination_lt_of_defined hname hdef hfeat
  rw [completed_vreg_of_ne s elems (fun e => by subst e; omega)]
  exact hzero hfeat n hn

/-- MXCSR's reserved bits are not among those that are written. -/
theorem mxcsrReservedZero_of_bits {s t : State} (hbits : ∀ k, k ≠ 0 → k ≠ 5 → t.mxcsr.getLsbD k = s.mxcsr.getLsbD k)
    (h : s.mxcsrReservedZero) : t.mxcsrReservedZero := by
  refine Eq.trans (BitVec.eq_of_getLsbD_eq fun k hk => ?_) h
  simp only [BitVec.getLsbD_extractLsb', hbits (16 + k) (by omega) (by omega)]

theorem completed_inv {s : State} {i : Instr} {elems : List (Option Word64)} (hinv : s.Inv) (hready : s.ready i)
    (hname : Instr.destinationNameable i) (hsource : s.source i = .ok elems) : (s.completed i elems).Inv where
  mem := by rw [completed_eq]; exact hinv.mem
  pages := by rw [completed_eq]; exact hinv.pages
  vectors := completed_vectorsFit hready hsource hinv.vectors
  highVectors := completed_highVectorsZero elems hready hname hinv.highVectors
  mxcsr := mxcsrReservedZero_of_bits (fun _ h0 h5 => flagged_getLsbD_of_ne s i elems h0 h5) hinv.mxcsr

theorem afterUnmasked_inv {s : State} (inv inx : Bool) (hinv : s.Inv) : (s.afterUnmasked inv inx).Inv where
  mem := hinv.mem
  pages := hinv.pages
  vectors := hinv.vectors
  highVectors := hinv.highVectors
  mxcsr := mxcsrReservedZero_of_bits (s := s) (fun _ h0 h5 => orFlags_getLsbD_of_ne _ _ _ h0 h5) hinv.mxcsr

theorem withCr2_inv {s : State} (a : Word64) (hinv : s.Inv) : ({ s with cr2 := a } : State).Inv where
  mem := hinv.mem
  pages := hinv.pages
  vectors := hinv.vectors
  highVectors := hinv.highVectors
  mxcsr := hinv.mxcsr

/-- Settles O55: each of the states that a step can leave meets the invariant. -/
theorem stepKeepsInvariant : Obligations.StepKeepsInvariant := by
  intro s t hinv h
  rcases step_leaves h with ⟨i, rest, elems, hdecode, hready, hsource, rfl⟩ | ⟨inv, inx, rfl⟩ | ht
  · have hname := decode_nameable s.decodeEnv (fetch s).1
    rw [hdecode] at hname
    exact completed_inv hinv hready hname hsource
  · exact afterUnmasked_inv inv inx hinv
  · rw [ht]; exact withCr2_inv t.cr2 hinv

/-! ### What of MXCSR an execution reads (rules R24, R115, R119) -/

theorem ready_withMxcsr {s : State} {i : Instr} (m : BitVec 32) (h : s.ready i) : ({ s with mxcsr := m } : State).ready i := by
  obtain ⟨hlen, hdef, hts, hvl⟩ := h
  exact ⟨hlen, by cases i <;> exact hdef, hts, hvl⟩

/-- Of MXCSR the conversion reads `DAZ` only. -/
theorem convert_withMxcsr {s : State} {m : BitVec 32} (hdaz : m.getLsbD 6 = s.mxcsr.getLsbD 6) :
    State.convert { s with mxcsr := m } = s.convert := by
  funext b
  exact congrArg (fun daz => cvtTrunc s.impl.dazApplies daz b) hdaz

theorem convertAll_withMxcsr {s : State} {m : BitVec 32} (hdaz : m.getLsbD 6 = s.mxcsr.getLsbD 6) (elems : List (Option Word64)) :
    State.convertAll { s with mxcsr := m } elems = s.convertAll elems := by
  rw [State.convertAll, convert_withMxcsr hdaz, State.convertAll]

theorem someUnmasked_withMxcsr {s : State} {m : BitVec 32} (hdaz : m.getLsbD 6 = s.mxcsr.getLsbD 6)
    (him : m.getLsbD 7 = s.mxcsr.getLsbD 7) (hpm : m.getLsbD 12 = s.mxcsr.getLsbD 12) (elems : List (Option Word64)) :
    State.someUnmasked { s with mxcsr := m } elems = s.someUnmasked elems := by
  have hIM : State.mxIM { s with mxcsr := m } = s.mxIM := him
  have hPM : State.mxPM { s with mxcsr := m } = s.mxPM := hpm
  simp only [State.someUnmasked, State.unmasked, convertAll_withMxcsr hdaz, hIM, hPM]

/-- The same completed state, but for MXCSR itself. -/
theorem completed_withMxcsr {s : State} {m : BitVec 32} (hdaz : m.getLsbD 6 = s.mxcsr.getLsbD 6) (i : Instr)
    (elems : List (Option Word64)) :
    State.completed { s with mxcsr := m } i elems =
      { s.completed i elems with mxcsr := (State.completed { s with mxcsr := m } i elems).mxcsr } := by
  have hresults : State.results { s with mxcsr := m } elems = s.results elems := by
    rw [State.results, convertAll_withMxcsr hdaz, State.results]
  unfold State.completed
  rw [hresults, flagged_eq s, flagged_eq { s with mxcsr := m }]
  rfl

/-- Settles O42: what the completion needs and what it writes depend on DAZ, IM and PM only. -/
theorem onlyDazAndMasksMatter : Obligations.OnlyDazAndMasksMatter := by
  intro i s t m hdaz him hpm h
  obtain ⟨hready, elems, hsource, hmask, rfl⟩ := exec_next_iff.1 h
  refine ⟨State.completed { s with mxcsr := m } i elems, exec_next_iff.2 ⟨ready_withMxcsr m hready, elems, ?_, ?_, rfl⟩,
    completed_withMxcsr hdaz i elems, fun k h0 h5 => flagged_getLsbD_of_ne _ i elems h0 h5⟩
  · rw [source_withMxcsr, hsource]
  · rw [someUnmasked_withMxcsr hdaz him hpm]; exact hmask

/-! ### The fetch (rules R28, R62, R176, R202) -/

/-- Bytes that can be fetched, then one that raises: so many bytes are fetched, and past them lies that exception. -/
theorem fetchFrom_raise {s : State} {x : Exception} (k : Nat) : ∀ i n, k < n → (∀ j < k, ∃ b, fetchByte s (i + j) = .ok b) →
    fetchByte s (i + k) = .raise x → (fetchFrom s i n).1.length = k ∧ (fetchFrom s i n).2 = takeException x s := by
  induction k with
  | zero =>
    intro i n hn _ hraise
    obtain ⟨n, rfl⟩ := Nat.exists_eq_succ_of_ne_zero hn.ne'
    rw [Nat.add_zero] at hraise
    simp [fetchFrom, hraise]
  | succ k ih =>
    intro i n hn hok hraise
    obtain ⟨n, rfl⟩ := Nat.exists_eq_succ_of_ne_zero (Nat.ne_zero_of_lt hn)
    obtain ⟨b, hb⟩ := hok 0 (Nat.succ_pos k)
    have hrest := ih (i + 1) n (by omega) (fun j hj => by rw [Nat.add_right_comm]; exact hok (j + 1) (by omega))
      (by rw [Nat.add_right_comm]; exact hraise)
    rw [Nat.add_zero] at hb
    simp [fetchFrom, hb, hrest]

/-- Settles O11: the fetch stops at the byte that raises, and an instruction that goes on takes what lies past it. -/
theorem fetchFaultIsReported : Obligations.FetchFaultIsReported := by
  intro s k x hk hok hraise
  obtain ⟨hlen, hpast⟩ := fetchFrom_raise k 0 maxInstrLength hk (by simpa using hok) (by simpa using hraise)
  refine ⟨hlen, fun htrunc => ?_⟩
  rw [step, htrunc]
  exact hpast

theorem linearAdd_ofNat_add (s : State) (v : Word64) (a b : Nat) :
    linearAdd s (v + BitVec.ofNat 64 a) b = linearAdd s v (a + b) := by
  simp only [linearAdd, BitVec.add_assoc, BitVec.ofNat_add]

/-- The state with the instruction pointer put elsewhere, as `State.codeAt` does. -/
def State.atRip (s : State) (p : Word64) : State := { s with rip := p }

@[simp] theorem atRip_mode (s : State) (p : Word64) : (s.atRip p).mode = s.mode := rfl

@[simp] theorem atRip_rip (s : State) (p : Word64) : (s.atRip p).rip = p := rfl

theorem fetchAddress_atRip (s : State) (p : Word64) (i : Nat) :
    (s.atRip p).fetchAddress i = linearAdd s (s.segBase .cs + BitVec.ofNat 64 (s.atRip p).ipOffset) i := rfl

/-- Outside 64-bit mode the fetch checks the limit of CS. -/
theorem fetchOk_atRip_of_ne_long64 {s : State} (hmode : s.mode ≠ .long64) (p : Word64) (i : Nat) :
    (s.atRip p).fetchOk i = decide ((s.atRip p).ipOffset + i ≤ s.cs.limit.toNat) := by
  unfold State.fetchOk
  split
  · contradiction
  · rfl

theorem fetchOk_atRip_of_long64 {s : State} (hmode : s.mode = .long64) (p : Word64) (i : Nat) :
    (s.atRip p).fetchOk i = canonical s ((s.atRip p).fetchAddress i) := by
  rw [State.fetchOk, atRip_mode, hmode]
  rfl

theorem fetchOk_of_fetchByte {s : State} {i : Nat} {b : Byte} (h : fetchByte s i = .ok b) : s.fetchOk i = true := by
  by_contra hno
  simp [fetchByte, hno] at h

/-- Two instruction pointers whose bytes `i` and `j` have one address, and outside 64-bit mode one offset, fetch the same byte there. -/
theorem fetchByte_atRip_congr {s : State} {p q : Word64} {i j : Nat}
    (haddr : (s.atRip p).fetchAddress i = (s.atRip q).fetchAddress j)
    (hoff : s.mode ≠ .long64 → (s.atRip p).ipOffset + i = (s.atRip q).ipOffset + j) :
    fetchByte (s.atRip p) i = fetchByte (s.atRip q) j := by
  have hok : (s.atRip p).fetchOk i = (s.atRip q).fetchOk j := by
    by_cases hmode : s.mode = .long64
    · rw [fetchOk_atRip_of_long64 hmode, fetchOk_atRip_of_long64 hmode, haddr]
    · rw [fetchOk_atRip_of_ne_long64 hmode, fetchOk_atRip_of_ne_long64 hmode, hoff hmode]
  rw [fetchByte, fetchByte, hok, haddr]
  rfl

/-- In 64-bit mode the instruction pointer is the offset itself. -/
theorem ofNat_ipOffset_atRip_of_long64 {s : State} (hmode : s.mode = .long64) (p : Word64) :
    BitVec.ofNat 64 (s.atRip p).ipOffset = p := by
  simp [State.ipOffset, hmode]

theorem ipOffset_atRip_of_prot32 {s : State} (hmode : s.mode = .prot32) (p : Word64) :
    (s.atRip p).ipOffset = p.toNat % 2 ^ 32 := by
  simp [State.ipOffset, hmode]

theorem ipOffset_atRip_of_narrow {s : State} (h64 : s.mode ≠ .long64) (h32 : s.mode ≠ .prot32) (p : Word64) :
    (s.atRip p).ipOffset = p.toNat % 2 ^ 16 := by
  unfold State.ipOffset
  split
  · contradiction
  · contradiction
  all_goals rfl

/-- Outside 64-bit mode the offset does not wrap: in 32-bit code it stays within the limit of CS, in 16-bit code below `2^16`. -/
theorem ipOffset_atRip_add {s : State} {base : Word64} {k : Nat} (hmode : s.mode ≠ .long64)
    (hroom : s.mode = .prot32 ∨ base.toNat + k < 2 ^ 16) (hlimit : (s.atRip base).ipOffset + k ≤ s.cs.limit.toNat) :
    (s.atRip (base + BitVec.ofNat 64 k)).ipOffset = (s.atRip base).ipOffset + k := by
  have hlt : s.cs.limit.toNat < 2 ^ 32 := s.cs.limit.isLt
  have hsum : (base + BitVec.ofNat 64 k).toNat = (base.toNat + k) % 2 ^ 64 := by
    rw [BitVec.toNat_add, BitVec.toNat_ofNat, Nat.add_mod_mod]
  by_cases h32 : s.mode = .prot32
  · rw [ipOffset_atRip_of_prot32 h32] at hlimit
    rw [ipOffset_atRip_of_prot32 h32, ipOffset_atRip_of_prot32 h32, hsum]
    omega
  · have hlow := hroom.resolve_left h32
    rw [ipOffset_atRip_of_narrow hmode h32, ipOffset_atRip_of_narrow hmode h32, hsum]
    omega

/-- Byte `j` with the instruction pointer `k` further on is byte `k + j`. -/
theorem fetchByte_atRip_add {s : State} {base : Word64} {k j : Nat} {b : Byte}
    (hroom : s.mode = .long64 ∨ s.mode = .prot32 ∨ base.toNat + k < 2 ^ 16) (h : fetchByte (s.atRip base) (k + j) = .ok b) :
    fetchByte (s.atRip (base + BitVec.ofNat 64 k)) j = .ok b := by
  have hmoved (off : Word64) :
      linearAdd s (s.segBase .cs + (off + BitVec.ofNat 64 k)) j = linearAdd s (s.segBase .cs + off) (k + j) := by
    rw [← BitVec.add_assoc, linearAdd_ofNat_add]
  rw [← h]
  by_cases hmode : s.mode = .long64
  · refine fetchByte_atRip_congr ?_ (absurd hmode)
    rw [fetchAddress_atRip, fetchAddress_atRip, ofNat_ipOffset_atRip_of_long64 hmode, ofNat_ipOffset_atRip_of_long64 hmode, hmoved]
  · have hok := fetchOk_of_fetchByte h
    rw [fetchOk_atRip_of_ne_long64 hmode, decide_eq_true_eq] at hok
    have hoff := ipOffset_atRip_add hmode (hroom.resolve_left hmode) (le_trans (by omega) hok)
    refine fetchByte_atRip_congr ?_ fun _ => by rw [hoff, Nat.add_assoc]
    rw [fetchAddress_atRip, fetchAddress_atRip, hoff, BitVec.ofNat_add, hmoved]

theorem codeAt_drop {s : State} {base : Word64} {bytes : List Byte} (hcode : s.codeAt base bytes)
    (hroom : s.mode = .long64 ∨ s.mode = .prot32 ∨ base.toNat + bytes.length ≤ 2 ^ 16) (k : Nat) :
    s.codeAt (base + BitVec.ofNat 64 k) (bytes.drop k) := by
  intro j hj
  rw [List.length_drop] at hj
  rw [List.getElem_drop]
  exact fetchByte_atRip_add (hroom.imp_right (Or.imp_right fun h => by omega)) (hcode (k + j) (by omega))

/-- No fetch reads what a step writes but RIP. -/
theorem codeAt_step {s t : State} {base : Word64} {bytes : List Byte} (hcode : s.codeAt base bytes)
    (h : step s = .next t ∨ ∃ x, step s = .fault (.exception x t)) : t.codeAt base bytes := by
  obtain ⟨zmm, mxcsr, rip, cr2, draws, rfl⟩ := step_frame h
  exact hcode

theorem fetch_take_of_codeAt {s : State} {bytes : List Byte} (hcode : s.codeAt s.rip bytes) :
    (fetch s).1.take bytes.length = bytes.take 15 :=
  fetchFrom_take s bytes 0 maxInstrLength fun j hj => by rw [Nat.zero_add]; exact hcode j hj

/-- Settles O9: `CodeAt` speaks of the fetch byte by byte, every step keeps what the fetch reads, and the offset does not wrap. -/
theorem codeAtIsFetched : Obligations.CodeAtIsFetched := by
  intro s base bytes hcode
  refine ⟨fun hrip => ?_, fun t => codeAt_step hcode, codeAt_drop hcode⟩
  subst hrip
  exact fetch_take_of_codeAt hcode

/-- Settles O8: `step` runs what the decoder answers. -/
theorem stepRunsDecodedInstruction : Obligations.StepRunsDecodedInstruction := by
  intro s i rest hdecode _
  rw [step, hdecode]
  rfl

/-! ### Writemask, linear addresses and segments (rules R23, R29, R54, R72) -/

/-- Settles O21: the writemask is a map over the element numbers. -/
theorem writemaskBits : Obligations.WritemaskBits := by
  intro s aaa kl j hj
  refine ⟨?_, writemask_length s aaa kl⟩
  have hrange : (List.range kl)[j]? = some j := by simp [hj]
  rw [State.writemask, List.getElem?_map, hrange]
  by_cases h : aaa = 0 <;> simp [h]

theorem toNat_linearAdd_long64 {s : State} (hmode : s.mode = .long64) (la : Word64) (k : Nat) :
    (linearAdd s la k).toNat = (la.toNat + k) % 2 ^ 64 := by
  rw [linearAdd, if_pos hmode, BitVec.toNat_add, BitVec.toNat_ofNat, Nat.add_mod_mod]

theorem toNat_linearAdd_narrow {s : State} (hmode : s.mode ≠ .long64) (la : Word64) (k : Nat) :
    (linearAdd s la k).toNat = (la.toNat + k) % 2 ^ 32 := by
  rw [linearAdd, if_neg hmode, toNat_cut_add _ _ _ (by decide)]

theorem toNat_linear_long64 {s : State} (hmode : s.mode = .long64) (r : SegName) (ea : Word64) :
    (s.linear r ea).toNat = ((s.segBase r).toNat + ea.toNat) % 2 ^ 64 := by
  rw [State.linear, toNat_linearAdd_long64 hmode, BitVec.toNat_add]
  omega

theorem toNat_linear_narrow {s : State} (hmode : s.mode ≠ .long64) (r : SegName) (ea : Word64) :
    (s.linear r ea).toNat = ((s.segBase r).toNat + ea.toNat) % 2 ^ 32 := by
  rw [State.linear, toNat_linearAdd_narrow hmode, BitVec.toNat_add]
  omega

theorem segBase_of_ne_long64 {s : State} (hmode : s.mode ≠ .long64) (r : SegName) : s.segBase r = (s.seg r).base := if_neg hmode

/-- Settles O34: a linear address is the segment's base plus the effective address, cut as `linearAdd` cuts. -/
theorem linearAddresses : Obligations.LinearAddresses := by
  intro s r ea k
  refine ⟨fun hmode => ⟨?_, toNat_linearAdd_long64 hmode _ k⟩, fun hmode => ⟨?_, toNat_linearAdd_narrow hmode _ k⟩⟩
  · rw [toNat_linear_long64 hmode]
    cases r <;> simp [State.segBase, hmode]
  · rw [toNat_linear_narrow hmode, segBase_of_ne_long64 hmode]

/-- The overrides that count: in 64-bit mode FS and GS only (rule R72). -/
def overrideCounts (long : Bool) : SegName → Bool
  | .fs | .gs => true
  | .es | .cs | .ss | .ds => !long

theorem segmentOverride_singleton (long : Bool) (r : SegName) :
    segmentOverride long [.segment r] = if overrideCounts long r then some r else none := by
  cases r <;> cases long <;> rfl

/-- Later override bytes come first. -/
theorem segmentOverride_cons (long : Bool) (p : LegacyPrefix) (rest : List LegacyPrefix) :
    segmentOverride long (p :: rest) = (segmentOverride long rest).or (segmentOverride long [p]) := by
  cases h : segmentOverride long rest <;> simp [segmentOverride, h]

theorem segmentOverride_append (long : Bool) (before after : List LegacyPrefix) :
    segmentOverride long (before ++ after) = (segmentOverride long after).or (segmentOverride long before) := by
  induction before with
  | nil => simp [segmentOverride]
  | cons p before ih => rw [List.cons_append, segmentOverride_cons, ih, segmentOverride_cons long p before, Option.or_assoc]

theorem segmentOverride_eq_none {long : Bool} {pre : List LegacyPrefix}
    (h : ∀ q, .segment q ∈ pre → overrideCounts long q = false) : segmentOverride long pre = none := by
  induction pre with
  | nil => rfl
  | cons p pre ih =>
    rw [segmentOverride_cons, ih fun q hq => h q (List.mem_cons_of_mem p hq), Option.none_or]
    cases p with
    | segment q => rw [segmentOverride_singleton, h q List.mem_cons_self]; rfl
    | opSize | addrSize | lock | repne | rep | rex => rfl

/-- An override that counts, with none that counts after it, is the segment. -/
theorem operandSegment_override {s : State} {r : SegName} (before : List LegacyPrefix) {after : List LegacyPrefix} (m : MemRef)
    (hr : overrideCounts (decide (s.mode = .long64)) r = true)
    (hafter : ∀ q, .segment q ∈ after → overrideCounts (decide (s.mode = .long64)) q = false) :
    s.operandSegment (before ++ .segment r :: after) m = r := by
  rw [State.operandSegment, segmentOverride_append, segmentOverride_cons, segmentOverride_eq_none hafter, segmentOverride_singleton, hr]
  rfl

theorem operandSegment_default {s : State} {pre : List LegacyPrefix}
    (h : ∀ q, .segment q ∈ pre → overrideCounts (decide (s.mode = .long64)) q = false) : s.operandSegment pre = defaultSegment := by
  funext m
  rw [State.operandSegment, segmentOverride_eq_none h]
  rfl

/-- In 64-bit mode bytes without FS and GS overrides hold none that counts. -/
theorem overrideCounts_of_long64 {s : State} {pre : List LegacyPrefix} (hmode : s.mode = .long64) (hfs : .segment .fs ∉ pre)
    (hgs : .segment .gs ∉ pre) : ∀ q, .segment q ∈ pre → overrideCounts (decide (s.mode = .long64)) q = false := by
  intro q hq
  cases q with
  | fs => exact absurd hq hfs
  | gs => exact absurd hq hgs
  | es | cs | ss | ds => simp [overrideCounts, hmode]

/-- Settles O38: the last override that counts decides, and without one the default of the addressing form. -/
theorem lastSegmentOverrideWins : Obligations.LastSegmentOverrideWins := by
  intro s before after r
  refine ⟨fun hmode hafter m => ?_, fun hmode hfs hgs hr m => ?_, fun hbefore => ?_⟩
  · refine operandSegment_override before m ?_ fun q hq => absurd hq (hafter q)
    cases r <;> simp [overrideCounts, hmode]
  · refine operandSegment_override before m ?_ (overrideCounts_of_long64 hmode hfs hgs)
    rcases hr with rfl | rfl <;> rfl
  · have hnone : ∀ q, .segment q ∈ before → overrideCounts (decide (s.mode = .long64)) q = false := by
      rcases hbefore with hbefore | ⟨hmode, hfs, hgs⟩
      · exact fun q hq => absurd hq (hbefore q)
      · exact overrideCounts_of_long64 hmode hfs hgs
    simp [operandSegment_default hnone, defaultSegment, ← BitVec.toNat_inj]

/-! ### Reset and INIT (rules R35, R200) -/

@[simp] theorem reset_vreg (n : BitVec 5) : State.reset.vreg n = 0 := by simp [State.vreg, State.reset]

theorem reset_k (n : BitVec 3) : State.reset.k n = 0 := by simp [State.k, State.reset]

theorem reset_reg_of_ne {n : BitVec 4} (hn : n ≠ 2) : State.reset.reg n = 0 := by
  have hne : 2 ≠ n.toNat := fun h => hn (BitVec.eq_of_toNat_eq h.symm)
  simp [State.reg, State.reset, hne]

/-- Settles O56: memory and page list are empty, registers zero, and MXCSR is 1F80H. -/
theorem resetMeetsInvariant : Obligations.ResetMeetsInvariant where
  mem := reset_memWf
  pages := List.Pairwise.nil
  vectors n := by rw [reset_vreg]; exact BitVec.zero_ushiftRight
  highVectors _ n _ := reset_vreg n
  mxcsr := by unfold State.mxcsrReservedZero; decide

/-- Settles O57: each value is read off the reset state; the first fetch address is the CS base plus RIP. -/
theorem resetValues : Obligations.ResetValues :=
  ⟨reset_vreg, reset_k, rfl, fun _ hn => reset_reg_of_ne hn, rfl, rfl, by decide, rfl, rfl, rfl, rfl, by decide⟩

/-- The bits that INIT keeps of CR0. -/
theorem cacheControlBits_getLsbD (k : Nat) : cacheControlBits.getLsbD k = decide (k = 29 ∨ k = 30) := by
  by_cases hk : k < 64
  · revert k; decide
  · rw [BitVec.getLsbD_of_ge _ _ (by omega)]
    simp; omega

/-- CR0 is 60000010H after reset. -/
theorem reset_cr0_getLsbD (k : Nat) : State.reset.cr0.getLsbD k = decide (k = 4 ∨ k = 29 ∨ k = 30) := by
  by_cases hk : k < 64
  · revert k; decide
  · rw [BitVec.getLsbD_of_ge _ _ (by omega)]
    simp; omega

theorem afterInit_cr0_getLsbD (s : State) (k : Nat) :
    s.afterInit.cr0.getLsbD k = if k = 29 ∨ k = 30 then s.cr0.getLsbD k else k == 4 := by
  by_cases hk : k < 64
  · simp only [State.afterInit_cr0, BitVec.getLsbD_or, BitVec.getLsbD_and, BitVec.getLsbD_not, cacheControlBits_getLsbD, reset_cr0_getLsbD]
    split_ifs with hcache
    · simp [hcache, hk]
    · simp [hcache, hk, beq_eq_decide]
  · rw [BitVec.getLsbD_of_ge _ _ (by omega), BitVec.getLsbD_of_ge s.cr0 _ (by omega)]
    simp; omega

theorem afterInit_mode (s : State) : s.afterInit.mode = .real := by
  have hpe : s.afterInit.cr0PE = false := afterInit_cr0_getLsbD s 0
  rw [State.mode, hpe]
  rfl

theorem afterInit_inv {s : State} (hinv : s.Inv) : s.afterInit.Inv where
  mem := hinv.mem
  pages := hinv.pages
  vectors := hinv.vectors
  highVectors := hinv.highVectors
  mxcsr := hinv.mxcsr

/-- Settles O58: INIT copies what it keeps, and takes the rest from the reset state. -/
theorem initKeepsVectorState : Obligations.InitKeepsVectorState := by
  intro s
  exact ⟨fun _ => rfl, fun _ => rfl, rfl, fun _ hn => reset_reg_of_ne hn, rfl, rfl, afterInit_mode s, rfl, rfl, rfl,
    afterInit_cr0_getLsbD s, afterInit_inv⟩

/-- Within the length limit, a `#UD` condition ends the execution at its own state. -/
theorem exec_undefined {i : Instr} {s : State} (hlen : i.length ≤ maxInstrLength) (hud : s.undefinedFor i = true) :
    exec i s = .fault (.exception .invalidOpcode s) := by
  rw [exec_eq_destValue, execForm, if_neg (Nat.not_lt.2 hlen), if_pos hud]
  rfl

/-- At reset the mode is real-address and CR4 is 0. -/
theorem undefinedFor_reset (i : Instr) (m : List Host.Cell) : State.undefinedFor { State.reset with mem := m } i = true := by
  have hfxsr : State.cr4OSFXSR { State.reset with mem := m } = false := (by decide : State.reset.cr4OSFXSR = false)
  have hreal : State.realOrV86 { State.reset with mem := m } = true := (by decide : State.reset.realOrV86 = true)
  cases i with
  | cvttpd2dq => simp [State.undefinedFor, State.legacyUd, hfxsr]
  | vcvttpd2dqVex128 | vcvttpd2dqVex256 => simp [State.undefinedFor, State.vexUd, hreal]
  | vcvttpd2dqEvex128 | vcvttpd2dqEvex256 | vcvttpd2dqEvex512 => simp [State.undefinedFor, State.evexUd, hreal]

/-- Settles O59: the `#UD` conditions of every form are met there. -/
theorem resetStateRunsNoForm : Obligations.ResetStateRunsNoForm := fun i m hlen =>
  exec_undefined hlen (undefinedFor_reset i m)

end Sys2Proof.Machine

/-! PROOFS. The memory family (spec/20_memory.md): bytes and addresses, what each memory operand answers, and what an execution makes of that answer. -/
namespace Sys2Proof.Machine

/-! ### What an execution makes of its checks and of its source (rule R176) -/

theorem exec_overlong {i : Instr} {s : State} (hlen : maxInstrLength < i.length) : exec i s = .fault (.exception .generalProtection s) := by
  rw [exec_eq_destValue, execForm, if_pos hlen]
  rfl

theorem exec_deviceNotAvailable {i : Instr} {s : State} (hlen : i.length ≤ maxInstrLength) (hdef : s.undefinedFor i = false)
    (hts : s.cr0TS = true) : exec i s = .fault (.exception .deviceNotAvailable s) := by
  simp [exec_eq_destValue, execForm, Nat.not_lt.2 hlen, hdef, hts, takeException]

/-- Past the checks an execution converts its source's elements, or stops as the source does. -/
theorem exec_of_ready {i : Instr} {s : State} (hready : s.ready i) :
    exec i s = (s.source i).run s fun elems => retire i.length (Instr.suppressed i)
      (fun rs t => t.setVreg (Instr.destination i) (Instr.destValue i (t.vreg (Instr.destination i)) rs)) elems s := by
  obtain ⟨hlen, hdef, hts, hvl⟩ := hready
  simp [exec_eq_destValue, execForm, Nat.not_lt.2 hlen, hdef, hts, Nat.not_lt.2 hvl]

theorem exec_of_source_raise {i : Instr} {s : State} {x : Exception} (hready : s.ready i) (hsource : s.source i = .raise x) :
    exec i s = takeException x s := by
  rw [exec_of_ready hready, hsource, Answer.run_raise]

theorem exec_of_source_refuse {i : Instr} {s : State} {r : Refusal} (hready : s.ready i) (hsource : s.source i = .refuse r) :
    exec i s = .refused r := by
  rw [exec_of_ready hready, hsource, Answer.run_refuse]

/-- Settles O12: the checks of `execForm`, one after the other. -/
theorem exceptionPriority : Obligations.ExceptionPriority := fun _ _ =>
  ⟨exec_overlong, exec_undefined, exec_deviceNotAvailable, fun hready _ => exec_of_source_raise hready⟩

/-- Settles O52: memory is not among what a step writes. -/
theorem noStepWritesMemory : Obligations.NoStepWritesMemory := by
  intro s t h
  obtain ⟨zmm, mxcsr, rip, cr2, draws, rfl⟩ := step_frame h
  exact ⟨rfl, fun _ => rfl⟩

/-! ### Address checks (rules R50, R54, R173) -/

/-- Sign extension from bit `n - 1` changes nothing exactly if the bits from there up are equal. -/
theorem upperBitsEqual_iff {n : Nat} (hn : 0 < n) (hn64 : n ≤ 64) (la : Word64) :
    upperBitsEqual n la = true ↔ ∀ k, n - 1 ≤ k → k < 64 → la.getLsbD k = la.getLsbD 63 := by
  have hbit (k : Nat) (hk : k < 64) :
      ((la.setWidth n).signExtend 64).getLsbD k = la.getLsbD (if k < n then k else n - 1) := by
    rw [BitVec.getLsbD_signExtend]
    by_cases hkn : k < n
    · simp [hk, hkn]
    · simp [hk, hkn, BitVec.msb_eq_getLsbD_last, show n - 1 < n by omega]
  rw [upperBitsEqual, beq_iff_eq]
  constructor
  · intro h k hk hk64
    have hsign (j : Nat) (hj : n - 1 ≤ j) (hj64 : j < 64) : la.getLsbD j = la.getLsbD (n - 1) := by
      have hj' := hbit j hj64
      rw [h] at hj'
      rw [hj']
      split_ifs
      · congr 1; omega
      · rfl
    rw [hsign k hk hk64, hsign 63 (by omega) (by omega)]
  · intro h
    apply BitVec.eq_of_getLsbD_eq
    intro k hk
    rw [hbit k hk]
    split_ifs with hkn
    · rfl
    · rw [h (n - 1) le_rfl (by omega), h k (by omega) hk]

/-- Settles O30: the check compares the bits from 47 or 56 up with their sign. -/
theorem canonicalAddressBits : Obligations.CanonicalAddressBits := by
  intro s la
  unfold canonical
  split_ifs
  · exact upperBitsEqual_iff (by decide) (by decide) la
  · exact upperBitsEqual_iff (by decide) (by decide) la

/-- Settles O31: `State.byteOk` mode by mode. -/
theorem operandByteChecks : Obligations.OperandByteChecks := by
  intro s r ea i
  refine ⟨fun hmode => ?_, fun hmode => ?_, fun hmode => ?_⟩
  · rw [State.byteOk, hmode]
    exact canonicalAddressBits s _
  · rcases hmode with hmode | hmode <;> simp [State.byteOk, hmode]
  · rcases hmode with hmode | hmode <;> simp [State.byteOk, hmode, and_assoc]

/-- With every element enabled, the check asks about every byte of the operand. -/
theorem elementsOk_replicate_iff (s : State) (r : SegName) (ea : Word64) (c : Nat) :
    s.elementsOk r ea 0 (List.replicate c true) = true ↔ ∀ k < 8 * c, s.byteOk r ea k = true := by
  simp only [elementsOk_iff, Nat.zero_add, List.getElem?_replicate, Option.ite_none_right_eq_some, and_true]
  constructor
  · intro h k hk
    have := h (k / 8) (by omega) (k % 8) (by omega)
    rwa [Nat.div_add_mod] at this
  · exact fun h j hj i hi => h (8 * j + i) (by omega)

/-- A bad byte of an enabled element fails the check. -/
theorem elementsOk_eq_false {s : State} {r : SegName} {ea : Word64} {mask : List Bool} {j k : Nat} (hj : mask[j]? = some true)
    (hk : k < 8) (hbad : s.byteOk r ea (8 * j + k) = false) : s.elementsOk r ea 0 mask = false := by
  by_contra hok
  have := (elementsOk_iff s r ea mask 0).1 (by simpa using hok) j hj k hk
  rw [Nat.zero_add, hbad] at this
  cases this

/-- Rule R173: the exception of a bad address changes no state. -/
theorem takeException_addressFault (s : State) (r : SegName) :
    takeException (s.addressFault r) s =
      .fault (.exception (if r = .ss ∧ s.mode ≠ .real ∧ s.mode ≠ .v86 then .stackSegment else .generalProtection) s) := by
  have hmode : s.realOrV86 = false ↔ s.mode ≠ .real ∧ s.mode ≠ .v86 := by simp [State.realOrV86]
  simp only [State.addressFault, hmode]
  split_ifs <;> rfl

/-! ### Reading a byte and an element (rules R51, R54, R58, R170) -/

/-- Bits 0, 1, 2 and 4 of the error code of a data read (rule R170). -/
theorem pageFaultCode_data_bits (s : State) (present : Bool) :
    (pageFaultCode s .data present).getLsbD 0 = present ∧ (pageFaultCode s .data present).getLsbD 1 = false ∧
      (pageFaultCode s .data present).getLsbD 2 = s.cplIs3 ∧ (pageFaultCode s .data present).getLsbD 4 = false := by
  unfold pageFaultCode
  cases present <;> cases s.cplIs3 <;> decide

theorem readByte_of_translatePage_raise {s : State} {kind : Access} {la : Word64} {x : Exception}
    (h : translatePage s kind la = .raise x) : readByte s kind la = .raise x := by
  rw [readByte, translate, h]
  rfl

theorem readByte_notPresent {s : State} {kind : Access} {la : Word64} (hpe : s.cr0PE = true) (hpg : s.cr0PG = true)
    (hentry : pageEntry s.pages (la.toNat / pageSize) = some .notPresent) :
    readByte s kind la = .raise (.pageFault (pageFaultCode s kind false) la) :=
  readByte_of_translatePage_raise (by simp [translatePage, hpe, hpg, hentry])

theorem readByte_supervisor {s : State} {kind : Access} {la : Word64} {frame : Nat} (hpe : s.cr0PE = true) (hpg : s.cr0PG = true)
    (hentry : pageEntry s.pages (la.toNat / pageSize) = some (.mapped frame false)) (hcpl : s.cplIs3 = true) :
    readByte s kind la = .raise (.pageFault (pageFaultCode s kind true) la) :=
  readByte_of_translatePage_raise (by simp [translatePage, hpe, hpg, hentry, hcpl])

/-- A byte in a device page is refused, through whatever page it is reached (rule R58). -/
theorem readByte_of_translatePage_device {s : State} {kind : Access} {la : Word64} {pa : Nat} (h : translatePage s kind la = .ok pa)
    (hdevice : pa / pageSize ∈ s.devicePages) : readByte s kind la = .refuse .deviceAccess := by
  simp [readByte, translate, h, hdevice]

/-- Without paging, and on an unlisted page, an address is its own translation. -/
theorem translatePage_identity {s : State} (kind : Access) {la : Word64}
    (h : s.cr0PE = false ∨ s.cr0PG = false ∨ pageEntry s.pages (la.toNat / pageSize) = none) : translatePage s kind la = .ok la.toNat := by
  rcases h with h | h | h <;> simp [translatePage, h]

theorem translatePage_mapped {s : State} (kind : Access) {la : Word64} {frame : Nat} {user : Bool} (hpe : s.cr0PE = true)
    (hpg : s.cr0PG = true) (hentry : pageEntry s.pages (la.toNat / pageSize) = some (.mapped frame user))
    (huser : s.cplIs3 = true → user = true) : translatePage s kind la = .ok (frame * pageSize + la.toNat % pageSize) := by
  cases hcpl : s.cplIs3 with
  | false => simp [translatePage, hpe, hpg, hentry, hcpl]
  | true => simp [translatePage, hpe, hpg, hentry, huser hcpl]

/-- A page fault names the address that was translated. -/
theorem translatePage_pageFault {s : State} {kind : Access} {la a : Word64} {code : BitVec 32}
    (h : translatePage s kind la = .raise (.pageFault code a)) : a = la := by
  unfold translatePage at h
  split_ifs at h
  · split at h
    · cases h
    · cases h; rfl
    · split_ifs at h
      cases h; rfl

theorem readByte_pageFault {s : State} {kind : Access} {la a : Word64} {code : BitVec 32}
    (h : readByte s kind la = .raise (.pageFault code a)) : a = la := by
  rw [readByte, translate] at h
  cases hpage : translatePage s kind la with
  | ok pa =>
    rw [hpage, Answer.bind_ok] at h
    split_ifs at h <;> cases h
  | raise x =>
    rw [hpage] at h
    cases h; exact translatePage_pageFault hpage
  | refuse r => rw [hpage] at h; cases h

/-- Settles O32: the page list decides the fault and its code; taking the fault writes CR2. -/
theorem pageFaultRecords : Obligations.PageFaultRecords := by
  refine ⟨fun s la e hpe hpg hentry he => ?_, fun i s code a hready hsource => exec_of_source_raise hready hsource⟩
  rcases he with rfl | ⟨frame, rfl, hcpl⟩
  · obtain ⟨h0, h1, h2, h4⟩ := pageFaultCode_data_bits s false
    exact ⟨_, readByte_notPresent hpe hpg hentry, ⟨fun h => absurd (h0.symm.trans h) (by decide), fun h => absurd rfl h⟩, h1, h2, h4⟩
  · obtain ⟨h0, h1, h2, h4⟩ := pageFaultCode_data_bits s true
    exact ⟨_, readByte_supervisor hpe hpg hentry hcpl, by simp [h0], h1, h2, h4⟩

/-- Settles O22: an element is the little-endian word of the bytes read. -/
theorem quadIsLittleEndian : Obligations.QuadIsLittleEndian := by
  intro s r ea b hb
  refine ⟨leWord ((List.range 8).map b), ?_, fun i hi => ?_⟩
  · rw [readQuad, readBytes_eq s b 8 _ hb (linearAdd_linear s r ea), Answer.bind_ok]
  · have hbyte := leWord_extract ((List.range 8).map b) (by simp) i (by simpa using hi)
    simpa [hi] using hbyte

/-! ### What a full-width memory operand answers (rules R52 to R56, R64) -/

section
variable {s : State} {pre : List LegacyPrefix} {len n : Nat} {aligned : Bool} {m : MemRef} {mask : List Bool}

theorem vectorOperand_badAddress (hon : true ∈ mask)
    (hbad : s.elementsOk (s.operandSegment pre m) (s.effectiveAddress pre len n m) 0 mask = false) :
    s.vectorOperand pre len n aligned m mask = .raise (s.addressFault (s.operandSegment pre m)) := by
  simp [State.vectorOperand, hon, hbad]

theorem vectorOperand_misaligned (hon : true ∈ mask)
    (hok : s.elementsOk (s.operandSegment pre m) (s.effectiveAddress pre len n m) 0 mask = true)
    (hmis : (s.linear (s.operandSegment pre m) (s.effectiveAddress pre len n m)).toNat % 16 ≠ 0) :
    s.vectorOperand pre len n true m mask = .raise .generalProtection := by
  simp [State.vectorOperand, hon, hok, hmis]

theorem vectorOperand_reads (hon : true ∈ mask)
    (hok : s.elementsOk (s.operandSegment pre m) (s.effectiveAddress pre len n m) 0 mask = true)
    (halign : aligned = true → (s.linear (s.operandSegment pre m) (s.effectiveAddress pre len n m)).toNat % 16 = 0) :
    s.vectorOperand pre len n aligned m mask =
      readElements s (s.linear (s.operandSegment pre m) (s.effectiveAddress pre len n m)) mask := by
  have hmis : (aligned && (s.linear (s.operandSegment pre m) (s.effectiveAddress pre len n m)).toNat % 16 != 0) = false := by
    cases aligned with
    | false => rfl
    | true => simp [halign rfl]
  simp only [State.vectorOperand, any_id_of_mem hon, hok, hmis]
  rfl

theorem vectorOperand_maskedOff (hoff : true ∉ mask) :
    s.vectorOperand pre len n aligned m mask =
      if s.elementsOk (s.operandSegment pre m) (s.effectiveAddress pre len n m) 0 (List.replicate mask.length true)
      then .ok (List.replicate mask.length none) else .refuse .maskedOffAddress := by
  simp [State.vectorOperand, hoff, List.map_const']

/-! ### What the broadcast operand answers (rules R53 (c), R55, R56, R64) -/

theorem broadcastOperand_badAddress (hon : true ∈ mask)
    (hbad : s.elementsOk (s.operandSegment pre m) (s.effectiveAddress pre len 8 m) 0 [true] = false) :
    s.broadcastOperand pre len m mask = .raise (s.addressFault (s.operandSegment pre m)) := by
  simp [State.broadcastOperand, hon, hbad]

/-- An addressable broadcast operand is one read, then the alignment check, then its value for every enabled element. -/
theorem broadcastOperand_reads (hon : true ∈ mask)
    (hok : s.elementsOk (s.operandSegment pre m) (s.effectiveAddress pre len 8 m) 0 [true] = true) :
    s.broadcastOperand pre len m mask =
      (readQuad s (s.linear (s.operandSegment pre m) (s.effectiveAddress pre len 8 m))).bind fun v =>
        if s.alignCheck && (s.linear (s.operandSegment pre m) (s.effectiveAddress pre len 8 m)).toNat % 8 != 0
        then .raise .alignmentCheck else .ok (mask.map fun e => if e then some v else none) := by
  simp [State.broadcastOperand, hon, hok]

theorem broadcastOperand_maskedOff (hoff : true ∉ mask) :
    s.broadcastOperand pre len m mask =
      if s.elementsOk (s.operandSegment pre m) (s.effectiveAddress pre len 8 m) 0 (List.replicate 1 true)
      then .ok (List.replicate mask.length none) else .refuse .maskedOffAddress := by
  simp [State.broadcastOperand, hoff, List.map_const']

end

/-- Settles O23: past its checks a full-width operand is read element by element. -/
theorem memoryOperandElements : Obligations.MemoryOperandElements := by
  intro s pre len n aligned m mask q r ea la hon helems halign
  have hok : s.elementsOk r ea 0 mask = true :=
    (elementsOk_iff s r ea mask 0).2 fun j hj i hi => by rw [Nat.zero_add]; exact (helems j hj).1 i hi
  rw [vectorOperand_reads hon hok halign]
  exact readElements_eq s mask la q (linearAdd_linear s r ea) fun j hj => (helems j hj).2

theorem elementsOk_singleton_iff (s : State) (r : SegName) (ea : Word64) :
    s.elementsOk r ea 0 [true] = true ↔ ∀ k < 8, s.byteOk r ea k = true := elementsOk_replicate_iff s r ea 1

/-- Settles O25: the one value read is handed out, since the alignment check passes. -/
theorem broadcastOperandReads : Obligations.BroadcastOperandReads := by
  intro s pre len m mask v r ea hon hok hread halign
  have hmis : (s.alignCheck && (s.linear r ea).toNat % 8 != 0) = false := by
    cases hac : s.alignCheck with
    | false => rfl
    | true => simp [halign hac]
  rw [broadcastOperand_reads hon ((elementsOk_singleton_iff s r ea).2 hok), hread, Answer.bind_ok, hmis]
  rfl

/-! ### The source of an instruction with a memory operand (rules R53, R96, R150) -/

/-- Form 1 needs its memory operand aligned (rule R53 (a)). -/
def Instr.needsAlignment : Instr → Bool
  | .cvttpd2dq _ => true
  | .vcvttpd2dqVex128 _ | .vcvttpd2dqVex256 _ | .vcvttpd2dqEvex128 _ | .vcvttpd2dqEvex256 _ | .vcvttpd2dqEvex512 _ => false

theorem needsAlignment_iff {i : Instr} : Instr.needsAlignment i = true ↔ ∃ o, i = .cvttpd2dq o := by
  cases i <;> simp [Instr.needsAlignment]

/-- Of the kinds of source only plain memory is a full-width operand; each form reads it with its own factor. -/
theorem source_of_fullOperand {i : Instr} {pre : List LegacyPrefix} {n : Nat} {m : MemRef}
    (h : Instr.fullOperand i = some (pre, n, m)) (s : State) :
    s.source i = s.vectorOperand pre i.length n (Instr.needsAlignment i) m (s.enabledElements i) := by
  cases i with
  | cvttpd2dq o =>
    rcases o with ⟨_, _, _, _ | _⟩ <;> cases h
    rfl
  | vcvttpd2dqVex128 o | vcvttpd2dqVex256 o =>
    rcases o with ⟨_, _, _, _, _ | _⟩ <;> cases h
    rfl
  | vcvttpd2dqEvex128 o | vcvttpd2dqEvex256 o | vcvttpd2dqEvex512 o =>
    rcases o with ⟨_, _, _, _, _, _, (_ | _) | _ | _⟩ <;> cases h
    rfl

theorem source_of_broadcastOperand {i : Instr} {pre : List LegacyPrefix} {m : MemRef}
    (h : Instr.broadcastOperand i = some (pre, m)) (s : State) :
    s.source i = s.broadcastOperand pre i.length m (s.enabledElements i) := by
  cases i with
  | cvttpd2dq | vcvttpd2dqVex128 | vcvttpd2dqVex256 => cases h
  | vcvttpd2dqEvex128 o | vcvttpd2dqEvex256 o | vcvttpd2dqEvex512 o =>
    rcases o with ⟨_, _, _, _, _, _, _ | _ | _⟩ <;> cases h
    rfl

/-- Forms 4 to 6 with the same operands. -/
def Instr.evexForms (o : EvexOps) : List Instr := [Instr.vcvttpd2dqEvex128 o, .vcvttpd2dqEvex256 o, .vcvttpd2dqEvex512 o]

theorem mem_evexForms_iff {i : Instr} {o : EvexOps} :
    i ∈ Instr.evexForms o ↔ i = .vcvttpd2dqEvex128 o ∨ i = .vcvttpd2dqEvex256 o ∨ i = .vcvttpd2dqEvex512 o := by
  simp [Instr.evexForms]

/-- What these forms share besides their operands. -/
theorem evex_shared {i : Instr} {o : EvexOps} (hi : i ∈ Instr.evexForms o) :
    i.length = o.length ∧ Instr.destination i = o.dst ∧ Instr.destValue i = (destEvex · o.zeroing ·) := by
  rcases mem_evexForms_iff.1 hi with rfl | rfl | rfl <;> exact ⟨rfl, rfl, rfl⟩

theorem source_of_evex_broadcast {i : Instr} {o : EvexOps} {m : MemRef}
    (hi : i ∈ Instr.evexForms o) (hsrc : o.src = .broadcast m) (s : State) :
    s.source i = s.broadcastOperand o.pre o.length m (s.enabledElements i) := by
  have hop : Instr.broadcastOperand i = some (o.pre, m) := by
    rcases mem_evexForms_iff.1 hi with rfl | rfl | rfl <;> simp [Instr.broadcastOperand, hsrc]
  rw [source_of_broadcastOperand hop, (evex_shared hi).1]

/-- Settles O24: a broadcast operand that can be read came from one read. -/
theorem broadcastReadsOnce : Obligations.BroadcastReadsOnce := by
  intro i o s m elems hi hsrc hon hsource
  rw [source_of_evex_broadcast hi hsrc] at hsource
  cases hok : s.elementsOk (s.operandSegment o.pre m) (s.effectiveAddress o.pre o.length 8 m) 0 [true] with
  | false => rw [broadcastOperand_badAddress hon hok] at hsource; cases hsource
  | true =>
    rw [broadcastOperand_reads hon hok] at hsource
    obtain ⟨v, hread, hv⟩ := Answer.bind_eq_ok hsource
    split_ifs at hv
    cases hv
    exact ⟨v, hread, rfl⟩

/-- Settles O28: the operand is read, and then the alignment check objects. -/
theorem broadcastMisalignedRaisesAc : Obligations.BroadcastMisalignedRaisesAc := by
  intro i o s m v hi hsrc hready hon hcheck r ea hok hread hmis
  have hsource : s.source i = .raise .alignmentCheck := by
    rw [source_of_evex_broadcast hi hsrc, broadcastOperand_reads hon ((elementsOk_singleton_iff s r ea).2 hok), hread, Answer.bind_ok,
      if_pos (by simpa [hcheck] using hmis)]
  exact exec_of_source_raise hready hsource

/-- Settles O27: the 16 bytes pass the address check, and the alignment check comes before the read. -/
theorem legacyMisalignedRaisesGp : Obligations.LegacyMisalignedRaisesGp := by
  intro o s m hsrc hready r ea hok hmis
  have hsource : s.source (.cvttpd2dq o) = .raise .generalProtection := by
    rw [State.source, hsrc]
    exact vectorOperand_misaligned List.mem_cons_self ((elementsOk_replicate_iff s r ea 2).2 hok) hmis
  exact exec_of_source_raise hready hsource

/-- Settles O29: an operand with a bad byte answers the exception of its segment. -/
theorem badAddressFaults : Obligations.BadAddressFaults := by
  intro i s pre m n k hready hk r ea answer
  have hstop (hsource : s.source i = .raise (s.addressFault r)) : exec i s = answer := by
    rw [exec_of_source_raise hready hsource, takeException_addressFault]
  refine ⟨fun j hop hj hbad => hstop ?_, fun hop hn hon hbad => hstop ?_⟩
  · rw [source_of_fullOperand hop]
    exact vectorOperand_badAddress (List.mem_of_getElem? hj) (elementsOk_eq_false hj hk hbad)
  · subst hn
    rw [source_of_broadcastOperand hop]
    exact broadcastOperand_badAddress hon (elementsOk_eq_false (j := 0) rfl hk (by simpa using hbad))

/-- A source that stops at a byte that cannot be read stops the execution as that byte does. -/
theorem unreadable_stops {i : Instr} {s : State} {la : Word64} (hready : s.ready i)
    (hsource : (∀ b, readByte s .data la ≠ .ok b) → s.source i = (readByte s .data la).bind fun _ => .ok []) :
    (∀ code a, readByte s .data la = .raise (.pageFault code a) →
      a = la ∧ exec i s = .fault (.exception (.pageFault code a) { s with cr2 := a })) ∧
    (readByte s .data la = .refuse .deviceAccess → exec i s = .refused .deviceAccess) := by
  refine ⟨fun code a hraise => ⟨readByte_pageFault hraise, ?_⟩, fun hrefuse => ?_⟩
  · rw [hraise] at hsource
    exact exec_of_source_raise hready (hsource fun _ h => by cases h)
  · rw [hrefuse] at hsource
    exact exec_of_source_refuse hready (hsource fun _ h => by cases h)

/-- The frame, not the linear page, decides whether a mapped byte lies in a device page. -/
theorem frame_of_physical (frame la : Nat) : (frame * pageSize + la % pageSize) / pageSize = frame := by
  simp only [pageSize]; omega

/-- Settles O33: the reads stop at the first byte that cannot be read, and the execution with them. -/
theorem unreadableByteStops : Obligations.UnreadableByteStops := by
  refine ⟨fun i s pre m n k hready hk => ?_, fun s la => ⟨fun hplain hdevice => ?_, fun frame user hpe hpg hentry huser hdevice => ?_⟩⟩
  · intro r ea byte fine stops
    refine ⟨fun j hop hj hfine halign => unreadable_stops hready fun hstop => ?_,
      fun hop hn hon hfine => unreadable_stops hready fun hstop => ?_⟩
    · have hok : s.elementsOk r ea 0 (s.enabledElements i) = true :=
        (elementsOk_iff s r ea _ 0).2 fun j' hj' k' hk' => by rw [Nat.zero_add]; exact (hfine j' hj' k' hk').1
      rw [source_of_fullOperand hop,
        vectorOperand_reads (List.mem_of_getElem? hj) hok fun h => halign (needsAlignment_iff.1 h)]
      exact readElements_stop s _ k hk _ _ j (linearAdd_linear s r ea) hj (fun j' hj' k' hk' => (hfine j' hj' k' hk').2) hstop
    · subst hn
      rw [source_of_broadcastOperand hop,
        broadcastOperand_reads hon ((elementsOk_singleton_iff s r ea).2 fun k' hk' => (hfine k' hk').1),
        readQuad_stop s (fun _ => .ok 0) hk (linearAdd_linear s r ea) (fun k' hk' => (hfine k' (hk'.trans hk)).2 hk') hstop]
      exact Answer.bind_stop hstop _ _ _
  · exact readByte_of_translatePage_device (translatePage_identity .data hplain) hdevice
  · exact readByte_of_translatePage_device (translatePage_mapped .data hpe hpg hentry huser) (by rwa [frame_of_physical])

/-! ### An EVEX form with an all-zero mask (rule R56) -/

/-- With no element present no condition is detected, and only the destination and RIP are written. -/
theorem exec_noneEnabled {i : Instr} {s : State} {c : Nat} (hready : s.ready i) (hsource : s.source i = .ok (List.replicate c none)) :
    exec i s = .next ((s.setVreg (Instr.destination i)
      (Instr.destValue i (s.vreg (Instr.destination i)) (List.replicate c none))).advance i.length) := by
  have hconv : s.convertAll (List.replicate c none) = List.replicate c none := by simp [State.convertAll]
  have hinv : anyInvalid (s.convertAll (List.replicate c none)) = false := by simp [hconv, anyInvalid]
  have hinx : anyInexact (s.convertAll (List.replicate c none)) = false := by simp [hconv, anyInexact]
  have hflagged : s.flagged i (List.replicate c none) = s := by
    cases hsae : Instr.suppressed i with
    | true => exact flagged_of_suppressed hsae s _
    | false =>
      rw [flagged_of_not_suppressed hsae, hinv, hinx]
      simp [State.setFlags, orFlags]
  have hresults : s.results (List.replicate c none) = List.replicate c none := by simp [State.results, hconv]
  refine exec_next_iff.2 ⟨hready, _, hsource, .inr (by simp [State.someUnmasked, State.unmasked, hinv, hinx]), ?_⟩
  rw [State.completed, hflagged, hresults]

theorem vl_le (i : Instr) : Instr.vl i ≤ 512 := by cases i <;> simp [Instr.vl]

/-- An EVEX form without enabled elements keeps or zeroes the doublewords below `VL/2` and zeroes the rest. -/
theorem evex_noneEnabled {i : Instr} {o : EvexOps} {s : State} (hi : i ∈ Instr.evexForms o) (hready : s.ready i)
    (hsource : s.source i = .ok (List.replicate (Instr.vl i / 64) none)) :
    ∃ v, exec i s = .next ((s.setVreg o.dst v).advance o.length) ∧ v >>> (Instr.vl i / 2) = 0 ∧
      ∀ j < Instr.vl i / 64, dword v j = if o.zeroing then 0 else dword (s.vreg o.dst) j := by
  obtain ⟨hlen, hdst, hvalue⟩ := evex_shared hi
  have hvl := vl_le i
  refine ⟨destEvex (s.vreg o.dst) o.zeroing (List.replicate (Instr.vl i / 64) none), ?_, ?_, fun j hj => ?_⟩
  · rw [exec_noneEnabled hready hsource, hlen, hdst, hvalue]
  · exact destEvex_shift _ _ _ (by rw [List.length_replicate]; omega)
  · rw [dword_destEvex _ _ _ (by simpa using hj) (by omega), List.getElem_replicate]
    rfl

/-- The full-width operand of forms 4 to 6: its size in bytes is also its `disp8*N` factor (rule R89). -/
theorem source_of_evex_full {i : Instr} {o : EvexOps} {m : MemRef} {size n : Nat}
    (hform : (i, size, n) ∈ [(Instr.vcvttpd2dqEvex128 o, 16, 16), (.vcvttpd2dqEvex256 o, 32, 32), (.vcvttpd2dqEvex512 o, 64, 64)])
    (hsrc : o.src = .plain (.mem m)) (s : State) :
    size = 8 * (s.enabledElements i).length ∧ s.source i = s.vectorOperand o.pre o.length n false m (s.enabledElements i) := by
  simp only [List.mem_cons, Prod.mk.injEq, List.not_mem_nil, or_false] at hform
  rw [enabledElements_length]
  rcases hform with ⟨rfl, rfl, rfl⟩ | ⟨rfl, rfl, rfl⟩ | ⟨rfl, rfl, rfl⟩ <;>
    exact ⟨by simp [Instr.vl], by rw [State.source, hsrc]; rfl⟩

/-- Settles O26: without enabled elements the operand's addresses are checked and nothing is read. -/
theorem allMaskedOffReadsNothing : Obligations.AllMaskedOffReadsNothing := by
  intro i o s m size n hform hready hoff r ea
  have hi : i ∈ Instr.evexForms o := hform.elim (fun h => List.mem_map_of_mem (f := Prod.fst) h.1)
    fun h => List.mem_map_of_mem (f := Prod.fst) h.1
  obtain ⟨c, rfl, hsource⟩ : ∃ c, size = 8 * c ∧ s.source i =
      if s.elementsOk r ea 0 (List.replicate c true) then .ok (List.replicate (Instr.vl i / 64) none) else .refuse .maskedOffAddress := by
    rw [← enabledElements_length s i]
    rcases hform with ⟨hform, hsrc⟩ | ⟨hform, hsrc⟩
    · obtain ⟨hsize, hfull⟩ := source_of_evex_full hform hsrc s
      exact ⟨_, hsize, hfull.trans (vectorOperand_maskedOff hoff)⟩
    · obtain ⟨rfl, rfl⟩ : size = 8 ∧ n = 8 := by
        simp only [List.mem_cons, Prod.mk.injEq, List.not_mem_nil, or_false] at hform
        rcases hform with ⟨-, h⟩ | ⟨-, h⟩ | ⟨-, h⟩ <;> exact h
      exact ⟨1, rfl, (source_of_evex_broadcast hi hsrc s).trans (broadcastOperand_maskedOff hoff)⟩
  refine ⟨fun hok => ?_, fun ⟨k, hk, hbad⟩ => ?_⟩
  · rw [if_pos ((elementsOk_replicate_iff s r ea c).2 hok)] at hsource
    exact evex_noneEnabled hi hready hsource
  · have hno : ¬ s.elementsOk r ea 0 (List.replicate c true) = true := fun h => by
      rw [(elementsOk_replicate_iff s r ea c).1 h k hk] at hbad
      cases hbad
    rw [if_neg hno] at hsource
    exact exec_of_source_refuse hready hsource

end Sys2Proof.Machine

/-! PROOFS. The encoding family (spec/30_encoding.md): the decoder against the encoder, the `#UD` conditions of the forms, effective addresses. -/
namespace Sys2Proof

/-! ### The decoder after its `LegacyPrefix` bytes (rule R70) -/

theorem prefixOf_escape (mode : Config.Mode) {b : Byte} (hb : b ∈ [0x0F, 0xC4, 0xC5, 0x62]) : prefixOf mode b = none := by
  simp only [List.mem_cons, List.not_mem_nil, or_false] at hb
  rcases hb with rfl | rfl | rfl | rfl <;> simp [prefixOf]

section
variable (env : DecodeEnv) {pre : List LegacyPrefix} (hpre : prefixesOk env.mode pre = true)
include hpre

theorem decode_prefixes {b : Byte} (hb : b ∈ [0x0F, 0xC4, 0xC5, 0x62]) (bs : List Byte) :
    decode env (pre.map prefixByte ++ b :: bs) = decodeAfterPrefixes env pre (b :: bs) := by
  rw [decode, splitPrefixes_bytes _ _ hpre _ (prefixOf_escape _ hb)]

theorem decode_prefixes_legacy (bs : List Byte) : decode env (pre.map prefixByte ++ 0x0F :: 0xE6 :: bs) = decodeLegacy env pre bs :=
  decode_prefixes env hpre (by simp) _

theorem decode_prefixes_vex3 (bs : List Byte) : decode env (pre.map prefixByte ++ 0xC4 :: bs) = decodeVex3 env pre bs :=
  decode_prefixes env hpre (by simp) bs

theorem decode_prefixes_vex2 (bs : List Byte) : decode env (pre.map prefixByte ++ 0xC5 :: bs) = decodeVex2 env pre bs :=
  decode_prefixes env hpre (by simp) bs

theorem decode_prefixes_evex (bs : List Byte) : decode env (pre.map prefixByte ++ 0x62 :: bs) = decodeEvex env pre bs :=
  decode_prefixes env hpre (by simp) bs

end

/-! ### The fields of the bytes that the encoder writes (rules R73, R80 to R88) -/

/-- The byte after `C4` that the encoder writes. -/
theorem byteOf_vex3 (r x b : Bool) :
    (byteOf r x b false false false false true).getLsbD 7 = r ∧ (byteOf r x b false false false false true).getLsbD 6 = x ∧
    (byteOf r x b false false false false true).getLsbD 5 = b ∧ (byteOf r x b false false false false true).extractLsb' 0 5 = 1 ∧
    ((byteOf r x b false false false false true).extractLsb' 6 2 = 3 ↔ r = true ∧ x = true) := by
  revert r x b; decide

theorem vexLast_fields (top : Bool) (vvvv : BitVec 4) (l : Bool) :
    (vexLast top vvvv l).getLsbD 7 = top ∧ (vexLast top vvvv l).extractLsb' 3 4 = vvvv ∧ (vexLast top vvvv l).getLsbD 2 = l ∧
    (vexLast top vvvv l).extractLsb' 0 2 = 1 ∧ ((vexLast top vvvv l).extractLsb' 6 2 = 3 ↔ top = true ∧ vvvv.getLsbD 3 = true) := by
  revert top vvvv l; decide

theorem modrmIsReg_iff (modrm : Byte) : modrmIsReg modrm = true ↔ modrm.extractLsb' 6 2 = 3 := beq_iff_eq

theorem modrmIsReg_fieldByte (reg rm : BitVec 3) : modrmIsReg (fieldByte 3 reg rm) = true := (modrmIsReg_iff _).2 (fieldByte_mod 3 reg rm)

/-! ### Register numbers and extension bits (rules R73, R81, R86) -/

theorem regNumber_of_vregOk {ext : Bool} {n : BitVec 5} (h : vregOk (if ext then 16 else 8) n = true) :
    regNumber false (ext && n.getLsbD 3) (low3 n) = n := by
  revert ext n; decide

theorem regNumber_of_vregOk32 {ext : Bool} {n : BitVec 5} (h : vregOk (if ext then 32 else 8) n = true) :
    regNumber (ext && n.getLsbD 4) (ext && n.getLsbD 3) (low3 n) = n := by
  revert ext n; decide

theorem getLsbD_of_vregOk8 {n : BitVec 5} (h : vregOk 8 n = true) : n.getLsbD 3 = false ∧ n.getLsbD 4 = false := by
  revert n; decide

/-- Without extension bits a source needs none. -/
theorem ext_of_srcOk8 {mode : Config.Mode} {asz : AddrSize} {src : RmSource} (h : srcOk mode asz false 8 src = true) :
    src.extX = false ∧ src.extB = false := by
  cases src with
  | reg n => exact (getLsbD_of_vregOk8 h).symm
  | mem m => cases m <;> simp_all [srcOk, memOk, gprOk, RmSource.extX, RmSource.extB, MemRef.extX, MemRef.extB]

/-- So every stored, inverted extension bit is 1. -/
theorem stored_of_limit8 {mode : Config.Mode} {asz : AddrSize} {dst : BitVec 5} {src : RmSource} (hdst : vregOk 8 dst = true)
    (hsrc : srcOk mode asz false 8 src = true) :
    (!dst.getLsbD 3) = true ∧ (!dst.getLsbD 4) = true ∧ (!src.extX) = true ∧ (!src.extB) = true := by
  rw [(getLsbD_of_vregOk8 hdst).1, (getLsbD_of_vregOk8 hdst).2, (ext_of_srcOk8 hsrc).1, (ext_of_srcOk8 hsrc).2]
  exact ⟨rfl, rfl, rfl, rfl⟩

/-! ### Form 1 (rules R70 to R73) -/

/-- The REX byte that the encoder writes, without `W`. -/
def LegacyOps.rexBits (o : LegacyOps) : BitVec 4 :=
  BitVec.ofBool false ++ BitVec.ofBool (o.dst.getLsbD 3) ++ BitVec.ofBool o.src.extX ++ BitVec.ofBool o.src.extB

/-- Every byte before `0F E6`. -/
def LegacyOps.prefixes (o : LegacyOps) : List LegacyPrefix := if o.rex then o.pre ++ [.rex o.rexBits] else o.pre

theorem encodeLegacy_eq (o : LegacyOps) :
    encodeLegacy o = o.prefixes.map prefixByte ++ 0x0F :: 0xE6 :: o.src.bytes (low3 o.dst) := by
  have hrex (r x b : Bool) : byteOf false true false false false r x b =
      prefixByte (.rex (BitVec.ofBool false ++ BitVec.ofBool r ++ BitVec.ofBool x ++ BitVec.ofBool b)) := by
    revert r x b; decide
  cases h : o.rex <;> simp [encodeLegacy, LegacyOps.prefixes, h, hrex, LegacyOps.rexBits]

theorem rexBits_getLsbD (o : LegacyOps) :
    o.rexBits.getLsbD 2 = o.dst.getLsbD 3 ∧ o.rexBits.getLsbD 1 = o.src.extX ∧ o.rexBits.getLsbD 0 = o.src.extB := by
  have h : ∀ r x b : Bool, (BitVec.ofBool false ++ BitVec.ofBool r ++ BitVec.ofBool x ++ BitVec.ofBool b).getLsbD 2 = r ∧
      (BitVec.ofBool false ++ BitVec.ofBool r ++ BitVec.ofBool x ++ BitVec.ofBool b).getLsbD 1 = x ∧
      (BitVec.ofBool false ++ BitVec.ofBool r ++ BitVec.ofBool x ++ BitVec.ofBool b).getLsbD 0 = b := by decide
  exact h _ _ _

/-- Form 1 from its ModRM byte on; `x` and `b` are the bits of the effective REX byte. -/
theorem decodeLegacy_of_modrm {env : DecodeEnv} {prefixes : List LegacyPrefix} {rex : Option (BitVec 4)} {x b : Bool} {modrm : Byte}
    {bs rest : List Byte} {o : LegacyOps} (hsplit : splitRex prefixes = (o.pre, rex)) (h66 : hasPrefix .opSize prefixes = true)
    (hf2 : hasPrefix .repne prefixes = false) (hf3 : hasPrefix .rep prefixes = false) (hrex : rex.isSome = o.rex)
    (hdst : regNumber false ((rex.getD 0).getLsbD 2) (modrmReg modrm) = o.dst) (hx : (rex.getD 0).getLsbD 1 = x) (hb : (rex.getD 0).getLsbD 0 = b)
    (hrm : decodeRm env.mode (addrSizeOf env.mode prefixes) x b modrm bs = some (o.src, rest)) :
    decodeLegacy env prefixes (modrm :: bs) = .instr (.cvttpd2dq o) rest := by
  simp only [decodeLegacy, hsplit, h66, hf2, hf3, hx, hb, hrm, hrex, hdst, Bool.not_true, Bool.or_self, Bool.false_eq_true, if_false]

theorem decode_encodeLegacy {env : DecodeEnv} {o : LegacyOps} (h : legacyOk env.mode o = true) (rest : List Byte) :
    decode env (encodeLegacy o ++ rest) = .instr (.cvttpd2dq o) rest := by
  simp only [legacyOk, Bool.and_eq_true, Bool.not_eq_true'] at h
  obtain ⟨⟨⟨⟨⟨⟨hpre, h66⟩, hf2⟩, hf3⟩, hrex⟩, hdst⟩, hsrc⟩ := h
  obtain ⟨modrm, t, hbytes, hreg, hrm⟩ := decodeRm_bytes env.mode o.pre o.rex _ o.src (low3 o.dst) _ _ rfl (.inl rfl) rfl hsrc rest
  obtain ⟨hr, hx, hb⟩ := rexBits_getLsbD o
  have hn := regNumber_of_vregOk hdst
  rw [encodeLegacy_eq, List.append_assoc, List.cons_append, List.cons_append, hbytes]
  cases hc : o.rex with
  | true =>
    simp only [hc, if_true, Bool.true_and, decide_eq_true_eq] at hrex hn hrm
    simp only [LegacyOps.prefixes, hc, if_true]
    rw [decode_prefixes_legacy env (by simp [prefixesOk, hrex])]
    exact decodeLegacy_of_modrm (splitRex_snoc _ _) (by simp [hasPrefix_append, h66]) (by simp [hasPrefix_append, hf2])
      (by simp [hasPrefix_append, hf3]) hc.symm (by rw [Option.getD_some, hr, hreg, hn]) hx hb (by rwa [addrSizeOf_append_rex])
  | false =>
    simp only [hc, Bool.false_eq_true, if_false, Bool.false_and, Option.isNone_iff_eq_none] at hrex hn hrm
    simp only [LegacyOps.prefixes, hc, Bool.false_eq_true, if_false]
    rw [decode_prefixes_legacy env hpre]
    exact decodeLegacy_of_modrm (Prod.ext (splitRex_of_none _ hrex) hrex) h66 hf2 hf3 hc.symm
      (by rw [Option.getD_none, BitVec.ofNat_eq_ofNat, BitVec.getLsbD_zero, hreg, hn]) rfl rfl hrm

/-! ### Forms 2 and 3 (rules R80 to R83) -/

/-- A VEX form from its opcode byte on. -/
theorem decodeVex_of_modrm {env : DecodeEnv} {threeByte r x b : Bool} {last modrm : Byte} {bs rest : List Byte} {o : VexOps}
    (h3 : threeByte = o.threeByte) (hpp : last.extractLsb' 0 2 = 1) (hvvvv : last.extractLsb' 3 4 = o.vvvv)
    (hdst : regNumber false r (modrmReg modrm) = o.dst)
    (hrm : decodeRm env.mode (addrSizeOf env.mode o.pre) x b modrm bs = some (o.src, rest)) :
    decodeVex env o.pre threeByte r x b last (0xE6 :: modrm :: bs) =
      .instr (if last.getLsbD 2 then .vcvttpd2dqVex256 o else .vcvttpd2dqVex128 o) rest := by
  simp only [decodeVex, h3, hpp, hrm, hvvvv, hdst, ne_eq, not_true_eq_false, or_self, if_false]

theorem decodeVex2_escape {env : DecodeEnv} {pre : List LegacyPrefix} {b1 : Byte} (hesc : env.mode = .long64 ∨ b1.extractLsb' 6 2 = 3)
    (bs : List Byte) :
    decodeVex2 env pre (b1 :: bs) = decodeVex env pre false (env.mode = .long64 && !b1.getLsbD 7) false false b1 bs := by
  rw [decodeVex2, if_neg (by tauto)]

theorem decodeVex3_escape {env : DecodeEnv} {pre : List LegacyPrefix} {b1 b2 : Byte} (hesc : env.mode = .long64 ∨ b1.extractLsb' 6 2 = 3)
    (hmap : b1.extractLsb' 0 5 = 1) (bs : List Byte) :
    decodeVex3 env pre (b1 :: b2 :: bs) = decodeVex env pre true (env.mode = .long64 && !b1.getLsbD 7) (env.mode = .long64 && !b1.getLsbD 6)
      (env.mode = .long64 && !b1.getLsbD 5) b2 bs := by
  rw [decodeVex3, if_neg (by tauto), if_neg (by simp [hmap])]

/-- The VEX form of length bit `l`. -/
theorem decode_encodeVex {env : DecodeEnv} {o : VexOps} (h : vexOk env.mode o = true) (l : Bool) (rest : List Byte) :
    decode env (encodeVex l o ++ rest) = .instr (if l then .vcvttpd2dqVex256 o else .vcvttpd2dqVex128 o) rest := by
  simp only [vexOk, Bool.and_eq_true] at h
  obtain ⟨⟨⟨hpre, hdst⟩, hsrc⟩, hvvvv⟩ := h
  obtain ⟨modrm, t, hbytes, hreg, hrm⟩ := decodeRm_bytes env.mode o.pre (decide (env.mode = .long64) && o.threeByte) _ o.src (low3 o.dst) _ _
    (by simp) (.inl rfl) rfl hsrc rest
  have hn : regNumber false (decide (env.mode = .long64) && o.dst.getLsbD 3) (modrmReg modrm) = o.dst := hreg ▸ regNumber_of_vregOk hdst
  have h8 (hmode : env.mode ≠ .long64) : (!o.dst.getLsbD 3) = true ∧ (!o.src.extX) = true := by
    simp only [hmode, decide_false, Bool.false_and, Bool.false_eq_true, if_false] at hdst hsrc
    obtain ⟨hr, -, hx, -⟩ := stored_of_limit8 hdst hsrc
    exact ⟨hr, hx⟩
  rw [encodeVex, List.append_assoc, List.append_assoc, List.cons_append, hbytes]
  cases hc : o.threeByte with
  | true =>
    obtain ⟨h7, h6, h5, hmap, h76⟩ := byteOf_vex3 (!o.dst.getLsbD 3) (!o.src.extX) (!o.src.extB)
    obtain ⟨-, hv, hl, hpp, -⟩ := vexLast_fields false o.vvvv l
    have hesc := or_iff_not_imp_left.2 fun hmode : env.mode ≠ .long64 => h76.2 (h8 hmode)
    simp only [hc, Bool.and_true] at hrm
    simp only [if_true, List.cons_append, List.nil_append, decode_prefixes_vex3 env hpre, decodeVex3_escape hesc hmap, h7, h6, h5, Bool.not_not]
    rw [decodeVex_of_modrm hc.symm hpp hv hn hrm, hl]
  | false =>
    obtain ⟨h7, hv, hl, hpp, h76⟩ := vexLast_fields (!o.dst.getLsbD 3) o.vvvv l
    have hesc := or_iff_not_imp_left.2 fun hmode : env.mode ≠ .long64 =>
      h76.2 ⟨(h8 hmode).1, by simpa only [hmode, hc, decide_false, Bool.false_or] using hvvvv⟩
    simp only [hc, Bool.and_false, Bool.false_and] at hrm
    simp only [Bool.false_eq_true, if_false, List.cons_append, List.nil_append, decode_prefixes_vex2 env hpre, decodeVex2_escape hesc, h7,
      Bool.not_not]
    rw [decodeVex_of_modrm hc.symm hpp hv hn hrm, hl]

/-! ### Forms 4 to 6 (rules R84 to R88) -/

/-- EVEX bytes with every fixed field as the table has it. -/
theorem decodeEvex_escape {env : DecodeEnv} {pre : List LegacyPrefix} {p0 p1 p2 : Byte} (hesc : env.mode = .long64 ∨ p0.extractLsb' 6 2 = 3)
    (h2 : p0.extractLsb' 2 2 = 0) (hmm : p0.extractLsb' 0 2 = 1) (hone : p1.getLsbD 2 = true) (hpp : p1.extractLsb' 0 2 = 1)
    (hw : p1.getLsbD 7 = true) (hext : evexExtensionRefused env.mode p0 p2 = false) (modrm : Byte) (bs : List Byte) :
    decodeEvex env pre (p0 :: p1 :: p2 :: 0xE6 :: modrm :: bs) = decodeEvexBody env pre p0 p1 p2 modrm bs := by
  rw [decodeEvex, if_neg (by tauto), if_neg (by simp [h2, hone]), if_neg (by simp [hmm, hpp]), if_neg (by simp [hw]), if_neg (by simp [hext])]

/-- The operands that the payload bytes, the ModRM byte and the source give (rules R84 to R88). -/
def evexOps (mode : Config.Mode) (pre : List LegacyPrefix) (p0 p1 p2 modrm : Byte) (src : EvexSource) : EvexOps :=
  { pre, vvvv := p1.extractLsb' 3 4, vHigh := p2.getLsbD 3,
    dst := regNumber (decide (mode = .long64) && !p0.getLsbD 4) (decide (mode = .long64) && !p0.getLsbD 7) (modrmReg modrm),
    aaa := p2.extractLsb' 0 3, zeroing := p2.getLsbD 7, src }

section
variable {env : DecodeEnv} {pre : List LegacyPrefix} {p0 p1 p2 modrm : Byte} {bs : List Byte}

/-- A register source with `b = 0`. -/
theorem decodeEvexBody_plainReg (hmod : modrmIsReg modrm = true) (hb : p2.getLsbD 4 = false) :
    decodeEvexBody env pre p0 p1 p2 modrm bs = evexByLength (p2.extractLsb' 5 2) (evexOps env.mode pre p0 p1 p2 modrm (.plain (.reg
      (regNumber (decide (env.mode = .long64) && !p0.getLsbD 6) (decide (env.mode = .long64) && !p0.getLsbD 5) (modrm.extractLsb' 0 3))))) bs := by
  simp only [decodeEvexBody, hmod, hb, if_true, Bool.false_eq_true, if_false]; rfl

/-- A register source with `b = 1` (rule R87). -/
theorem decodeEvexBody_sae (hmod : modrmIsReg modrm = true) (hb : p2.getLsbD 4 = true) :
    decodeEvexBody env pre p0 p1 p2 modrm bs = if env.sae512 || p2.extractLsb' 5 2 == 2#2 then
      .instr (.vcvttpd2dqEvex512 (evexOps env.mode pre p0 p1 p2 modrm (.sae (regNumber (decide (env.mode = .long64) && !p0.getLsbD 6)
        (decide (env.mode = .long64) && !p0.getLsbD 5) (modrm.extractLsb' 0 3))))) bs
    else .refused .saeLength := by
  simp only [decodeEvexBody, hmod, hb, if_true]; rfl

/-- A memory source that can be read. -/
theorem decodeEvexBody_mem (hmod : modrmIsReg modrm = false) {m : MemRef} {rest : List Byte}
    (hmem : decodeMem env.mode (addrSizeOf env.mode pre) (decide (env.mode = .long64) && !p0.getLsbD 6) (decide (env.mode = .long64) && !p0.getLsbD 5)
      modrm bs = some (m, rest)) :
    decodeEvexBody env pre p0 p1 p2 modrm bs = evexByLength (p2.extractLsb' 5 2)
      (evexOps env.mode pre p0 p1 p2 modrm (if p2.getLsbD 4 then .broadcast m else .plain (.mem m))) rest := by
  simp only [decodeEvexBody, hmod, Bool.false_eq_true, if_false, hmem]; rfl

/-- A memory source that goes on past the bytes. -/
theorem decodeEvexBody_truncated (hmod : modrmIsReg modrm = false)
    (hmem : decodeMem env.mode (addrSizeOf env.mode pre) (decide (env.mode = .long64) && !p0.getLsbD 6) (decide (env.mode = .long64) && !p0.getLsbD 5)
      modrm bs = none) :
    decodeEvexBody env pre p0 p1 p2 modrm bs = .truncated := by
  simp only [decodeEvexBody, hmod, Bool.false_eq_true, if_false, hmem]

end

/-- The first payload byte that the encoder writes (rule R84). -/
def EvexOps.p0 (o : EvexOps) : Byte :=
  byteOf (!o.dst.getLsbD 3) (!o.src.rm.extX) (!o.src.rm.extB) (!o.dst.getLsbD 4) false false false true

/-- The second payload byte that the encoder writes. -/
def EvexOps.p1 (o : EvexOps) : Byte := BitVec.ofBool true ++ o.vvvv ++ 5#3

/-- The third payload byte that the encoder writes. -/
def EvexOps.p2 (o : EvexOps) (ll : BitVec 2) : Byte :=
  BitVec.ofBool o.zeroing ++ ll ++ BitVec.ofBool o.src.bBit ++ BitVec.ofBool o.vHigh ++ o.aaa

theorem encodeEvex_eq (ll : BitVec 2) (o : EvexOps) :
    encodeEvex ll o = o.pre.map prefixByte ++ 0x62 :: o.p0 :: o.p1 :: o.p2 ll :: 0xE6 :: o.src.rm.bytes (low3 o.dst) := by
  simp [encodeEvex, EvexOps.p0, EvexOps.p1, EvexOps.p2]

theorem p0_fields (o : EvexOps) :
    o.p0.getLsbD 7 = !o.dst.getLsbD 3 ∧ o.p0.getLsbD 6 = !o.src.rm.extX ∧ o.p0.getLsbD 5 = !o.src.rm.extB ∧
    o.p0.getLsbD 4 = !o.dst.getLsbD 4 ∧ o.p0.extractLsb' 0 2 = 1 ∧ o.p0.extractLsb' 2 2 = 0 ∧
    (o.p0.extractLsb' 6 2 = 3 ↔ (!o.dst.getLsbD 3) = true ∧ (!o.src.rm.extX) = true) := by
  unfold EvexOps.p0
  generalize (!o.dst.getLsbD 3) = r, (!o.src.rm.extX) = x, (!o.src.rm.extB) = b, (!o.dst.getLsbD 4) = r'
  revert r x b r'; decide

theorem p1_fields (o : EvexOps) :
    o.p1.getLsbD 7 = true ∧ o.p1.extractLsb' 3 4 = o.vvvv ∧ o.p1.getLsbD 2 = true ∧ o.p1.extractLsb' 0 2 = 1 := by
  unfold EvexOps.p1; generalize o.vvvv = v; revert v; decide

theorem p2_fields (o : EvexOps) (ll : BitVec 2) :
    (o.p2 ll).getLsbD 7 = o.zeroing ∧ (o.p2 ll).extractLsb' 5 2 = ll ∧ (o.p2 ll).getLsbD 4 = o.src.bBit ∧ (o.p2 ll).getLsbD 3 = o.vHigh ∧
    (o.p2 ll).extractLsb' 0 3 = o.aaa := by
  unfold EvexOps.p2
  generalize o.zeroing = z, o.src.bBit = b, o.vHigh = v, o.aaa = a
  revert z ll b v a; decide

/-- The operands are read back from the payload bytes. -/
theorem evexOps_payload {mode : Config.Mode} {o : EvexOps} (hdst : vregOk (if decide (mode = .long64) then 32 else 8) o.dst = true) (ll : BitVec 2)
    {modrm : Byte} (hreg : modrmReg modrm = low3 o.dst) : evexOps mode o.pre o.p0 o.p1 (o.p2 ll) modrm o.src = o := by
  obtain ⟨h07, -, -, h04, -⟩ := p0_fields o
  obtain ⟨-, h13, -⟩ := p1_fields o
  obtain ⟨h27, -, -, h23, h20⟩ := p2_fields o ll
  simp only [evexOps, h13, h23, h04, h07, h20, h27, Bool.not_not, hreg, regNumber_of_vregOk32 hdst]

/-- The extension bits `X` and `B` are read back from the payload bytes. -/
theorem p0_extXB (long : Bool) (o : EvexOps) :
    (long && !o.p0.getLsbD 6) = (long && o.src.rm.extX) ∧ (long && !o.p0.getLsbD 5) = (long && o.src.rm.extB) := by
  obtain ⟨-, h06, h05, -⟩ := p0_fields o
  rw [h06, h05, Bool.not_not, Bool.not_not]
  exact ⟨rfl, rfl⟩

/-- A register source's number is read back. -/
theorem regNumber_payload {mode : Config.Mode} {asz : AddrSize} {o : EvexOps} {n : BitVec 5} (hrm : o.src.rm = .reg n)
    (hsrc : srcOk mode asz (decide (mode = .long64)) (if decide (mode = .long64) then 32 else 8) o.src.rm = true) (reg : BitVec 3) :
    regNumber (decide (mode = .long64) && !o.p0.getLsbD 6) (decide (mode = .long64) && !o.p0.getLsbD 5)
      ((fieldByte 3 reg (low3 n)).extractLsb' 0 3) = n := by
  rw [(p0_extXB _ o).1, (p0_extXB _ o).2, hrm, fieldByte_rm]
  rw [hrm] at hsrc
  exact regNumber_of_vregOk32 hsrc

/-- A memory source is read back, behind a ModRM byte that names the destination. -/
theorem decodeMem_payload {mode : Config.Mode} {lim : Nat} {o : EvexOps} {m : MemRef} (hrm : o.src.rm = .mem m)
    (hsrc : srcOk mode (addrSizeOf mode o.pre) (decide (mode = .long64)) lim o.src.rm = true) (reg : BitVec 3) (rest : List Byte) :
    ∃ modrm t, m.bytes reg ++ rest = modrm :: t ∧ modrmIsReg modrm = false ∧ modrmReg modrm = reg ∧
      decodeMem mode (addrSizeOf mode o.pre) (decide (mode = .long64) && !o.p0.getLsbD 6) (decide (mode = .long64) && !o.p0.getLsbD 5) modrm t =
        some (m, rest) := by
  rw [hrm] at hsrc
  obtain ⟨modrm, t, hbytes, hmem⟩ := decodeMem_bytes mode (addrSizeOf mode o.pre) (decide (mode = .long64)) m reg _ _ rfl rfl hsrc
    (addrSizeOf_long64 _ _) rest
  obtain ⟨modrm', t', hbytes', hmod, hreg⟩ := memBytes_head m reg
  rw [hbytes', List.cons_append, List.cons.injEq] at hbytes
  obtain ⟨rfl, ht⟩ := hbytes
  refine ⟨_, _, by rw [hbytes', List.cons_append, ht], hmod, hreg, ?_⟩
  rw [(p0_extXB _ o).1, (p0_extXB _ o).2, hrm]
  exact hmem

/-- The source is read back after the payload bytes; `{sae}` only with form 6's `L'L`. -/
theorem decodeEvexBody_payload {env : DecodeEnv} {o : EvexOps} (hdst : vregOk (if decide (env.mode = .long64) then 32 else 8) o.dst = true)
    (hsrc : srcOk env.mode (addrSizeOf env.mode o.pre) (decide (env.mode = .long64)) (if decide (env.mode = .long64) then 32 else 8) o.src.rm = true)
    {ll : BitVec 2} (hsae : noSae o = true ∨ ll = 2) (rest : List Byte) :
    ∃ modrm t, o.src.rm.bytes (low3 o.dst) ++ rest = modrm :: t ∧
      decodeEvexBody env o.pre o.p0 o.p1 (o.p2 ll) modrm t = evexByLength ll o rest := by
  obtain ⟨-, hll, hb, -⟩ := p2_fields o ll
  have hops {modrm : Byte} := evexOps_payload (modrm := modrm) hdst ll
  have hregs := fieldByte_reg 3 (low3 o.dst)
  cases hs : o.src with
  | plain src =>
    rw [hs] at hb hops
    cases src with
    | reg n =>
      refine ⟨_, _, rfl, ?_⟩
      rw [decodeEvexBody_plainReg (modrmIsReg_fieldByte _ _) hb, hll, regNumber_payload (by rw [hs]; rfl) hsrc, hops (hregs _)]
      rfl
    | mem m =>
      obtain ⟨modrm, t, hbytes, hmod, hreg, hmem⟩ := decodeMem_payload (by rw [hs]; rfl) hsrc (low3 o.dst) rest
      refine ⟨modrm, t, hbytes, ?_⟩
      rw [decodeEvexBody_mem hmod hmem, hll, hb]
      exact congrArg (evexByLength ll · rest) (hops hreg)
  | sae n =>
    have hll2 : ll = 2 := by simpa [noSae, hs] using hsae
    rw [hs] at hb hops
    refine ⟨_, _, rfl, ?_⟩
    rw [decodeEvexBody_sae (modrmIsReg_fieldByte _ _) hb, hll, regNumber_payload (by rw [hs]; rfl) hsrc, hops (hregs _), hll2]
    simp [evexByLength]
  | broadcast m =>
    rw [hs] at hb hops
    obtain ⟨modrm, t, hbytes, hmod, hreg, hmem⟩ := decodeMem_payload (by rw [hs]; rfl) hsrc (low3 o.dst) rest
    refine ⟨modrm, t, hbytes, ?_⟩
    rw [decodeEvexBody_mem hmod hmem, hll, hb]
    exact congrArg (evexByLength ll · rest) (hops hreg)

/-- The EVEX form that `ll` selects. -/
theorem decode_encodeEvex {env : DecodeEnv} {o : EvexOps} (h : evexOk env.mode o = true) {ll : BitVec 2} (hsae : noSae o = true ∨ ll = 2)
    (rest : List Byte) : decode env (encodeEvex ll o ++ rest) = evexByLength ll o rest := by
  simp only [evexOk, Bool.and_eq_true] at h
  obtain ⟨⟨⟨hpre, hdst⟩, hsrc⟩, hv⟩ := h
  obtain ⟨-, -, h05, h04, hmm, h02, h76⟩ := p0_fields o
  obtain ⟨h17, -, h12, hpp⟩ := p1_fields o
  obtain ⟨-, -, -, h23, -⟩ := p2_fields o ll
  have h8 (hmode : env.mode ≠ .long64) :
      (!o.dst.getLsbD 3) = true ∧ (!o.dst.getLsbD 4) = true ∧ (!o.src.rm.extX) = true ∧ (!o.src.rm.extB) = true := by
    simp only [hmode, decide_false, Bool.false_eq_true, if_false] at hdst hsrc
    exact stored_of_limit8 hdst hsrc
  have hesc := or_iff_not_imp_left.2 fun hmode : env.mode ≠ .long64 => by
    obtain ⟨hr, -, hx, -⟩ := h8 hmode
    exact h76.2 ⟨hr, hx⟩
  have hext : evexExtensionRefused env.mode o.p0 (o.p2 ll) = false := by
    rw [evexExtensionRefused, h04, h05, h23]
    by_cases hmode : env.mode = .long64
    · simp [hmode]
    · obtain ⟨-, hr', -, hb⟩ := h8 hmode
      rw [hr', hb, Bool.true_and, Bool.true_and]
      revert hv; cases o.vHigh <;> simp
  obtain ⟨modrm, t, hbytes, hbody⟩ := decodeEvexBody_payload hdst hsrc hsae rest
  simp only [encodeEvex_eq, List.append_assoc, List.cons_append, hbytes, decode_prefixes_evex env hpre]
  rw [decodeEvex_escape hesc h02 hmm h12 hpp h17 hext, hbody]

/-- Settles O1: each form is read back part by part: the bytes before its escape, the escape's fields, the source. -/
theorem decodeInvertsEncode : Obligations.DecodeInvertsEncode := by
  intro env i rest h
  cases i with
  | cvttpd2dq o => exact decode_encodeLegacy h rest
  | vcvttpd2dqVex128 o => exact decode_encodeVex h false rest
  | vcvttpd2dqVex256 o => exact decode_encodeVex h true rest
  | vcvttpd2dqEvex128 o =>
    obtain ⟨hok, hsae⟩ := Bool.and_eq_true_iff.1 h
    exact decode_encodeEvex hok (.inl hsae) rest
  | vcvttpd2dqEvex256 o =>
    obtain ⟨hok, hsae⟩ := Bool.and_eq_true_iff.1 h
    exact decode_encodeEvex hok (.inl hsae) rest
  | vcvttpd2dqEvex512 o => exact decode_encodeEvex h (.inr rfl) rest

/-! ### What the decoder answers is well-formed and takes its own length (rules R70, R91) -/

/-- The decoder's answer on `bs` after `n` bytes: an instruction is well-formed, and those bytes and the ones it takes off `bs` are its length. -/
def TakesLength (mode : Config.Mode) (n : Nat) (bs : List Byte) : Decoded → Prop
  | .instr i rest => wellFormed mode i = true ∧ ∃ head, bs = head ++ rest ∧ n + head.length = i.length
  | .undefinedOpcode | .refused _ | .truncated => True

theorem TakesLength.append {mode : Config.Mode} {n : Nat} {bs : List Byte} {d : Decoded} (hd : List Byte)
    (h : TakesLength mode (n + hd.length) bs d) : TakesLength mode n (hd ++ bs) d := by
  cases d with
  | instr i rest =>
    obtain ⟨hwf, head, rfl, hlen⟩ := h
    exact ⟨hwf, hd ++ head, by rw [List.append_assoc], by rw [List.length_append, ← Nat.add_assoc, hlen]⟩
  | undefinedOpcode | refused | truncated => trivial

theorem vregOk_regNumber {ext mid : Bool} (h : mid = true → ext = true) (low : BitVec 3) :
    vregOk (if ext then 16 else 8) (regNumber false mid low) = true := by
  revert ext mid low; decide

theorem vregOk_regNumber32 (ext hi mid : Bool) (low : BitVec 3) :
    vregOk (if ext then 32 else 8) (regNumber (ext && hi) (ext && mid) low) = true := by
  revert ext hi mid low; decide

theorem rexBit_isSome {rex : Option (BitVec 4)} {k : Nat} (h : (rex.getD 0).getLsbD k = true) : rex.isSome = true := by
  cases rex with
  | none => simp at h
  | some w => rfl

/-- The effective REX byte is the last byte before the opcode, or there is none. -/
theorem splitRex_cases (prefixes : List LegacyPrefix) :
    splitRex prefixes = (prefixes, none) ∨ ∃ pre w, prefixes = pre ++ [.rex w] ∧ splitRex prefixes = (pre, some w) := by
  cases h : (splitRex prefixes).2 with
  | none => exact .inl (Prod.ext (splitRex_of_none prefixes h) h)
  | some w => exact .inr ⟨_, w, splitRex_of_some h, Prod.ext rfl h⟩

theorem long64_of_rex {mode : Config.Mode} {pre : List LegacyPrefix} {w : BitVec 4} (h : prefixesOk mode (pre ++ [.rex w]) = true) :
    mode = .long64 := by
  have hrex : hasRex (pre ++ [.rex w]) = true := hasRex_iff.2 ⟨w, by simp⟩
  simpa [prefixesOk, hrex] using h

theorem decodeLegacy_takesLength (env : DecodeEnv) {prefixes : List LegacyPrefix} (hpre : prefixesOk env.mode prefixes = true) (bs : List Byte) :
    TakesLength env.mode (prefixes.length + 2) bs (decodeLegacy env prefixes bs) := by
  unfold decodeLegacy
  split
  · trivial
  next modrm bs =>
  dsimp only
  split_ifs with hmandatory
  · trivial
  split
  · trivial
  next src rest hrm =>
  obtain ⟨⟨head, hbytes, hlen⟩, hsrc⟩ := decodeRm_split _ rfl rexBit_isSome rexBit_isSome hrm
  have hdst := vregOk_regNumber (rexBit_isSome (rex := (splitRex prefixes).2) (k := 2)) (modrmReg modrm)
  simp only [Bool.not_eq_true, Bool.or_eq_false_iff, Bool.not_eq_false'] at hmandatory
  obtain ⟨⟨hf2, hf3⟩, h66⟩ := hmandatory
  obtain hsplit | ⟨pre, w, rfl, hsplit⟩ := splitRex_cases prefixes <;> rw [hsplit] at hsrc hdst ⊢
  · refine ⟨?_, head, hbytes, ?_⟩
    · dsimp only at hdst hsrc
      simp only [wellFormed, legacyOk, hpre, h66, hf2, hf3, hsplit, hdst, hsrc]
      rfl
    · simp only [Instr.length, LegacyOps.length, hlen, Option.isSome_none, Bool.false_eq_true, if_false, Nat.add_zero]
  · have hlong := long64_of_rex hpre
    rw [hasPrefix_append, Bool.or_eq_true] at h66
    rw [hasPrefix_append, Bool.or_eq_false_iff] at hf2 hf3
    rw [addrSizeOf_append_rex] at hsrc
    refine ⟨?_, head, hbytes, ?_⟩
    · dsimp only at hdst hsrc
      simp only [wellFormed, legacyOk, prefixesOk_left hpre, h66.resolve_right (by simp), hf2.1, hf3.1, hdst, hsrc, decide_eq_true hlong]
      rfl
    · simp only [Instr.length, LegacyOps.length, hlen, Option.isSome_some, if_true, List.length_append, List.length_singleton]

theorem decodeVex_takesLength (env : DecodeEnv) {pre : List LegacyPrefix} (hpre : prefixesOk env.mode pre = true) {threeByte r x b : Bool}
    {last : Byte} (hr : r = true → decide (env.mode = .long64) = true) (hx : x = true → (decide (env.mode = .long64) && threeByte) = true)
    (hb : b = true → (decide (env.mode = .long64) && threeByte) = true)
    (hvvvv : (decide (env.mode = .long64) || threeByte || (last.extractLsb' 3 4).getLsbD 3) = true) {n : Nat}
    (hn : n + 1 = pre.length + if threeByte then 4 else 3) (bs : List Byte) :
    TakesLength env.mode n bs (decodeVex env pre threeByte r x b last bs) := by
  unfold decodeVex
  split
  · trivial
  · split_ifs <;> trivial
  next op modrm bs =>
  split
  · trivial
  split
  · trivial
  next src rest hrm =>
  obtain ⟨⟨head, hbytes, hlen⟩, hsrc⟩ := decodeRm_split _ rfl hx hb hrm
  have hdst := vregOk_regNumber hr (modrmReg modrm)
  have hok : vexOk env.mode { pre, threeByte, vvvv := last.extractLsb' 3 4, dst := regNumber false r (modrmReg modrm), src } = true := by
    simp only [vexOk, hpre, hdst, hsrc, hvvvv, Bool.and_self]
  have htake : n + 1 + head.length = (pre.length + if threeByte then 4 else 3) + src.length := by rw [hn, hlen]
  dsimp only
  refine .append [op] ?_
  split <;> exact ⟨hok, head, hbytes, htake⟩

theorem decodeVex2_takesLength (env : DecodeEnv) {pre : List LegacyPrefix} (hpre : prefixesOk env.mode pre = true) (bs : List Byte) :
    TakesLength env.mode (pre.length + 1) bs (decodeVex2 env pre bs) := by
  unfold decodeVex2
  split
  · trivial
  next b1 bs =>
  split_ifs with hesc
  · trivial
  have htop : ∀ b : Byte, b.extractLsb' 6 2 = 3 → (b.extractLsb' 3 4).getLsbD 3 = true := by decide
  refine .append [b1] (decodeVex_takesLength env hpre (threeByte := false) (x := false) (b := false)
    (fun h => (Bool.and_eq_true_iff.1 h).1) nofun nofun ?_ rfl bs)
  by_cases hmode : env.mode = .long64
  · simp [hmode]
  · rw [htop b1 (by tauto), Bool.or_true]

theorem decodeVex3_takesLength (env : DecodeEnv) {pre : List LegacyPrefix} (hpre : prefixesOk env.mode pre = true) (bs : List Byte) :
    TakesLength env.mode (pre.length + 1) bs (decodeVex3 env pre bs) := by
  unfold decodeVex3
  split
  · trivial
  · split_ifs <;> trivial
  next b1 b2 bs =>
  split_ifs
  · trivial
  · trivial
  exact .append [b1, b2] (decodeVex_takesLength env hpre (fun h => (Bool.and_eq_true_iff.1 h).1)
    (fun h => by rw [(Bool.and_eq_true_iff.1 h).1]; rfl) (fun h => by rw [(Bool.and_eq_true_iff.1 h).1]; rfl) (by simp) rfl bs)

theorem evexByLength_takesLength {mode : Config.Mode} {ll : BitVec 2} {o : EvexOps} {head rest : List Byte} {n : Nat} (hok : evexOk mode o = true)
    (hsae : noSae o = true) (hlen : n + head.length = o.length) : TakesLength mode n (head ++ rest) (evexByLength ll o rest) := by
  unfold evexByLength
  have hwf := Bool.and_eq_true_iff.2 ⟨hok, hsae⟩
  split_ifs
  · exact ⟨hwf, head, rfl, hlen⟩
  · exact ⟨hwf, head, rfl, hlen⟩
  · exact ⟨hok, head, rfl, hlen⟩
  · trivial

theorem decodeEvexBody_takesLength (env : DecodeEnv) {pre : List LegacyPrefix} (hpre : prefixesOk env.mode pre = true) {p0 p2 : Byte} (p1 : Byte)
    (hext : evexExtensionRefused env.mode p0 p2 = false) (modrm : Byte) (bs : List Byte) :
    TakesLength env.mode (pre.length + 5) (modrm :: bs) (decodeEvexBody env pre p0 p1 p2 modrm bs) := by
  have hok {src : EvexSource} (hsrc : srcOk env.mode (addrSizeOf env.mode pre) (decide (env.mode = .long64))
      (if decide (env.mode = .long64) then 32 else 8) src.rm = true) : evexOk env.mode (evexOps env.mode pre p0 p1 p2 modrm src) = true := by
    have hv : (p2.getLsbD 3 || !(decide (env.mode = .prot32) || decide (env.mode = .prot16))) = true := by
      revert hext; unfold evexExtensionRefused; cases p2.getLsbD 3 <;> simp
    simp only [evexOk, evexOps, hpre, vregOk_regNumber32, hsrc, hv, Bool.and_self]
  have hlen (src : EvexSource) (head : List Byte) (h : head.length = src.rm.length) :
      pre.length + 5 + head.length = (evexOps env.mode pre p0 p1 p2 modrm src).length := by rw [EvexOps.length, h]; rfl
  cases hmod : modrmIsReg modrm with
  | true =>
    cases hb : p2.getLsbD 4 with
    | false =>
      rw [decodeEvexBody_plainReg hmod hb]
      exact evexByLength_takesLength (head := [modrm]) (hok (vregOk_regNumber32 ..)) rfl (hlen _ _ rfl)
    | true =>
      rw [decodeEvexBody_sae hmod hb]
      split
      · exact ⟨hok (vregOk_regNumber32 ..), [modrm], rfl, hlen _ _ rfl⟩
      · trivial
  | false =>
    cases hmem : decodeMem env.mode (addrSizeOf env.mode pre) (decide (env.mode = .long64) && !p0.getLsbD 6)
        (decide (env.mode = .long64) && !p0.getLsbD 5) modrm bs with
    | none => rw [decodeEvexBody_truncated hmod hmem]; trivial
    | some r =>
      obtain ⟨m, rest⟩ := r
      obtain ⟨⟨head, rfl, hmlen⟩, hm⟩ := decodeMem_split (fun h => (Bool.and_eq_true_iff.1 h).1) (fun h => (Bool.and_eq_true_iff.1 h).1) hmem
      have hhead : (modrm :: head).length = 1 + m.length := by rw [List.length_cons, hmlen, Nat.add_comm]
      rw [decodeEvexBody_mem hmod hmem]
      split
      · exact evexByLength_takesLength (head := modrm :: head) (hok hm) rfl (hlen _ _ hhead)
      · exact evexByLength_takesLength (head := modrm :: head) (hok hm) rfl (hlen _ _ hhead)

theorem decodeEvex_takesLength (env : DecodeEnv) {pre : List LegacyPrefix} (hpre : prefixesOk env.mode pre = true) (bs : List Byte) :
    TakesLength env.mode (pre.length + 1) bs (decodeEvex env pre bs) := by
  unfold decodeEvex
  split
  · next p0 p1 p2 op modrm bs =>
    split_ifs with _ _ _ _ hext
    · trivial
    · trivial
    · trivial
    · trivial
    · trivial
    · exact .append [p0, p1, p2, op] (decodeEvexBody_takesLength env hpre p1 (Bool.not_eq_true _ ▸ hext) modrm bs)
  · split_ifs <;> trivial
  · trivial

theorem decodeAfterPrefixes_takesLength (env : DecodeEnv) {pre : List LegacyPrefix} (hpre : prefixesOk env.mode pre = true) (bs : List Byte) :
    TakesLength env.mode pre.length bs (decodeAfterPrefixes env pre bs) := by
  unfold decodeAfterPrefixes
  split
  · trivial
  next b bs =>
  split_ifs
  · exact .append [b] (decodeVex2_takesLength env hpre bs)
  · exact .append [b] (decodeVex3_takesLength env hpre bs)
  · exact .append [b] (decodeEvex_takesLength env hpre bs)
  · split
    · trivial
    next op bs =>
    split_ifs
    · exact .append [b, op] (decodeLegacy_takesLength env hpre bs)
    · trivial
  · trivial

/-- Settles O2: each part of the decoder reads a well-formed part and takes its length. -/
theorem decodedIsWellFormed : Obligations.DecodedIsWellFormed := by
  intro env bs rest i h
  obtain ⟨hd, hbs, hlen, hpre⟩ := splitPrefixes_split env.mode bs
  have htake : TakesLength env.mode 0 (hd ++ (splitPrefixes env.mode bs).2) (decode env bs) :=
    .append hd (by rw [Nat.zero_add, hlen]; exact decodeAfterPrefixes_takesLength env hpre _)
  rw [← hbs, h] at htake
  obtain ⟨hwf, head, hhead, hn⟩ := htake
  exact ⟨hwf, head, hhead, by rw [← hn, Nat.zero_add]⟩

/-! ### Form 1's bytes (rule R71) -/

/-- What form 1's part of the decoder gives is form 1, with `pre` and `rex` as `splitRex` has them. -/
theorem decodeLegacy_eq_instr {env : DecodeEnv} {prefixes : List LegacyPrefix} {bs rest : List Byte} {i : Instr}
    (h : decodeLegacy env prefixes bs = .instr i rest) :
    ∃ o, i = .cvttpd2dq o ∧ o.pre = (splitRex prefixes).1 ∧ o.rex = (splitRex prefixes).2.isSome := by
  unfold decodeLegacy at h
  split at h
  · cases h
  dsimp only at h
  split_ifs at h
  split at h
  · cases h
  · cases h
    exact ⟨_, rfl, rfl, rfl⟩

/-- A source's bytes begin with a ModRM byte that says which kind of source it is. -/
theorem rmBytes_head (src : RmSource) (reg : BitVec 3) :
    ∃ modrm tail, src.bytes reg = modrm :: tail ∧ (modrmIsReg modrm = true ↔ ∃ n, src = .reg n) := by
  cases src with
  | reg n => exact ⟨_, _, rfl, iff_of_true (modrmIsReg_fieldByte _ _) ⟨n, rfl⟩⟩
  | mem m =>
    obtain ⟨modrm, tail, hbytes, hmod, -⟩ := memBytes_head m reg
    exact ⟨modrm, tail, hbytes, by simp [hmod]⟩

theorem prefixesOk_opSize (mode : Config.Mode) : prefixesOk mode [.opSize] = true := by simp [prefixesOk, hasRex]

/-- Settles O3: the decoder splits off `66` alone, and the encoder writes the bytes in the order of `encodeLegacy_eq`. -/
theorem legacyByteLayout : Obligations.LegacyByteLayout := by
  refine ⟨fun env bs rest i h => ?_, fun dst src => ?_⟩
  · exact decodeLegacy_eq_instr ((decode_prefixes_legacy env (prefixesOk_opSize env.mode) bs).symm.trans h)
  · obtain ⟨modrm, tail, hbytes, hmod⟩ := rmBytes_head src (low3 dst)
    have hlen := Laws.Encoding.rm_length src (low3 dst)
    have hrex : ∀ w : BitVec 4, (prefixByte (.rex w)).extractLsb' 4 4 = 4 := by decide
    refine ⟨modrm, tail, hmod, by rw [← hlen, hbytes, List.length_cons], ?_, _, hrex (LegacyOps.rexBits ⟨[.opSize], true, dst, src⟩), ?_⟩
    · simp [encode, encodeLegacy_eq, LegacyOps.prefixes, prefixByte, hbytes]
    · simp [encode, encodeLegacy_eq, LegacyOps.prefixes, prefixByte, hbytes]

/-! ### Bits that the decoder ignores (rules R73, R82) -/

/-- Of the byte with `vvvv`, `L` and `pp` the decoder reads those three fields. -/
theorem decodeVex_congr_last {last last' : Byte} (hpp : last'.extractLsb' 0 2 = last.extractLsb' 0 2)
    (hvvvv : last'.extractLsb' 3 4 = last.extractLsb' 3 4) (hl : last'.getLsbD 2 = last.getLsbD 2) (env : DecodeEnv) (pre : List LegacyPrefix)
    (threeByte r x b : Bool) (bs : List Byte) :
    decodeVex env pre threeByte r x b last' bs = decodeVex env pre threeByte r x b last bs := by
  unfold decodeVex
  rw [hpp, hvvvv, hl]

/-- Of the effective REX byte the decoder reads `R`, `X` and `B`. -/
theorem decodeLegacy_congr_rex {w w' : BitVec 4} (h : ∀ k < 3, w'.getLsbD k = w.getLsbD k) (env : DecodeEnv) (pre : List LegacyPrefix)
    (bs : List Byte) : decodeLegacy env (pre ++ [.rex w']) bs = decodeLegacy env (pre ++ [.rex w]) bs := by
  unfold decodeLegacy
  simp only [splitRex_snoc, hasPrefix_append, addrSizeOf_append_rex, Option.getD_some, Option.isSome_some, h 0 (by decide), h 1 (by decide),
    h 2 (by decide), reduceCtorEq, decide_false]

/-- Settles O5: `W` is in none of the fields that the decoder reads. -/
theorem wBitsAreIgnored : Obligations.WBitsAreIgnored := by
  refine ⟨fun env b1 b2 rest => ?_, fun sae512 wrxb rest => ?_⟩
  · have hw : ∀ b : Byte, b.extractLsb' 0 2 = (b ^^^ 0x80).extractLsb' 0 2 ∧ b.extractLsb' 3 4 = (b ^^^ 0x80).extractLsb' 3 4 ∧
        b.getLsbD 2 = (b ^^^ 0x80).getLsbD 2 := by decide
    obtain ⟨hpp, hvvvv, hl⟩ := hw b2
    have hvex (bs : List Byte) := decode_prefixes_vex3 env (pre := []) (by simp [prefixesOk, hasRex]) bs
    simp only [List.map_nil, List.nil_append] at hvex
    simp only [hvex, decodeVex3, decodeVex_congr_last hpp hvvvv hl]
  · have hw : ∀ w : BitVec 4, ∀ k < 3, w.getLsbD k = (w ^^^ 8).getLsbD k := by decide
    have hlegacy (w : BitVec 4) := decode_prefixes_legacy { mode := .long64, sae512 } (pre := [.opSize, .rex w]) rfl rest
    exact (hlegacy wrxb).trans ((decodeLegacy_congr_rex (hw wrxb) _ [.opSize] rest).trans (hlegacy _).symm)

/-! ### EVEX: `b` with a register source, and `L'L = 11` (rules R85, R87, R90) -/

theorem decode_evex (env : DecodeEnv) (bs : List Byte) : decode env (0x62 :: bs) = decodeEvex env [] bs :=
  decode_prefixes_evex env (pre := []) (by simp [prefixesOk, hasRex]) bs

/-- 64-bit mode, with the fixed bytes of the table's row: what follows them decides. -/
theorem decode_evex_long64 {sae512 : Bool} {p0 : Byte} (h0 : p0.extractLsb' 0 4 = 1) (p2 modrm : Byte) (bs : List Byte) :
    decode { mode := .long64, sae512 } (0x62 :: p0 :: 0xFD :: p2 :: 0xE6 :: modrm :: bs) =
      decodeEvexBody { mode := .long64, sae512 } [] p0 0xFD p2 modrm bs := by
  have hlow : ∀ b : Byte, b.extractLsb' 0 4 = 1 → b.extractLsb' 2 2 = 0 ∧ b.extractLsb' 0 2 = 1 := by decide
  obtain ⟨hreserved, hmm⟩ := hlow p0 h0
  rw [decode_evex, decodeEvex_escape (.inl rfl) hreserved hmm rfl rfl rfl rfl]

/-- Settles O6: the register's number and the refusal are what `decodeEvexBody` makes of `b = 1` with a register. -/
theorem saeIgnoresLengthBits : Obligations.SaeIgnoresLengthBits := by
  intro sae512 p0 p2 modrm rest h0 hmod hb
  dsimp only
  rw [decode_evex_long64 h0, decodeEvexBody_sae ((modrmIsReg_iff modrm).2 hmod) hb]
  refine ⟨fun hsae => ?_, fun hsae hll => ?_⟩
  · rw [if_pos (by simpa using hsae)]
    refine ⟨_, _, rfl, rfl, ?_⟩
    rw [regNumber_toNat]
    cases p0.getLsbD 6 <;> cases p0.getLsbD 5 <;> rfl
  · rw [if_neg (by simp [hsae]; exact hll)]

/-- With `L'L = 11`, but for a register source with `b = 1`: an undefined opcode, unless the source goes on past the bytes. -/
theorem decodeEvexBody_reserved {env : DecodeEnv} {pre : List LegacyPrefix} {p0 p1 p2 modrm : Byte} {bs : List Byte}
    (hll : p2.extractLsb' 5 2 = 3) (hnot : ¬(modrm.extractLsb' 6 2 = 3 ∧ p2.getLsbD 4 = true)) :
    decodeEvexBody env pre p0 p1 p2 modrm bs = .undefinedOpcode ∨ ∀ p2', decodeEvexBody env pre p0 p1 p2' modrm bs = .truncated := by
  have hreserved (o : EvexOps) (rest : List Byte) : evexByLength (p2.extractLsb' 5 2) o rest = .undefinedOpcode := by rw [hll]; rfl
  cases hmod : modrmIsReg modrm with
  | true =>
    have hb : p2.getLsbD 4 = false := by simpa using fun hb => hnot ⟨(modrmIsReg_iff modrm).1 hmod, hb⟩
    exact .inl (by rw [decodeEvexBody_plainReg hmod hb, hreserved])
  | false =>
    cases hmem : decodeMem env.mode (addrSizeOf env.mode pre) (decide (env.mode = .long64) && !p0.getLsbD 6)
        (decide (env.mode = .long64) && !p0.getLsbD 5) modrm bs with
    | none => exact .inr fun p2' => decodeEvexBody_truncated hmod hmem
    | some r => exact .inl (by rw [decodeEvexBody_mem hmod hmem, hreserved])

/-- Where EVEX bytes are an instruction, other bits of the third payload byte than bit 3 do not change what the checks before it let through. -/
theorem decodeEvex_of_instr {env : DecodeEnv} {pre : List LegacyPrefix} {p0 p1 p2 p2' op modrm : Byte} {bs rest : List Byte} {i : Instr}
    (h : decodeEvex env pre (p0 :: p1 :: p2 :: op :: modrm :: bs) = .instr i rest) (h3 : p2'.getLsbD 3 = p2.getLsbD 3) :
    decodeEvex env pre (p0 :: p1 :: p2' :: op :: modrm :: bs) = decodeEvexBody env pre p0 p1 p2' modrm bs := by
  have hext : evexExtensionRefused env.mode p0 p2' = evexExtensionRefused env.mode p0 p2 := by rw [evexExtensionRefused, h3]; rfl
  rw [decodeEvex] at h ⊢
  split_ifs at h with h1 h2 h3 h4 h5
  rw [if_neg h1, if_neg h2, if_neg h3, if_neg h4, hext, if_neg h5]

/-- Settles O7: `evexByLength` has no form for 11, and nothing before it reads `L'L`. -/
theorem reservedLengthRaisesUd : Obligations.ReservedLengthRaisesUd := by
  refine ⟨fun env bs rest p0 p1 p2 modrm i hll hnot h => ?_, fun sae512 p0 p2 modrm bs h0 hll hb hmod => ?_,
    fun env pre p0 p1 p2 modrm bs rest i hpre hnot h => ?_, fun s h => ?_⟩
  · rw [decode_evex] at h
    have hbody := decodeEvex_of_instr h rfl
    rw [h] at hbody
    obtain hud | htrunc := decodeEvexBody_reserved (env := env) (pre := []) (p0 := p0) (p1 := p1) (bs := bs) hll hnot
    · rw [hud] at hbody; cases hbody
    · rw [htrunc] at hbody; cases hbody
  · rw [decode_evex_long64 h0, decodeEvexBody_plainReg ((modrmIsReg_iff modrm).2 hmod) hb, hll]
    rfl
  · have hbits : ∀ b : Byte, (b ||| 0x60).extractLsb' 5 2 = 3 ∧ (b ||| 0x60).getLsbD 4 = b.getLsbD 4 ∧
        (b ||| 0x60).getLsbD 3 = b.getLsbD 3 := by decide
    obtain ⟨hll, hb, h3⟩ := hbits p2
    rw [decode_prefixes_evex env hpre] at h ⊢
    rw [decodeEvex_of_instr h h3]
    rw [← hb] at hnot
    refine (decodeEvexBody_reserved hll hnot).resolve_right fun htrunc => ?_
    have hbody := decodeEvex_of_instr h rfl
    rw [h, htrunc] at hbody
    cases hbody
  · rw [Machine.step, h]
    rfl

/-- Settles O4: the decoder evaluated on the eight words. -/
theorem writtenWordsDecode : Obligations.WrittenWordsDecode := ⟨rfl, rfl, rfl, rfl, rfl, rfl, rfl, rfl⟩

end Sys2Proof

namespace Sys2Proof.Machine

/-! ### An instruction that goes on past fifteen bytes (rules R91, R176) -/

/-- Past as many bytes as may be fetched, all of them readable, lies `#GP(0)`. -/
theorem fetchFrom_readable {s : State} (n : Nat) : ∀ i, (∀ j < n, ∃ b, fetchByte s (i + j) = .ok b) →
    (fetchFrom s i n).2 = takeException .generalProtection s := by
  induction n with
  | zero => exact fun _ _ => rfl
  | succ n ih =>
    intro i hok
    obtain ⟨b, hb⟩ := hok 0 (Nat.succ_pos n)
    rw [Nat.add_zero] at hb
    rw [fetchFrom, hb]
    exact ih (i + 1) fun j hj => by rw [Nat.add_right_comm]; exact hok (j + 1) (Nat.succ_lt_succ hj)

/-- Settles O10: the step goes on to what lies past the fetched bytes. -/
theorem overlongFetchRaisesGp : Obligations.OverlongFetchRaisesGp := by
  intro s hok htrunc
  rw [step, htrunc]
  exact fetchFrom_readable maxInstrLength 0 fun j hj => by rw [Nat.zero_add]; exact hok j hj

/-! ### The `#UD` conditions, each alone (rules R72, R83, R90, R173, R174) -/

theorem realOrV86_iff {s : State} : s.realOrV86 = true ↔ s.mode = .real ∨ s.mode = .v86 := by simp [State.realOrV86]

theorem badEscapePrefix_iff {pre : List LegacyPrefix} : badEscapePrefix pre = true ↔
    .opSize ∈ pre ∨ .repne ∈ pre ∨ .rep ∈ pre ∨ .lock ∈ pre ∨ ∃ wrxb, .rex wrxb ∈ pre := by
  simp only [badEscapePrefix, Bool.or_eq_true, hasPrefix_iff, hasRex_iff, or_assoc]

theorem legacyUd_iff {s : State} {o : LegacyOps} : s.legacyUd o = true ↔
    s.cr0EM = true ∨ s.cr4OSFXSR = false ∨ .lock ∈ o.pre ∨ s.impl.feat.sse2 = false := by
  simp only [State.legacyUd, Bool.or_eq_true, Bool.not_eq_true', hasPrefix_iff, or_assoc]

theorem vexUd_iff {s : State} {o : VexOps} : s.vexUd o = true ↔
    (s.mode = .real ∨ s.mode = .v86) ∨ s.cr4OSXSAVE = false ∨ s.xcr0Avx = false ∨ badEscapePrefix o.pre = true ∨ s.impl.feat.avx = false ∨
      o.vvvv ≠ 15 := by
  simp only [State.vexUd, Bool.or_eq_true, Bool.not_eq_true', realOrV86_iff, bne_iff_ne, BitVec.ofNat_eq_ofNat, or_assoc]

theorem evexUd_iff {s : State} {feat : Bool} {o : EvexOps} : s.evexUd feat o = true ↔
    (s.mode = .real ∨ s.mode = .v86) ∨ s.cr4OSXSAVE = false ∨ s.xcr0Avx = false ∨ s.xcr0Avx512 = false ∨ badEscapePrefix o.pre = true ∨
      feat = false ∨ o.vvvv ≠ 15 ∨ o.vHigh = false ∨ (o.zeroing = true ∧ o.aaa = 0) := by
  simp only [State.evexUd, Bool.or_eq_true, Bool.and_eq_true, Bool.not_eq_true', realOrV86_iff, bne_iff_ne, beq_iff_eq, BitVec.ofNat_eq_ofNat,
    or_assoc]

/-- Settles O13: the disjuncts are those of `legacyUd`. -/
theorem legacyUndefinedConditions : Obligations.LegacyUndefinedConditions := fun _ _ hlen h =>
  exec_undefined hlen (legacyUd_iff.2 h)

/-- Settles O14: the disjuncts are among those of `vexUd`. -/
theorem vexUndefinedConditions : Obligations.VexUndefinedConditions := by
  intro o s hlen h
  have hud : s.vexUd o = true := by rw [vexUd_iff, badEscapePrefix_iff]; tauto
  exact ⟨exec_undefined hlen hud, exec_undefined hlen hud⟩

/-- Settles O15: the disjuncts are among those of `evexUd`, and a CPUID expression without its flags is false. -/
theorem evexUndefinedConditions : Obligations.EvexUndefinedConditions := by
  intro o s hlen
  refine ⟨fun h => ?_, fun hfeat h10 => ?_, fun hfeat h10 => ?_⟩
  · have hud (feat : Bool) : s.evexUd feat o = true := by rw [evexUd_iff, badEscapePrefix_iff]; tauto
    exact ⟨exec_undefined hlen (hud _), exec_undefined hlen (hud _), exec_undefined hlen (hud _)⟩
  · have hvl : evexFeatVl s.impl.feat = false := by rcases hfeat with h | h <;> simp [evexFeatVl, h, h10]
    have hud : s.evexUd (evexFeatVl s.impl.feat) o = true := by rw [evexUd_iff]; tauto
    exact ⟨exec_undefined hlen hud, exec_undefined hlen hud⟩
  · have h512 : evexFeat512 s.impl.feat = false := by simp [evexFeat512, hfeat, h10]
    exact exec_undefined hlen (evexUd_iff.2 (by tauto))

/-! ### Effective addresses (rules R75 to R79, R89) -/

/-- A displacement as the integer it stands for, a `d8` scaled. -/
def Disp.int (n : Nat) : Disp → Int
  | .none => 0
  | .d8 v => v.toInt * n
  | .d16 v => v.toInt
  | .d32 v => v.toInt

theorem value_eq_ofInt (n : Nat) (d : Disp) : Disp.value n d = BitVec.ofInt 64 (Disp.int n d) := by
  cases d with
  | none => rfl
  | d8 v => rw [Disp.int, BitVec.ofInt_mul, BitVec.ofInt_natCast]; rfl
  | d16 v => rfl
  | d32 v => rfl

theorem index_four (s : State) (scale : BitVec 2) : s.index scale 4 = 0 := if_pos rfl

theorem index_of_ne {s : State} {i : BitVec 4} (hi : i ≠ 4) (scale : BitVec 2) :
    s.index scale i = s.reg i * BitVec.ofNat 64 (2 ^ scale.toNat) := by
  have htwo : BitVec.twoPow 64 scale.toNat = BitVec.ofNat 64 (2 ^ scale.toNat) :=
    BitVec.eq_of_toNat_eq (by rw [BitVec.toNat_twoPow, BitVec.toNat_ofNat])
  rw [State.index, if_neg hi, BitVec.shiftLeft_eq_mul_twoPow, htwo]

/-- The scaled index as an integer. -/
def State.indexInt (s : State) (scale : BitVec 2) (i : BitVec 4) : Int := if i = 4 then 0 else (s.reg i).toNat * 2 ^ scale.toNat

theorem index_eq_ofInt (s : State) (scale : BitVec 2) (i : BitVec 4) : s.index scale i = BitVec.ofInt 64 (s.indexInt scale i) := by
  unfold State.indexInt
  split
  · next h => rw [h, index_four]; rfl
  · next h =>
    have hpow : BitVec.ofNat 64 (2 ^ scale.toNat) = BitVec.ofInt 64 (2 ^ scale.toNat) := by
      rw [← BitVec.ofInt_natCast]; push_cast; rfl
    rw [index_of_ne h, hpow, BitVec.ofInt_mul, BitVec.ofInt_natCast, BitVec.ofNat_toNat, BitVec.setWidth_eq]

/-- Base plus index of a row of the 16-bit table as an integer (rule R76). -/
def State.base16Int (s : State) : BitVec 3 → Int
  | 0 => (s.reg 3).toNat + (s.reg 6).toNat
  | 1 => (s.reg 3).toNat + (s.reg 7).toNat
  | 2 => (s.reg 5).toNat + (s.reg 6).toNat
  | 3 => (s.reg 5).toNat + (s.reg 7).toNat
  | 4 => (s.reg 6).toNat
  | 5 => (s.reg 7).toNat
  | 6 => (s.reg 5).toNat
  | _ => (s.reg 3).toNat

/-- The sum of an addressing form over the integers. -/
def State.addressInt (s : State) (len n : Nat) : MemRef → Int
  | .base b d => (s.reg b).toNat + Disp.int n d
  | .sib scale i b d => (s.reg b).toNat + s.indexInt scale i + Disp.int n d
  | .sibNoBase scale i d => s.indexInt scale i + d.toInt
  | .ripRel d => s.rip.toNat + len + d.toInt
  | .disp32 d => d.toInt
  | .addr16 rm d => s.base16Int rm + Disp.int n d
  | .disp16 d => d.toInt

theorem base16_eq_ofInt (s : State) (rm : BitVec 3) : s.base16 rm = BitVec.ofInt 64 (s.base16Int rm) := by
  unfold State.base16 State.base16Int
  split <;> simp [BitVec.ofInt_add]

theorem addressSum_eq_ofInt (s : State) (len n : Nat) (m : MemRef) : s.addressSum len n m = BitVec.ofInt 64 (s.addressInt len n m) := by
  have hreg (v : Word64) : v = BitVec.ofInt 64 v.toNat := by simp
  cases m with
  | base b d => rw [State.addressSum, State.addressInt, BitVec.ofInt_add, ← hreg, value_eq_ofInt]
  | sib scale i b d => rw [State.addressSum, State.addressInt, BitVec.ofInt_add, BitVec.ofInt_add, ← hreg, value_eq_ofInt, index_eq_ofInt]
  | sibNoBase scale i d => rw [State.addressSum, State.addressInt, BitVec.ofInt_add, index_eq_ofInt]; rfl
  | ripRel d => rw [State.addressSum, State.addressInt, BitVec.ofInt_add, BitVec.ofInt_add, ← hreg, BitVec.ofInt_natCast]; rfl
  | disp32 d => rfl
  | addr16 rm d => rw [State.addressSum, State.addressInt, BitVec.ofInt_add, value_eq_ofInt, base16_eq_ofInt]
  | disp16 d => rfl

/-- 64-bit mode: the sum, cut with a `67` byte. -/
theorem effectiveAddress_long64 {s : State} (hmode : s.mode = .long64) {pre : List LegacyPrefix} {len n : Nat} {m : MemRef} {v : Word64}
    (hsum : s.addressSum len n m = v) :
    s.effectiveAddress pre len n m = if .addrSize ∈ pre then (v.setWidth 32).setWidth 64 else v := by
  rw [State.effectiveAddress, hsum, hmode, addrSizeOf]
  by_cases h : LegacyPrefix.addrSize ∈ pre <;> simp [hasPrefix_iff, h, cutAddress]

/-- Settles O35: the sum of each addressing form, with the scaled index as a product. -/
theorem effectiveAddressesInLong64 : Obligations.EffectiveAddressesInLong64 := by
  intro s pre len n hmode cut ea disp
  have hea {m : MemRef} {v : Word64} (hsum : s.addressSum len n m = v) : ea m = cut v := effectiveAddress_long64 hmode hsum
  have hdisp (d : Disp) : Disp.value n d = disp d := by
    cases d with
    | d8 v => exact value_eq_ofInt n (.d8 v)
    | none | d16 | d32 => rfl
  refine ⟨fun b d => hea ?_, fun b i scale d hi => hea ?_, fun b scale d => hea ?_, fun i scale d hi => hea ?_, fun scale d => hea ?_,
    fun d => hea rfl⟩
  · rw [State.addressSum, hdisp]
  · rw [State.addressSum, index_of_ne hi, hdisp]
  · rw [State.addressSum, index_four, hdisp, BitVec.ofNat_eq_ofNat, BitVec.add_zero]
  · rw [State.addressSum, index_of_ne hi]
  · rw [State.addressSum, index_four, BitVec.ofNat_eq_ofNat, BitVec.zero_add]

theorem addrSizeOf_eq_a32 {mode : Config.Mode} {pre : List LegacyPrefix}
    (h : (mode = .prot32 ∧ .addrSize ∉ pre) ∨ ((mode = .prot16 ∨ mode = .real ∨ mode = .v86) ∧ .addrSize ∈ pre)) :
    addrSizeOf mode pre = .a32 := by
  obtain ⟨rfl, h67⟩ | ⟨rfl | rfl | rfl, h67⟩ := h <;> simp [addrSizeOf, hasPrefix_iff, h67]

theorem addrSizeOf_eq_a16 {mode : Config.Mode} {pre : List LegacyPrefix}
    (h : (mode = .prot32 ∧ .addrSize ∈ pre) ∨ ((mode = .prot16 ∨ mode = .real ∨ mode = .v86) ∧ .addrSize ∉ pre)) :
    addrSizeOf mode pre = .a16 := by
  obtain ⟨rfl, h67⟩ | ⟨rfl | rfl | rfl, h67⟩ := h <;> simp [addrSizeOf, hasPrefix_iff, h67]

theorem toNat_cut_ofInt (x : Int) {w : Nat} (hw : w ≤ 64) : ((((BitVec.ofInt 64 x).setWidth w).setWidth 64).toNat : Int) = x % 2 ^ w := by
  have hdvd : (2 ^ w : Int) ∣ 2 ^ 64 := pow_dvd_pow 2 hw
  have hlt : ((BitVec.ofInt 64 x).setWidth w).toNat < 2 ^ 64 := (BitVec.isLt _).trans_le (Nat.pow_le_pow_right (by decide) hw)
  rw [BitVec.toNat_setWidth, Nat.mod_eq_of_lt hlt, BitVec.toNat_setWidth, BitVec.toNat_ofInt]
  push_cast
  rw [Int.toNat_of_nonneg (Int.emod_nonneg _ (by decide))]
  exact Int.emod_emod_of_dvd x hdvd

theorem toNat_effectiveAddress_a32 {s : State} {pre : List LegacyPrefix} (hasz : addrSizeOf s.mode pre = .a32) (len n : Nat) (m : MemRef) :
    ((s.effectiveAddress pre len n m).toNat : Int) = s.addressInt len n m % 2 ^ 32 := by
  rw [State.effectiveAddress, hasz, addressSum_eq_ofInt]
  exact toNat_cut_ofInt _ (by decide)

theorem toNat_effectiveAddress_a16 {s : State} {pre : List LegacyPrefix} (hasz : addrSizeOf s.mode pre = .a16) (len n : Nat) (m : MemRef) :
    ((s.effectiveAddress pre len n m).toNat : Int) = s.addressInt len n m % 2 ^ 16 := by
  rw [State.effectiveAddress, hasz, addressSum_eq_ofInt]
  exact toNat_cut_ofInt _ (by decide)

theorem toInt_emod_two_pow {w : Nat} (d : BitVec w) : d.toInt % 2 ^ w = d.toNat := by
  have hlt : (d.toNat : Int) < 2 ^ w := by exact_mod_cast d.isLt
  rw [BitVec.toInt_eq_toNat_bmod]
  have hmod := Int.bmod_emod (x := d.toNat) (m := 2 ^ w)
  push_cast at hmod
  rw [hmod, Int.emod_eq_of_lt (Int.natCast_nonneg _) hlt]

/-- Settles O36: the integer sums of the addressing forms. -/
theorem thirtyTwoBitAddresses : Obligations.ThirtyTwoBitAddresses := by
  intro s pre len n h ea g disp
  have hea (m : MemRef) : ea m = s.addressInt len n m % 2 ^ 32 := toNat_effectiveAddress_a32 (addrSizeOf_eq_a32 h) len n m
  have hdisp (d : Disp) : Disp.int n d = disp d := by cases d <;> rfl
  have hindex {i : BitVec 4} (hi : i ≠ 4) (scale : BitVec 2) : s.indexInt scale i = g i * 2 ^ scale.toNat := if_neg hi
  have hfour (scale : BitVec 2) : s.indexInt scale 4 = 0 := if_pos rfl
  refine ⟨fun b d => ?_, fun b i scale d hi => ?_, fun b scale d => ?_, fun i scale d hi => ?_, fun scale d => ?_, fun d => ?_⟩
  · rw [hea, State.addressInt, hdisp]
  · rw [hea, State.addressInt, hdisp, hindex hi]
  · rw [hea, State.addressInt, hdisp, hfour, Int.add_zero]
  · rw [hea, State.addressInt, hindex hi]
  · rw [hea, State.addressInt, hfour, Int.zero_add, toInt_emod_two_pow]
  · rw [hea, State.addressInt, toInt_emod_two_pow]

/-- Settles O37: the integer sums of the table's rows. -/
theorem sixteenBitAddresses : Obligations.SixteenBitAddresses := by
  intro s pre len n h ea g row
  have hea (m : MemRef) : ea m = s.addressInt len n m % 2 ^ 16 := toNat_effectiveAddress_a16 (addrSizeOf_eq_a16 h) len n m
  have hrow (rm : BitVec 3) : row rm (s.base16Int rm) :=
    ⟨by rw [hea, State.addressInt, Disp.int, Int.add_zero], fun d => hea _, fun d => hea _⟩
  exact ⟨hrow 0, hrow 1, hrow 2, hrow 3, hrow 4, hrow 5, hrow 6, hrow 7, fun d => (hea _).trans (toInt_emod_two_pow d)⟩

end Sys2Proof.Machine

/-! PROOFS. The conversion family (spec/40_conversion.md): the scalar conversion against the exact value and bit by bit, and what each form
makes of it: a completion where every detected condition is masked or suppressed, `#XM` or `#UD` where one is not. -/
namespace Sys2Proof.Machine

/-! ### The fields of a double (rule R110) -/

theorem fracOf_eq (b : Word64) : fracOf b = b.toNat % 2 ^ 52 := by
  rw [fracOf, BitVec.extractLsb'_toNat, Nat.shiftRight_zero]

theorem expOf_eq (b : Word64) : expOf b = b.toNat / 2 ^ 52 % 2 ^ 11 := by
  rw [expOf, BitVec.extractLsb'_toNat, Nat.shiftRight_eq_div_pow]

theorem signOf_iff (b : Word64) : signOf b = true ↔ 2 ^ 63 ≤ b.toNat := by
  rw [signOf, ← BitVec.msb_eq_getLsbD_last b, BitVec.msb_eq_decide, decide_eq_true_iff]

theorem fracOf_lt (b : Word64) : fracOf b < 2 ^ 52 := (b.extractLsb' 0 52).isLt

theorem significand_bounds (b : Word64) : 2 ^ 52 ≤ significand b ∧ significand b < 2 ^ 53 := by
  have := fracOf_lt b
  unfold significand
  omega

/-! ### The conversion, case by case (rules R111 to R114) -/

section
variable {dazApplies daz : Bool} {b : Word64}

theorem cvtTrunc_of_special (h : expOf b = 2047) :
    cvtTrunc dazApplies daz b = { result := 0x80000000, invalid := true, inexact := false } := if_pos h

theorem cvtTrunc_of_subnormal (h : expOf b = 0) :
    cvtTrunc dazApplies daz b = { result := 0, invalid := false, inexact := fracOf b != 0 && !(daz && dazApplies) } := by
  by_cases hf : fracOf b = 0 <;> simp [cvtTrunc, h, hf]

theorem cvtTrunc_of_overflow (h0 : expOf b ≠ 0) (h1 : expOf b ≠ 2047) (hout : truncInt b > 2 ^ 31 - 1 ∨ truncInt b < -2 ^ 31) :
    cvtTrunc dazApplies daz b = { result := 0x80000000, invalid := true, inexact := false } := by
  rw [cvtTrunc, if_neg h1, if_neg h0, if_pos hout]; rfl

theorem cvtTrunc_of_fits (h0 : expOf b ≠ 0) (h1 : expOf b ≠ 2047) (hlo : -2 ^ 31 ≤ truncInt b) (hhi : truncInt b ≤ 2 ^ 31 - 1) :
    cvtTrunc dazApplies daz b = { result := BitVec.ofInt 32 (truncInt b), invalid := false, inexact := truncLost b } := by
  rw [cvtTrunc, if_neg h1, if_neg h0, if_neg (by omega)]

end

theorem toInt_ofInt_of_fits {t : Int} (hlo : -2 ^ 31 ≤ t) (hhi : t ≤ 2 ^ 31 - 1) : (BitVec.ofInt 32 t).toInt = t :=
  BitVec.toInt_ofInt_eq_self (by decide) hlo (by omega)

/-! ### The exact value (rules R110, R111) -/

/-- A sign in front of a magnitude does not matter to truncation toward zero. -/
theorem truncRat_signed (neg : Bool) {x : ℚ} (hx : 0 ≤ x) :
    truncRat ((if neg then -1 else 1) * x) = if neg then -⌊x⌋ else ⌊x⌋ := by
  cases neg with
  | false => simp [truncRat, hx]
  | true =>
    rcases hx.eq_or_lt with rfl | hpos
    · simp [truncRat]
    · simp [truncRat, Int.ceil_neg, hpos]

/-- The magnitude of a double with significand `m` and biased exponent `e`; a denormal has `e = 1`. -/
def scaled (m e : Nat) : ℚ := (m : ℚ) * 2 ^ ((e : ℤ) - 1075)

theorem scaled_nonneg (m e : Nat) : 0 ≤ scaled m e := by unfold scaled; positivity

theorem scaled_eq_zero_iff {m e : Nat} : scaled m e = 0 ↔ m = 0 := by
  have hne : (2 : ℚ) ^ ((e : ℤ) - 1075) ≠ 0 := zpow_ne_zero _ two_ne_zero
  simp [scaled, hne]

/-- As a quotient of natural numbers, with a denominator of 1 from exponent 1075 up. -/
theorem scaled_eq_div (m e : Nat) : scaled m e = ((m * 2 ^ (e - 1075) : Nat) : ℚ) / ((2 ^ (1075 - e) : Nat) : ℚ) := by
  have hexp : (e : ℤ) - 1075 = ((e - 1075 : Nat) : ℤ) - ((1075 - e : Nat) : ℤ) := by omega
  rw [scaled, hexp, zpow_natCast_sub_natCast₀ two_ne_zero, mul_div_assoc']
  push_cast
  rfl

theorem floor_scaled (m e : Nat) : ⌊scaled m e⌋ = ((m * 2 ^ (e - 1075) / 2 ^ (1075 - e) : Nat) : ℤ) := by
  rw [scaled_eq_div, Rat.floor_natCast_div_natCast, Int.natCast_div]

theorem truncMag_eq_div (b : Word64) : truncMag b = significand b * 2 ^ (expOf b - 1075) / 2 ^ (1075 - expOf b) := by
  unfold truncMag
  split_ifs with h
  · rw [Nat.sub_eq_zero_of_le h, pow_zero, Nat.div_one]
  · rw [Nat.sub_eq_zero_of_le (Nat.le_of_not_le h), pow_zero, mul_one]

theorem truncLost_eq_mod (b : Word64) : truncLost b = (significand b * 2 ^ (expOf b - 1075) % 2 ^ (1075 - expOf b) != 0) := by
  unfold truncLost
  split_ifs with h
  · simp [Nat.sub_eq_zero_of_le h, Nat.mod_one]
  · rw [Nat.sub_eq_zero_of_le (Nat.le_of_not_le h), pow_zero, mul_one]

theorem floor_scaled_significand (b : Word64) : ⌊scaled (significand b) (expOf b)⌋ = truncMag b := by
  rw [floor_scaled, truncMag_eq_div]

theorem natCast_div_eq_iff {m n : Nat} (hn : n ≠ 0) : ((m / n : Nat) : ℚ) = (m : ℚ) / (n : ℚ) ↔ m % n = 0 := by
  rw [eq_div_iff (by exact_mod_cast hn)]
  norm_cast
  have := Nat.div_add_mod' m n
  omega

/-- Truncation loses something exactly if the magnitude is no integer. -/
theorem truncLost_iff (b : Word64) : truncLost b = true ↔ (truncMag b : ℚ) ≠ scaled (significand b) (expOf b) := by
  rw [truncLost_eq_mod, bne_iff_ne, scaled_eq_div, truncMag_eq_div, Ne, Ne, natCast_div_eq_iff (by positivity)]

theorem valueOf_of_normal {b : Word64} (h0 : expOf b ≠ 0) (h1 : expOf b ≠ 2047) :
    valueOf b = (if signOf b then -1 else 1) * scaled (significand b) (expOf b) := by
  rw [valueOf, if_neg h1, if_neg h0, scaled]

theorem truncRat_of_normal {b : Word64} (h0 : expOf b ≠ 0) (h1 : expOf b ≠ 2047) : truncRat (valueOf b) = truncInt b := by
  rw [valueOf_of_normal h0 h1, truncRat_signed _ (scaled_nonneg _ _), floor_scaled_significand, truncInt]

theorem truncLost_iff_value {b : Word64} (h0 : expOf b ≠ 0) (h1 : expOf b ≠ 2047) :
    truncLost b = true ↔ (truncInt b : ℚ) ≠ valueOf b := by
  rw [truncLost_iff, valueOf_of_normal h0 h1, truncInt]
  cases signOf b <;> simp

theorem valueOf_of_subnormal {b : Word64} (h : expOf b = 0) :
    valueOf b = (if signOf b then -1 else 1) * scaled (fracOf b) 1 := by
  have hexp : ((1 : ℕ) : ℤ) - 1075 = -1074 := rfl
  rw [valueOf, if_neg (show expOf b ≠ 2047 by omega), if_pos h, scaled, hexp]

/-- A magnitude below 1. -/
theorem floor_scaled_eq_zero {m e : Nat} (hm : m < 2 ^ 52) (he : e ≤ 1023) : ⌊scaled m e⌋ = 0 := by
  have hlt : m * 2 ^ (e - 1075) < 2 ^ (1075 - e) := by
    rw [Nat.sub_eq_zero_of_le (he.trans (by decide)), pow_zero, mul_one]
    exact hm.trans_le (Nat.pow_le_pow_right (by decide) (by omega))
  rw [floor_scaled, Nat.div_eq_of_lt hlt, Nat.cast_zero]

theorem truncRat_of_subnormal {b : Word64} (h : expOf b = 0) : truncRat (valueOf b) = 0 := by
  rw [valueOf_of_subnormal h, truncRat_signed _ (scaled_nonneg _ _), floor_scaled_eq_zero (fracOf_lt b) (by decide)]
  simp

theorem valueOf_eq_zero_iff_of_subnormal {b : Word64} (h : expOf b = 0) : valueOf b = 0 ↔ fracOf b = 0 := by
  rw [valueOf_of_subnormal h, mul_eq_zero, scaled_eq_zero_iff]
  cases signOf b <;> simp

/-- Settles O39: a denormal truncates to 0, a normal double to `truncInt`. -/
theorem conversionTruncatesExactValue : Obligations.ConversionTruncatesExactValue := by
  intro dazApplies daz b c v t
  refine ⟨cvtTrunc_of_special, fun h1 hout => ?_, fun h1 hlo hhi => ?_⟩
  · by_cases h0 : expOf b = 0
    · have ht : t = 0 := truncRat_of_subnormal h0
      omega
    · have ht : t = truncInt b := truncRat_of_normal h0 h1
      exact cvtTrunc_of_overflow h0 h1 (ht ▸ hout)
  · by_cases h0 : expOf b = 0
    · have ht : t = 0 := truncRat_of_subnormal h0
      have hv : v = 0 ↔ fracOf b = 0 := valueOf_eq_zero_iff_of_subnormal h0
      have hc : c = _ := cvtTrunc_of_subnormal h0
      rw [hc, ht, Int.cast_zero, ne_comm, Ne, hv]
      refine ⟨rfl, rfl, ?_⟩
      simp [h0, imp_iff_not_or]
    · have ht : t = truncInt b := truncRat_of_normal h0 h1
      rw [ht] at hlo hhi ⊢
      have hc : c = _ := cvtTrunc_of_fits h0 h1 hlo hhi
      rw [hc]
      refine ⟨toInt_ofInt_of_fits hlo hhi, rfl, ?_⟩
      rw [truncLost_iff_value h0 h1]
      simp [h0, v]

/-! ### Bounds of the magnitude, from the unbiased exponent (rule R121) -/

/-- Below exponent 1023 every bit of the significand is a fraction bit. -/
theorem significand_lt_of_lt_one {b : Word64} (h : expOf b < 1023) : significand b < 2 ^ (1075 - expOf b) :=
  (significand_bounds b).2.trans_le (Nat.pow_le_pow_right (by decide) (by omega))

theorem truncMag_eq_zero {b : Word64} (h : expOf b < 1023) : truncMag b = 0 := by
  rw [truncMag, if_neg (by omega), Nat.div_eq_of_lt (significand_lt_of_lt_one h)]

theorem truncLost_of_lt_one {b : Word64} (h : expOf b < 1023) : truncLost b = true := by
  obtain ⟨hlo, -⟩ := significand_bounds b
  rw [truncLost, if_neg (by omega), Nat.mod_eq_of_lt (significand_lt_of_lt_one h), bne_iff_ne]
  omega

/-- From exponent 1023 up the magnitude lies between two powers of two. -/
theorem truncMag_bounds {b : Word64} (h : 1023 ≤ expOf b) : 2 ^ (expOf b - 1023) ≤ truncMag b ∧ truncMag b < 2 ^ (expOf b - 1022) := by
  obtain ⟨hlo, hhi⟩ := significand_bounds b
  unfold truncMag
  split_ifs with hbig
  · rw [show expOf b - 1023 = 52 + (expOf b - 1075) by omega, show expOf b - 1022 = 53 + (expOf b - 1075) by omega, pow_add, pow_add]
    exact ⟨Nat.mul_le_mul_right _ hlo, Nat.mul_lt_mul_of_pos_right hhi (by positivity)⟩
  · rw [Nat.le_div_iff_mul_le (by positivity), Nat.div_lt_iff_lt_mul (by positivity), ← pow_add, ← pow_add,
      show expOf b - 1023 + (1075 - expOf b) = 52 by omega, show expOf b - 1022 + (1075 - expOf b) = 53 by omega]
    exact ⟨hlo, hhi⟩

theorem truncInt_of_sign {b : Word64} (h : signOf b = true) : truncInt b = -(truncMag b : Int) := if_pos h

theorem truncInt_of_no_sign {b : Word64} (h : signOf b = false) : truncInt b = truncMag b := if_neg (by simp [h])

/-- A magnitude above `2^31` fits in no doubleword, whatever its sign. -/
theorem truncInt_overflow {b : Word64} (h : 2 ^ 31 < truncMag b ∨ (2 ^ 31 ≤ truncMag b ∧ signOf b = false)) :
    truncInt b > 2 ^ 31 - 1 ∨ truncInt b < -2 ^ 31 := by
  cases hs : signOf b with
  | true =>
    have hlt : 2 ^ 31 < truncMag b := h.resolve_right (by simp [hs])
    rw [truncInt_of_sign hs]; omega
  | false => rw [truncInt_of_no_sign hs]; omega

theorem truncInt_fits {b : Word64} (h : truncMag b < 2 ^ 31) : -2 ^ 31 ≤ truncInt b ∧ truncInt b ≤ 2 ^ 31 - 1 := by
  unfold truncInt
  split_ifs <;> omega

/-- At `x = 31` the magnitude is `2^31` and the fraction's upper 31 bits. -/
theorem truncMag_of_exp31 {b : Word64} (h : expOf b = 1054) : truncMag b = 2 ^ 31 + fracOf b / 2 ^ 21 := by
  have hdiv : (2 ^ 52 + fracOf b) / 2 ^ 21 = 2 ^ 31 + fracOf b / 2 ^ 21 := by omega
  rw [truncMag, h, significand, if_neg (by decide), hdiv]

theorem truncLost_of_exp31 {b : Word64} (h : expOf b = 1054) (hf : fracOf b < 2 ^ 21) : truncLost b = (fracOf b != 0) := by
  have hmod : (2 ^ 52 + fracOf b) % 2 ^ 21 = fracOf b := by omega
  rw [truncLost, h, significand, if_neg (by decide), hmod]

/-- Settles O40: the four rows by the bounds of the magnitude. -/
theorem bitLevelConversion : Obligations.BitLevelConversion := by
  intro dazApplies daz b h0 h1 c x mag lost
  have h0' : expOf b ≠ 0 := by omega
  have h1' : expOf b ≠ 2047 := by omega
  refine ⟨fun hx => ?_, fun hx hx' => ?_, fun hx hs hf => ?_, fun hx => ?_⟩
  · have hsmall : expOf b < 1023 := by omega
    have ht : truncInt b = 0 := by rw [truncInt, truncMag_eq_zero hsmall]; simp
    have hc : c = _ := cvtTrunc_of_fits h0' h1' (by rw [ht]; decide) (by rw [ht]; decide)
    rw [hc, ht, truncLost_of_lt_one hsmall]
    rfl
  · obtain ⟨hlo, hhi⟩ := truncMag_bounds (b := b) (by omega)
    have hshift : 52 - x.toNat = 1075 - expOf b := by omega
    have hmag : mag = truncMag b := by
      rw [truncMag, if_neg (by omega), significand, ← hshift]
      push_cast
      rfl
    have hlost : truncLost b = (lost != 0) := by rw [truncLost, if_neg (by omega), significand, ← hshift]
    have hlt : truncMag b < 2 ^ 31 := hhi.trans_le (Nat.pow_le_pow_right (by decide) (by omega))
    have hpos : 0 < truncMag b := (Nat.two_pow_pos _).trans_le hlo
    obtain ⟨hmin, hmax⟩ := truncInt_fits hlt
    have hc : c = _ := cvtTrunc_of_fits h0' h1' hmin hmax
    rw [hc, hmag, hlost]
    exact ⟨rfl, by omega, by omega⟩
  · have hexp : expOf b = 1054 := by omega
    have ht : truncInt b = -2 ^ 31 := by rw [truncInt_of_sign hs, truncMag_of_exp31 hexp]; omega
    have hc : c = _ := cvtTrunc_of_fits h0' h1' (by rw [ht]) (by rw [ht]; decide)
    rw [hc, ht, truncLost_of_exp31 hexp hf]
    rfl
  · refine cvtTrunc_of_overflow h0' h1' (truncInt_overflow ?_)
    rcases hx with ⟨hx, hno⟩ | hx
    · have hmag := truncMag_of_exp31 (b := b) (by omega)
      cases hs : signOf b with
      | true =>
        have hf : ¬ fracOf b < 2 ^ 21 := fun hf => hno ⟨hs, hf⟩
        exact .inl (by omega)
      | false => exact .inr ⟨by omega, rfl⟩
    · obtain ⟨hlo, -⟩ := truncMag_bounds (b := b) (by omega)
      have hpow : 2 ^ 32 ≤ 2 ^ (expOf b - 1023) := Nat.pow_le_pow_right (by decide) (by omega)
      exact .inl (by omega)

/-! ### The largest result (rules R112, R116, R121) -/

/-- The indefinite value and 0 are not `2^31 - 1`, so that result comes from a normal double's truncation. -/
theorem result_eq_max_iff (dazApplies daz : Bool) (b : Word64) :
    (cvtTrunc dazApplies daz b).result = 0x7FFFFFFF ↔ expOf b ≠ 2047 ∧ expOf b ≠ 0 ∧ truncInt b = 2 ^ 31 - 1 := by
  by_cases h1 : expOf b = 2047
  · simp [cvtTrunc_of_special h1, h1]
  by_cases h0 : expOf b = 0
  · simp [cvtTrunc_of_subnormal h0, h0]
  by_cases hfit : -2 ^ 31 ≤ truncInt b ∧ truncInt b ≤ 2 ^ 31 - 1
  · obtain ⟨hlo, hhi⟩ := hfit
    rw [cvtTrunc_of_fits h0 h1 hlo hhi, ← BitVec.toInt_inj, toInt_ofInt_of_fits hlo hhi]
    exact ⟨fun h => ⟨h1, h0, h⟩, fun h => h.2.2⟩
  · rw [cvtTrunc_of_overflow h0 h1 (by omega)]
    exact ⟨fun h => absurd h (by decide), fun ⟨_, _, h⟩ => absurd ⟨by omega, by omega⟩ hfit⟩

theorem truncMag_eq_max_iff (b : Word64) : truncMag b = 2 ^ 31 - 1 ↔ expOf b = 1053 ∧ 2 ^ 52 - 2 ^ 22 ≤ fracOf b := by
  have hlt := fracOf_lt b
  have hmag (h : expOf b = 1053) : truncMag b = (2 ^ 52 + fracOf b) / 2 ^ 22 := by rw [truncMag, h, significand, if_neg (by decide)]
  constructor
  · intro h
    have hexp : expOf b = 1053 := by
      by_cases hsmall : expOf b < 1023
      · rw [truncMag_eq_zero hsmall] at h; omega
      · obtain ⟨hlo, hhi⟩ := truncMag_bounds (b := b) (by omega)
        have hle : expOf b - 1023 < 31 := (Nat.pow_lt_pow_iff_right (a := 2) (by decide)).1 (by omega)
        have hge : 30 < expOf b - 1022 := (Nat.pow_lt_pow_iff_right (a := 2) (by decide)).1 (by omega)
        omega
    rw [hmag hexp] at h
    exact ⟨hexp, by omega⟩
  · rintro ⟨hexp, hfrac⟩
    rw [hmag hexp]
    omega

theorem truncInt_eq_max_iff (b : Word64) : truncInt b = 2 ^ 31 - 1 ↔ signOf b = false ∧ truncMag b = 2 ^ 31 - 1 := by
  cases hs : signOf b with
  | true =>
    rw [truncInt_of_sign hs]
    exact ⟨fun h => by omega, fun ⟨h, _⟩ => absurd h (by decide)⟩
  | false =>
    rw [truncInt_of_no_sign hs]
    exact ⟨fun h => ⟨rfl, by omega⟩, fun ⟨_, h⟩ => by omega⟩

/-- Settles O41: sign, exponent and fraction of such a double, read as one number. -/
theorem largestResultRange : Obligations.LargestResultRange := by
  intro dazApplies daz b
  have hsign : signOf b = false ↔ b.toNat < 2 ^ 63 := by rw [← Bool.not_eq_true, signOf_iff, Nat.not_le]
  have hb := b.isLt
  rw [result_eq_max_iff, truncInt_eq_max_iff, truncMag_eq_max_iff, hsign, expOf_eq, fracOf_eq]
  omega

/-! ### A completion whose flags are given as booleans (rule R117) -/

theorem unmasked_eq_false_iff {s : State} {inv inx : Bool} :
    s.unmasked inv inx = false ↔ (inv = true → s.mxIM = true) ∧ (inx = true → s.mxPM = true) := by
  simp [State.unmasked]

/-- Without `{sae}`, with every detected condition masked, an execution sets the flags of the detected conditions and writes its results. -/
theorem exec_of_masked {i : Instr} {s : State} {elems : List (Option Word64)} {inv inx : Bool} (hready : s.ready i)
    (hsae : Instr.suppressed i = false) (hsource : s.source i = .ok elems)
    (hinv : inv = true ↔ s.someInvalid elems) (hinx : inx = true ↔ s.someInexact elems)
    (hIM : inv = true → s.mxIM = true) (hPM : inx = true → s.mxPM = true) :
    exec i s = .next (((s.setFlags inv inx).setVreg (Instr.destination i)
      (Instr.destValue i (s.vreg (Instr.destination i)) (s.results elems))).advance i.length) := by
  have einv : anyInvalid (s.convertAll elems) = inv := by rw [Bool.eq_iff_iff, anyInvalid_iff, hinv]
  have einx : anyInexact (s.convertAll elems) = inx := by rw [Bool.eq_iff_iff, anyInexact_iff, hinx]
  have hmasked : s.someUnmasked elems = false := by
    rw [State.someUnmasked, einv, einx]; exact unmasked_eq_false_iff.2 ⟨hIM, hPM⟩
  refine exec_next_iff.2 ⟨hready, elems, hsource, .inr hmasked, ?_⟩
  rw [State.completed, flagged_of_not_suppressed hsae, einv, einx]

/-- With `{sae}` an execution writes its results and sets no flag, whatever is detected (rule R118). -/
theorem exec_of_suppressed {i : Instr} {s : State} {elems : List (Option Word64)} (hready : s.ready i)
    (hsae : Instr.suppressed i = true) (hsource : s.source i = .ok elems) :
    exec i s = .next ((s.setVreg (Instr.destination i)
      (Instr.destValue i (s.vreg (Instr.destination i)) (s.results elems))).advance i.length) := by
  refine exec_next_iff.2 ⟨hready, elems, hsource, .inl hsae, ?_⟩
  rw [State.completed, flagged_of_suppressed hsae]

theorem results_getElem? (s : State) (elems : List (Option Word64)) (j : Nat) :
    (s.results elems)[j]? = elems[j]?.map fun e => e.map fun x => (s.convert x).result := by
  simp [State.results, State.convertAll, Function.comp_def]

/-! ### Enabled means ready (rules R201, R202) -/

theorem ready_legacy {s : State} {o : LegacyOps} (hen : s.legacyEnabled = true) (hlock : .lock ∉ o.pre) (hlen : o.length ≤ 15) :
    s.ready (.cvttpd2dq o) := by
  simp only [State.legacyEnabled, Bool.and_eq_true, Bool.not_eq_true'] at hen
  obtain ⟨⟨⟨hem, hfxsr⟩, hts⟩, hsse⟩ := hen
  refine ⟨hlen, ?_, hts, maxvl_bits_ge _⟩
  rw [State.undefinedFor, ← Bool.not_eq_true, legacyUd_iff]
  simp [hem, hfxsr, hsse, hlock]

theorem vexUd_eq_false {s : State} {o : VexOps} (hen : s.vexEnabled = true) (hpre : badEscapePrefix o.pre = false) (hv : o.vvvv = 15) :
    s.vexUd o = false ∧ s.cr0TS = false := by
  simp only [State.vexEnabled, Bool.and_eq_true, Bool.not_eq_true'] at hen
  obtain ⟨⟨⟨⟨hreal, hxsave⟩, hxcr⟩, hts⟩, hfeat⟩ := hen
  simp [State.vexUd, hreal, hxsave, hxcr, hts, hfeat, hpre, hv]

theorem evexUd_eq_false {s : State} {feat : Bool} {o : EvexOps} (hen : s.evexEnabled feat = true) (hpre : badEscapePrefix o.pre = false)
    (hv : o.vvvv = 15) (hhigh : o.vHigh = true) (hz : o.zeroing = true → o.aaa ≠ 0) : s.evexUd feat o = false ∧ s.cr0TS = false := by
  simp only [State.evexEnabled, Bool.and_eq_true, Bool.not_eq_true'] at hen
  obtain ⟨⟨⟨⟨⟨hreal, hxsave⟩, hxcr⟩, hxcr512⟩, hts⟩, hfeat⟩ := hen
  have hz' : (o.zeroing && o.aaa == 0#3) = false := by simpa using hz
  simp [State.evexUd, hreal, hxsave, hxcr, hxcr512, hts, hfeat, hpre, hv, hhigh, hz']

/-! ### Forms 1 to 3 (rules R130, R140, R141) -/

theorem extractLsb'_64_64 (v : VWord) : v.extractLsb' 64 64 = dword v 3 ++ dword v 2 := by
  rw [dword, dword, BitVec.extractLsb'_append_extractLsb'_eq_extractLsb' (by decide)]

/-- Settles O43: the enabled form is ready, and its destination value holds the two results. -/
theorem legacyCompletes : Obligations.LegacyCompletes := by
  intro o s a b inv inx hen hlock hlen hsource hinv hinx hIM hPM
  have hexec := exec_of_masked (ready_legacy hen hlock hlen) rfl hsource
    (hinv.trans (by simp [State.someInvalid])) (hinx.trans (by simp [State.someInexact])) hIM hPM
  refine ⟨_, hexec, dword_destLegacy _ _ (by decide), dword_destLegacy _ _ (by decide), ?_, destLegacy_shift _ _ ?_⟩
  · rw [extractLsb'_64_64, Instr.destValue, dword_destLegacy _ _ (by decide), dword_destLegacy _ _ (by decide)]
    simp [State.results, State.convertAll]
  · simp [results_length]

/-- Settles O44: the enabled form is ready, and its destination value is the two results. -/
theorem vex128Completes : Obligations.Vex128Completes := by
  intro o s a b inv inx hen hpre hv hlen hsource hinv hinx hIM hPM
  obtain ⟨hdef, hts⟩ := vexUd_eq_false hen hpre hv
  have hready : s.ready (.vcvttpd2dqVex128 o) := ⟨hlen, hdef, hts, maxvl_bits_ge _⟩
  have hexec := exec_of_masked hready rfl hsource
    (hinv.trans (by simp [State.someInvalid])) (hinx.trans (by simp [State.someInexact])) hIM hPM
  exact ⟨_, hexec, dword_destVex _ (by decide), dword_destVex _ (by decide), destVex_shift _ (by simp [results_length])⟩

/-- Settles O45: the enabled form is ready, and its destination value is the four results. -/
theorem vex256Completes : Obligations.Vex256Completes := by
  intro o s a b c d inv inx hen hpre hv hlen hvl hsource hinv hinx hIM hPM
  obtain ⟨hdef, hts⟩ := vexUd_eq_false hen hpre hv
  have hready : s.ready (.vcvttpd2dqVex256 o) := ⟨hlen, hdef, hts, hvl⟩
  have hexec := exec_of_masked hready rfl hsource
    (hinv.trans (by simp [State.someInvalid])) (hinx.trans (by simp [State.someInexact])) hIM hPM
  exact ⟨_, hexec, dword_destVex _ (by decide), dword_destVex _ (by decide), dword_destVex _ (by decide), dword_destVex _ (by decide),
    destVex_shift _ (by simp [results_length])⟩

/-! ### Forms 4 to 6 (rules R150 to R153) -/

/-- A present element's doubleword is its conversion, an absent one's is kept or zeroed. -/
theorem dword_destEvex_results (s : State) (old : VWord) (zeroing : Bool) {elems : List (Option Word64)} {j : Nat} {e : Option Word64}
    (hj : j < 16) (he : elems[j]? = some e) :
    dword (destEvex old zeroing (s.results elems)) j =
      (e.map fun x => (s.convert x).result).getD (if zeroing then 0 else dword old j) := by
  have hres : (s.results elems)[j]? = some (e.map fun x => (s.convert x).result) := by rw [results_getElem?, he]; rfl
  obtain ⟨hlt, hget⟩ := List.getElem?_eq_some_iff.1 hres
  rw [dword_destEvex old zeroing _ hlt hj, hget]

/-- Every form of EVEX without `{sae}`, ready, with its operand read and every detected condition masked. -/
theorem evex_completes {i : Instr} {o : EvexOps} {s : State} {elems : List (Option Word64)} {inv inx : Bool} {kl : Nat}
    (hi : i ∈ Instr.evexForms o) (hvl : Instr.vl i = 64 * kl) (hready : s.ready i)
    (hsae : EvexSource.isSae o.src = false) (hsource : s.source i = .ok elems)
    (hinv : inv = true ↔ s.someInvalid elems) (hinx : inx = true ↔ s.someInexact elems)
    (hIM : inv = true → s.mxIM = true) (hPM : inx = true → s.mxPM = true) :
    ∃ v, exec i s = .next (((s.setFlags inv inx).setVreg o.dst v).advance o.length) ∧ v >>> (32 * kl) = 0 ∧
      ∀ j < kl, (∀ x, elems[j]? = some (some x) → dword v j = (s.convert x).result) ∧
        (elems[j]? = some none → dword v j = if o.zeroing then 0 else dword (s.vreg o.dst) j) := by
  obtain ⟨hlen, hdst, hvalue⟩ := evex_shared hi
  have hsup : Instr.suppressed i = false := by rcases mem_evexForms_iff.1 hi with rfl | rfl | rfl <;> exact hsae
  have hle := vl_le i
  have hexec := exec_of_masked hready hsup hsource hinv hinx hIM hPM
  rw [hlen, hdst, hvalue] at hexec
  refine ⟨_, hexec, destEvex_shift _ _ _ ?_, fun j hj => ?_⟩
  · rw [results_length, (elementsFollowMask i s elems hsource).1]; omega
  · exact ⟨fun x hx => dword_destEvex_results s _ _ (by omega) hx, fun hx => dword_destEvex_results s _ _ (by omega) hx⟩

/-- Settles O46: `evex_completes` for form 4. -/
theorem evex128Completes : Obligations.Evex128Completes := by
  intro o s elems inv inx hen hpre hv hhigh hz hlen
  obtain ⟨hdef, hts⟩ := evexUd_eq_false hen hpre hv hhigh hz
  exact evex_completes (kl := 2) (mem_evexForms_iff.2 (.inl rfl)) rfl ⟨hlen, hdef, hts, maxvl_bits_ge _⟩

/-- Settles O47: `evex_completes` for form 5. -/
theorem evex256Completes : Obligations.Evex256Completes := by
  intro o s elems inv inx hen hpre hv hhigh hz hlen hvl
  obtain ⟨hdef, hts⟩ := evexUd_eq_false hen hpre hv hhigh hz
  exact evex_completes (kl := 4) (mem_evexForms_iff.2 (.inr (.inl rfl))) rfl ⟨hlen, hdef, hts, hvl⟩

/-- Form 6 is ready where it is enabled and the registers are 512 bits wide. -/
theorem ready_evex512 {s : State} {o : EvexOps} (hen : s.evexEnabled (evexFeat512 s.impl.feat) = true)
    (hpre : badEscapePrefix o.pre = false) (hv : o.vvvv = 15) (hhigh : o.vHigh = true) (hz : o.zeroing = true → o.aaa ≠ 0)
    (hlen : o.length ≤ 15) (hvl : s.impl.maxvl = .vl512) : s.ready (.vcvttpd2dqEvex512 o) := by
  obtain ⟨hdef, hts⟩ := evexUd_eq_false hen hpre hv hhigh hz
  exact ⟨hlen, hdef, hts, by rw [hvl]; exact le_rfl⟩

/-- Settles O48: `evex_completes` for form 6. -/
theorem evex512Completes : Obligations.Evex512Completes := by
  intro o s elems inv inx hen hpre hv hhigh hz hlen hvl
  exact evex_completes (kl := 8) (mem_evexForms_iff.2 (.inr (.inr rfl))) rfl (ready_evex512 hen hpre hv hhigh hz hlen hvl)

/-- Element `j` of a register source under the mask of `K[aaa]`. -/
theorem registerElements_writemask (s : State) (w : VWord) (aaa : BitVec 3) {kl j : Nat} (hj : j < kl) :
    (registerElements w (s.writemask aaa kl))[j]? =
      some (if aaa = 0 ∨ (s.k aaa).getLsbD j = true then some (w.extractLsb' (64 * j) 64) else none) := by
  obtain ⟨hmask, -⟩ := writemaskBits s aaa kl j hj
  rw [registerElements, List.getElem?_mapIdx, hmask]
  by_cases haaa : aaa = 0 <;> simp [haaa]

/-- Settles O49: with `{sae}` the register's elements are converted and nothing detected matters. -/
theorem saeCompletesUnmasked : Obligations.SaeCompletesUnmasked := by
  intro o s n hen hpre hv hhigh hz hlen hvl hsrc
  have hsource : s.source (.vcvttpd2dqEvex512 o) = .ok (registerElements (s.vreg n) (s.writemask o.aaa 8)) := by
    rw [State.source, hsrc]; rfl
  have hsae : Instr.suppressed (.vcvttpd2dqEvex512 o) = true := by rw [Instr.suppressed, hsrc]; rfl
  refine ⟨_, exec_of_suppressed (ready_evex512 hen hpre hv hhigh hz hlen hvl) hsae hsource, destEvex_shift _ _ _ ?_, fun j hj => ?_⟩
  · rw [results_length, (elementsFollowMask _ s _ hsource).1]; simp [Instr.vl]
  · refine (dword_destEvex_results s _ _ (by omega) (registerElements_writemask s _ _ hj)).trans ?_
    split_ifs <;> rfl

/-! ### An unmasked condition (rules R117, R175) -/

/-- The bounds of `XM_FLAGS`: a flag is set only of a detected condition, and of some unmasked one. -/
theorem xmFlagsBounded_bounds (draw : Bool × Bool) {inv inx im pm : Bool} (h : (inv = true ∧ im = false) ∨ (inx = true ∧ pm = false)) :
    ((xmFlagsBounded draw inv inx im pm).1 = true → inv = true) ∧ ((xmFlagsBounded draw inv inx im pm).2 = true → inx = true) ∧
      (((xmFlagsBounded draw inv inx im pm).1 = true ∧ im = false) ∨ ((xmFlagsBounded draw inv inx im pm).2 = true ∧ pm = false)) := by
  unfold xmFlagsBounded xmFlagsRecommended
  dsimp only
  split_ifs with hdraw hinv
  · simp only [Bool.and_eq_true]
    exact ⟨And.left, And.left, by simpa using hdraw⟩
  · simpa using hinv
  · have hinx : inx = true ∧ pm = false := h.resolve_left (by simpa using hinv)
    simp [hinx]

theorem takeException_simd (c : Bool) (s : State) :
    takeException (if c then .simdFloatingPoint else .invalidOpcode) s =
      .fault (.exception (if c then .simdFloatingPoint else .invalidOpcode) s) := by cases c <;> rfl

/-- Settles O17: a ready execution reports the condition, with flags in the bounds of `XM_FLAGS`. -/
theorem unmaskedConditionFaults : Obligations.UnmaskedConditionFaults := by
  intro i s elems hready hsae hsource hcond
  rw [← anyInvalid_iff, ← anyInexact_iff] at hcond ⊢
  have hunmasked : s.unmasked (anyInvalid (s.convertAll elems)) (anyInexact (s.convertAll elems)) = true := by
    simpa [State.unmasked] using hcond
  obtain ⟨hie, hpe, hset⟩ := xmFlagsBounded_bounds (Config.xmFlagsDraw s.draws (anyInvalid (s.convertAll elems))
    (anyInexact (s.convertAll elems)) s.mxIM s.mxPM) hcond
  refine ⟨_, _, ?_, hie, hpe, hset⟩
  rw [exec_of_ready hready, hsource, Answer.run_ok, hsae, retire_unmasked hunmasked, raiseSimd, takeException_simd]
  rfl

end Sys2Proof.Machine

/-! PROOFS. The legacy form's family (spec/41_legacy_sse.md): the elements a register source gives. -/
namespace Sys2Proof.Machine

@[simp] theorem registerElements_length (v : VWord) (mask : List Bool) : (registerElements v mask).length = mask.length := by
  rw [registerElements, List.length_mapIdx]

/-- A register source has a slice at the places its mask enables, whatever the mask's origin (a writemask or all ones). -/
theorem registerElements_getElem? (v : VWord) {mask : List Bool} {j : Nat} {e : Bool} (he : mask[j]? = some e) :
    (registerElements v mask)[j]? = some (if e then some (v.extractLsb' (64 * j) 64) else none) := by
  rw [registerElements, List.getElem?_mapIdx, he, Option.map_some]

/-- Settles O19: a register, plain or with `{sae}`, gives `registerElements` of its value, whose slices the mask selects. -/
theorem registerSourceElements : Obligations.RegisterSourceElements := by
  intro s pre len n aligned mask r
  refine ⟨registerElements (s.vreg r) mask, rfl, rfl, rfl, registerElements_length _ mask, fun j hj => ?_⟩
  have he : mask[j]? = some mask[j] := List.getElem?_eq_getElem hj
  rw [registerElements_getElem? _ he, he]
  simp only [Option.some.injEq]

end Sys2Proof.Machine

/-! PROOFS. The exceptions family (spec/60_exceptions.md): a reserved field alone makes a form undefined (rule R172). -/
namespace Sys2Proof.Machine

theorem vexUd_of_vvvv_ne {s : State} {o : VexOps} (hv : o.vvvv ≠ 15) : s.vexUd o = true := by
  rw [vexUd_iff]; simp only [hv, ne_eq, not_false_eq_true, or_true]

theorem evexUd_of_vvvv_ne {s : State} {o : EvexOps} (hv : o.vvvv ≠ 15) (feat : Bool) : s.evexUd feat o = true := by
  rw [evexUd_iff]; simp only [hv, ne_eq, not_false_eq_true, or_true, true_or]

/-- Settles O16: the field is a disjunct of both forms' `#UD` conditions, which are looked at before the source is read. -/
theorem reservedVvvvRaisesUd : Obligations.ReservedVvvvRaisesUd := by
  refine ⟨fun o s hv hlen => ?_, fun o s hv hlen => ?_⟩
  · have hud : s.vexUd o = true := vexUd_of_vvvv_ne hv
    exact ⟨exec_undefined hlen hud, exec_undefined hlen hud⟩
  · have hud (feat : Bool) : s.evexUd feat o = true := evexUd_of_vvvv_ne hv feat
    exact ⟨exec_undefined hlen (hud _), exec_undefined hlen (hud _), exec_undefined hlen (hud _)⟩

end Sys2Proof.Machine
